-- ==== Sys2Proof/Word.lean ====
section
/-! DEFINITION. The data types every other file uses: the 32-bit word and the byte (rule R6), a palette colour (rule R24),
the five memories (rule R40) and the three pixel sources of the encoder (rule R64). -/

namespace Sys2Proof

/-- A register or command word (`XLEN` = 32, rule R5). -/
abbrev Word := BitVec 32

/-- One element of SRC, WORK, IDX or OUT (rule R41). -/
abbrev Byte := BitVec 8

/-- "an (r, g, b) triple, each an 8-bit unsigned value": one entry of PAL (rule R24). -/
structure Colour where
  r : Byte
  g : Byte
  b : Byte
  deriving DecidableEq, Repr, Inhabited

/-- The five memory spaces (rule R40); the sixth space, REG, is addressed by register number. -/
inductive Space where
  | pal
  | src
  | work
  | idx
  | out
  deriving DecidableEq, Repr

/-- The pixel source of an encoder command, the SUB field of its word (rule R64). -/
inductive PixelSource where
  | src
  | work
  | idx
  deriving DecidableEq, Repr

end Sys2Proof
end

