-- ==== Sys2Proof/Syntax.lean ====
section
/-! DEFINITION. The commands of CQBE: one constructor for each row of `spec/opcode_table.json` (rules R60 to R65). -/

namespace Sys2Proof

/-- A legal command. `n` and `bpp` are the 24-bit IMM field as rule R61 reads it; the pixel source is the SUB field. -/
inductive Instr where
  /-- `PALGRAY n` (rule R80). -/
  | palgray (n : BitVec 24)
  /-- `QNONE` (rule R101). -/
  | qnone
  /-- `QFS` (rule R102). -/
  | qfs
  /-- `QATK` (rule R103). -/
  | qatk
  /-- `QPASS` (rule R104). -/
  | qpass
  /-- `ENC1 src` (rule R129). -/
  | enc1 (p : PixelSource)
  /-- `ENC2 src` (rule R130). -/
  | enc2 (p : PixelSource)
  /-- `ENC4 src` (rule R131). -/
  | enc4 (p : PixelSource)
  /-- `ENC8 src` (rule R132). -/
  | enc8 (p : PixelSource)
  /-- `ENC24 src` (rule R133). -/
  | enc24 (p : PixelSource)
  /-- `ENC bpp, src`: the legal encoder word whose depth is none of the five (rules R65, R135). -/
  | enc (bpp : BitVec 24) (p : PixelSource)
  deriving DecidableEq, Repr

end Sys2Proof
end

