-- ==== Sys2Proof/WellFormed.lean ====
section
/-! DEFINITION. Which terms of `Instr` stand for a command word of their own (rules R64, R65, R66). -/

namespace Sys2Proof

/-- The five depths that have a mnemonic of their own (rule R65). -/
def isNamedDepth (bpp : Nat) : Bool :=
  bpp == 1 || bpp == 2 || bpp == 4 || bpp == 8 || bpp == 24

/-- A well-formed command. Two checks: `ENC24` has no indexed source (its word is illegal, rule R64), and the catch-all
`ENC` does not carry a depth that has a mnemonic of its own ("`ENCk src` is exactly `ENC k, src`", rule R68). -/
def Instr.wf : Instr → Bool
  | .palgray _ => true
  | .qnone => true
  | .qfs => true
  | .qatk => true
  | .qpass => true
  | .enc1 _ => true
  | .enc2 _ => true
  | .enc4 _ => true
  | .enc8 _ => true
  | .enc24 p => p != .idx
  | .enc bpp _ => !isNamedDepth bpp.toNat

end Sys2Proof
end

