-- ==== Sys2Proof/Decode.lean ====
section
/-! DEFINITION. The command word (rule R60): the decoder, total on all 2^32 words and rejecting an illegal word by the
clause of rule R66 it falls under, and the encoder, written from the words of rules R63, R65 and R68. -/

namespace Sys2Proof

/-- The clauses of rule R66. Every one of them is reported to the host as `IllegalCommand` (rule R167). -/
inductive IllegalWord where
  /-- OPC is 0x0 or 0x4 to 0xF. -/
  | reservedOpcode
  /-- OPC = 0x1 and SUB != 0. -/
  | paletteSub
  /-- OPC = 0x2 and SUB >= 4. -/
  | quantizerSub
  /-- OPC = 0x2 and IMM != 0. -/
  | quantizerImm
  /-- OPC = 0x3 and SUB >= 3. -/
  | encoderSource
  /-- OPC = 0x3 and SUB = 2 and IMM = 24. -/
  | indexedTruecolour
  deriving DecidableEq, Repr

/-- OPC, bits 3:0 (rule R60). -/
def opcOf (w : Word) : BitVec 4 := w.extractLsb' 0 4

/-- SUB, bits 7:4 (rule R60). -/
def subOf (w : Word) : BitVec 4 := w.extractLsb' 4 4

/-- IMM, bits 31:8 (rules R60, R61). -/
def immOf (w : Word) : BitVec 24 := w.extractLsb' 8 24

/-- The pixel source a SUB value selects (rule R64). -/
def pixelSourceOf (sub : BitVec 4) : Option PixelSource :=
  if sub = 0 then some .src
  else if sub = 1 then some .work
  else if sub = 2 then some .idx
  else none

/-- The quantizer commands (rule R63). -/
def decodeQuantizer (sub : BitVec 4) (imm : BitVec 24) : Except IllegalWord Instr :=
  if imm ≠ 0 then .error .quantizerImm
  else if sub = 0 then .ok .qnone
  else if sub = 1 then .ok .qfs
  else if sub = 2 then .ok .qatk
  else if sub = 3 then .ok .qpass
  else .error .quantizerSub

/-- An encoder command whose pixel source is known (rules R64, R65). -/
def decodeDepth (p : PixelSource) (imm : BitVec 24) : Except IllegalWord Instr :=
  if imm = 1 then .ok (.enc1 p)
  else if imm = 2 then .ok (.enc2 p)
  else if imm = 4 then .ok (.enc4 p)
  else if imm = 8 then .ok (.enc8 p)
  else if imm = 24 then
    if p = .idx then .error .indexedTruecolour else .ok (.enc24 p)
  else .ok (.enc imm p)

/-- The encoder commands (rules R64, R65). -/
def decodeEncoder (sub : BitVec 4) (imm : BitVec 24) : Except IllegalWord Instr :=
  match pixelSourceOf sub with
  | some p => decodeDepth p imm
  | none => .error .encoderSource

/-- "The decode is total: every one of the 2^32 words is either one of the ten commands, a legal word that fails by its
operand value, or illegal" (rules R62, R66). -/
def decode (w : Word) : Except IllegalWord Instr :=
  if opcOf w = 1 then
    if subOf w = 0 then .ok (.palgray (immOf w)) else .error .paletteSub
  else if opcOf w = 2 then decodeQuantizer (subOf w) (immOf w)
  else if opcOf w = 3 then decodeEncoder (subOf w) (immOf w)
  else .error .reservedOpcode

/-- The instruction the decoder reads from a word numbered as `spec/opcode_table.json` numbers it: a command is one 32-bit
word, so the bits above `nbits` are 0 and there is nothing else to lay out. -/
def decodeTableWord (nbits w : Nat) : Option Instr :=
  match decode (BitVec.ofNat 32 (w % 2 ^ nbits)) with
  | .ok i => some i
  | .error _ => none

/-- `code(src)` of rule R68. -/
def pixelSourceCode : PixelSource → BitVec 4
  | .src => 0
  | .work => 1
  | .idx => 2

/-- A command word from its three fields, IMM in bits 31:8, SUB in 7:4, OPC in 3:0 (rule R60). -/
def commandWord (imm : BitVec 24) (sub opc : BitVec 4) : Word := imm ++ sub ++ opc

/-- The word of a command (rule R68). -/
def encode : Instr → Word
  | .palgray n => commandWord n 0 1
  | .qnone => commandWord 0 0 2
  | .qfs => commandWord 0 1 2
  | .qatk => commandWord 0 2 2
  | .qpass => commandWord 0 3 2
  | .enc1 p => commandWord 1 (pixelSourceCode p) 3
  | .enc2 p => commandWord 2 (pixelSourceCode p) 3
  | .enc4 p => commandWord 4 (pixelSourceCode p) 3
  | .enc8 p => commandWord 8 (pixelSourceCode p) 3
  | .enc24 p => commandWord 24 (pixelSourceCode p) 3
  | .enc bpp p => commandWord bpp (pixelSourceCode p) 3

end Sys2Proof
end

