-- ==== Sys2Proof/Config.lean ====
section
/-! DEFINITION. What an implementation of CQBE fixes (rule R5, rule R32) and the values the spec leaves open
(`93_implementation_defined.md`). The open values are opaque: no proof can see one. -/

namespace Sys2Proof

/-- `MAXW`: the largest legal WIDTH (rule R5). -/
def Config.maxW : Nat := 4096

/-- `MAXH`: the largest legal HEIGHT (rule R5). -/
def Config.maxH : Nat := 4096

/-- `PAL_CAP`: the number of entries of PAL (rule R5). -/
def Config.palCap : Nat := 256

/-- `SRC_CAP`: the bytes of SRC and of WORK (rule R5). -/
def Config.srcCap : Nat := Config.maxW * Config.maxH * 4

/-- `IDX_CAP`: the bytes of IDX (rule R5). -/
def Config.idxCap : Nat := Config.maxW * Config.maxH

/-- `OUT_CAP`: the bytes of OUT, `54 + Stride(MAXW, 24) * MAXH` (rule R5). -/
def Config.outCap : Nat := 54 + (Config.maxW * 24 + 31) / 32 * 4 * Config.maxH

/-- The two rounding parameters of rule R5, `DIFFUSE_ROUND` and `GRAY_ROUND`, as the functions they select, so that a claim
can name the instance it assumes (`93_implementation_defined.md` U1, U2). The instance of this hardware is `rounding` in
`Machine/Ops.lean`. -/
structure Config.Rounding where
  /-- `Diffuse(v, e, num, den)`: the value stored for a neighbour channel that holds `v` (rule R98). -/
  diffuse : Nat → Int → Nat → Nat → Nat
  /-- `GrayStop(i, n)`: stop `i` of an `n`-stop ramp (rule R81). -/
  grayStop : Nat → Nat → Nat

/-- FREE VALUE: what a host read returns where the spec says the value is unspecified (rules R48, R193; U3, U4, U5). It is
applied to the counter `State.freeCount`, which every such read advances. -/
opaque Config.freeWord : Nat → Word

/-- FREE VALUE: the content of an element of SRC, WORK, IDX or OUT that nothing has written since reset (rule R33, U6). -/
opaque Config.unwrittenByte : Space → Nat → Byte

/-- FREE VALUE: the content of a PAL entry that nothing has written since reset (rule R33, U6). -/
opaque Config.unwrittenColour : Nat → Colour

end Sys2Proof
end

