-- ==== Sys2Proof/Machine/State.lean ====
section
/-! DEFINITION. The state of CQBE as plain data: every register and memory of rule R10, the outcome of the last command,
and the model's own fields (the events still to come, the replies the host has received, the free-value counter). -/

namespace Sys2Proof.Machine

/-- The eight errors of a command (rules R160, R161). An error is the outcome of a command and not a stop of the machine:
the step that raises one answers a next state (rule R171). -/
inductive CmdError where
  | unsupportedBitDepth
  | paletteSizeMismatch
  | invalidPalette
  | invalidRasterSize
  | invalidPaletteSize
  | illegalCommand
  | parameterOutOfRange
  | sourceNotReady
  deriving DecidableEq, Repr

/-- STATUS.STATE together with what belongs to it: `busy` carries the command word the sequencer is executing, `error` the
error whose code STATUS.ERR holds ("0 whenever STATE is not ERROR", rule R13). -/
inductive Phase where
  | idle
  | busy (w : Word)
  | done
  | error (e : CmdError)
  deriving DecidableEq, Repr

/-- A memory: its written elements by address, addresses strictly rising (`Memory.wf`). An address that is not listed has
not been written since reset and holds no value of the model's choosing (rule R33). -/
abbrev Memory (α : Type) : Type := List (Nat × α)

/-- What can happen to the block next (rules R40, R70, R190): one host access, the completion of the running command by
the sequencer, or a change of the reset input. -/
inductive Event where
  /-- `HostRegRead(r)`. -/
  | regRead (r : Nat)
  /-- `HostRegWrite(r, v)`. -/
  | regWrite (r : Nat) (v : Word)
  /-- `HostMemRead(space, addr)`. -/
  | memRead (sp : Space) (a : Nat)
  /-- The completion point of the running command, step 5 of rule R70. -/
  | completion
  /-- The reset input is asserted (rule R190). -/
  | assertReset
  /-- The reset input is released (rule R190). -/
  | releaseReset
  deriving DecidableEq, Repr

/-- What a host read returned: a word for a register or a PAL entry, a byte for the byte spaces (rule R41). -/
inductive Reply where
  | word (v : Word)
  | byte (v : Byte)
  deriving DecidableEq, Repr

/-- The machine. CMD, SRC_DATA and PAL_DATA have no storage (rules R12, R18, R20). -/
structure State where
  /-- STATUS.STATE and STATUS.ERR, with the command being executed (rule R13). -/
  phase : Phase
  /-- STATUS.WORK_VALID, bit 8 (rules R13, R29). -/
  workValid : Bool
  /-- STATUS.IDX_VALID, bit 9 (rules R13, R29). -/
  idxValid : Bool
  /-- STATUS.OUT_VALID, bit 10 (rules R13, R29). -/
  outValid : Bool
  /-- CFG, bits 5:0; bits 31:6 are reserved and hold nothing (rule R14). -/
  cfg : BitVec 6
  /-- WIDTH (rule R15). -/
  width : Word
  /-- HEIGHT (rule R16). -/
  height : Word
  /-- CHANNELS (rule R17). -/
  channels : Word
  /-- SRC_LEN (rule R19). -/
  srcLen : Word
  /-- PAL_LEN (rule R21). -/
  palLen : Word
  /-- OUT_LEN (rule R22). -/
  outLen : Word
  /-- PAL, the palette memory (rule R24). -/
  pal : Memory Colour
  /-- SRC, the source raster memory (rule R25). -/
  src : Memory Byte
  /-- WORK, the working raster memory (rule R26). -/
  work : Memory Byte
  /-- IDX, the index memory (rule R27). -/
  idx : Memory Byte
  /-- OUT, the output memory (rule R28). -/
  out : Memory Byte
  /-- The level of the reset input (rule R190): `true` while it is asserted. -/
  resetAsserted : Bool
  /-- The model's own: what happens to the block from here on, first event first. It is what decides which of the two
  agents, host and sequencer, moves next, and so how long a command stays BUSY (`T_BUSY`, rule R198). -/
  agenda : List Event
  /-- The model's own: what the host's reads have returned, the latest first. -/
  replies : List Reply
  /-- The model's own: how many free values have been handed to the host (`Config.freeWord`). -/
  freeCount : Nat
  deriving DecidableEq, Repr

/-- Right after reset (rules R33, R190): every register at the value of rule R33, no element of a memory written, the reset
input released. The model's own fields are empty. -/
def State.reset : State where
  phase := .idle
  workValid := false
  idxValid := false
  outValid := false
  cfg := 0x3E
  width := 0
  height := 0
  channels := 0
  srcLen := 0
  palLen := 0
  outLen := 0
  pal := []
  src := []
  work := []
  idx := []
  out := []
  resetAsserted := false
  agenda := []
  replies := []
  freeCount := 0

/-- The reasons the machine stops: none. Every event of every state has a next state (rules R66, R70, R160), so this type
has no constructor and no run of the model ends in a fault. -/
inductive Fault where
  deriving DecidableEq, Repr

/-- The reasons an instruction has no meaning in the model. -/
inductive Refusal where
  /-- Raised by an arm of `exec` whose instruction is not modelled yet; safe. No arm raises it. -/
  | notModelled (mnemonic : String)
  deriving DecidableEq, Repr

/-- The three outcomes of a step of this machine. -/
abbrev Outcome : Type := Host.Outcome State Fault Refusal

end Sys2Proof.Machine
end

