-- ==== Sys2Proof/Machine/Ops.lean ====
section
/-! DEFINITION. The named operations: loops, memories, the named updates of State, the common template of every command
with its error entry (rules R70, R171), and the two rounding operations (rules R81, R98). -/

namespace Sys2Proof.Machine

/-- `for v in 0 .. n-1` (rule R7): `f 0` first, `f (n-1)` last. -/
def forRange {σ : Type} : Nat → (Nat → σ → σ) → σ → σ
  | 0, _, s => s
  | n + 1, f, s => f n (forRange n f s)

/-! ### Memories -/

/-- The element written at an address, if any was. -/
def Memory.lookup {α : Type} : Memory α → Nat → Option α
  | [], _ => none
  | (b, v) :: m, a => if b = a then some v else Memory.lookup m a

/-- One element read; `d` gives the free value of an address nothing has written (rule R33). -/
def Memory.read {α : Type} (d : Nat → α) (m : Memory α) (a : Nat) : α :=
  (Memory.lookup m a).getD (d a)

/-- One element written, in its place by address. -/
def Memory.write {α : Type} : Memory α → Nat → α → Memory α
  | [], a, v => [(a, v)]
  | (b, w) :: m, a, v =>
    if a < b then (a, v) :: (b, w) :: m
    else if a = b then (a, v) :: m
    else (b, w) :: Memory.write m a v

/-- The elements of a list at consecutive addresses from `a`. -/
def Memory.block {α : Type} : Nat → List α → Memory α
  | _, [] => []
  | a, v :: vs => (a, v) :: Memory.block (a + 1) vs

/-- The elements `vs` written at `a, a+1, ...`; every other address keeps what it holds. -/
def Memory.writeBlock {α : Type} (m : Memory α) (a : Nat) (vs : List α) : Memory α :=
  m.filter (fun e => decide (e.1 < a)) ++ Memory.block a vs
    ++ m.filter (fun e => decide (a + vs.length ≤ e.1))

/-- Every address listed is at least `lo`, and addresses rise strictly. -/
def Memory.wfFrom {α : Type} : Nat → Memory α → Bool
  | _, [] => true
  | lo, (b, _) :: m => decide (lo ≤ b) && Memory.wfFrom (b + 1) m

/-- The canonical form of a memory: addresses strictly rising. An address that is not listed holds no value, so no entry
can equal one. -/
def Memory.wf {α : Type} (m : Memory α) : Bool := Memory.wfFrom 0 m

/-- A byte of SRC. -/
def srcRead (m : Memory Byte) (a : Nat) : Byte := Memory.read (Config.unwrittenByte .src) m a

/-- A byte of WORK. -/
def workRead (m : Memory Byte) (a : Nat) : Byte := Memory.read (Config.unwrittenByte .work) m a

/-- A byte of IDX. -/
def idxRead (m : Memory Byte) (a : Nat) : Byte := Memory.read (Config.unwrittenByte .idx) m a

/-- A byte of OUT. -/
def outRead (m : Memory Byte) (a : Nat) : Byte := Memory.read (Config.unwrittenByte .out) m a

/-- An entry of PAL. -/
def palRead (m : Memory Colour) (i : Nat) : Colour := Memory.read Config.unwrittenColour m i

/-! ### Named updates of the state -/

/-- STATUS.STATE and STATUS.ERR. -/
def State.setPhase (p : Phase) (s : State) : State := { s with phase := p }

/-- CFG bits 5:0; bits 31:6 ignore what is written to them (rule R14). -/
def State.setCfg (v : Word) (s : State) : State := { s with cfg := v.extractLsb' 0 6 }

/-- WIDTH; the write clears WORK_VALID and IDX_VALID (rule R15). -/
def State.setWidth (v : Word) (s : State) : State :=
  { s with width := v, workValid := false, idxValid := false }

/-- HEIGHT; the write clears WORK_VALID and IDX_VALID (rule R16). -/
def State.setHeight (v : Word) (s : State) : State :=
  { s with height := v, workValid := false, idxValid := false }

/-- CHANNELS; the write clears WORK_VALID and IDX_VALID (rule R17). -/
def State.setChannels (v : Word) (s : State) : State :=
  { s with channels := v, workValid := false, idxValid := false }

/-- SRC and SRC_LEN; no validity flag changes (rules R18, R19). -/
def State.setSource (m : Memory Byte) (n : Word) (s : State) : State := { s with src := m, srcLen := n }

/-- PAL and PAL_LEN; every change of the palette clears IDX_VALID (rule R29). -/
def State.setPalette (m : Memory Colour) (n : Word) (s : State) : State :=
  { s with pal := m, palLen := n, idxValid := false }

/-- The result of QNONE, QFS or QATK: WORK and IDX, and both flags set (rule R29). -/
def State.setQuantized (w i : Memory Byte) (s : State) : State :=
  { s with work := w, idx := i, workValid := true, idxValid := true }

/-- The result of QPASS: WORK, with WORK_VALID set and IDX_VALID cleared (rules R29, R104). -/
def State.setPassed (w : Memory Byte) (s : State) : State :=
  { s with work := w, workValid := true, idxValid := false }

/-- The result of an encoder command: OUT, OUT_LEN and OUT_VALID (rule R134). -/
def State.setFile (m : Memory Byte) (n : Word) (s : State) : State :=
  { s with out := m, outLen := n, outValid := true }

/-- The events still to come. -/
def State.setAgenda (es : List Event) (s : State) : State := { s with agenda := es }

/-- A host read has returned. -/
def State.addReply (r : Reply) (s : State) : State := { s with replies := r :: s.replies }

/-- A free value has been handed out. -/
def State.countFree (s : State) : State := { s with freeCount := s.freeCount + 1 }

/-- BUSY (rule R13). -/
def State.isBusy (s : State) : Bool :=
  match s.phase with
  | .busy _ => true
  | .idle => false
  | .done => false
  | .error _ => false

/-! ### The command template -/

/-- Error entry (rule R171): STATE becomes ERROR, ERR the error's code, and nothing else changes. There is no return from
an error; the next accepted command replaces it (rule R172, `acceptCommand`). -/
def raise (e : CmdError) (s : State) : Outcome := .next (s.setPhase (.error e))

/-- Success (rule R70, step 5): the command's writes are in `s`; STATE becomes DONE and ERR 0. -/
def succeed (s : State) : Outcome := .next (s.setPhase .done)

/-- A CMD write that is accepted (rule R70, step 1): STATE becomes BUSY and ERR 0. -/
def acceptCommand (w : Word) (s : State) : State := s.setPhase (.busy w)

/-- The first check that fails, of checks in their order (rule R170). -/
def firstFailure : List (Bool × CmdError) → Option CmdError
  | [] => none
  | (ok, e) :: cs => if ok then firstFailure cs else some e

/-- Steps 3 to 5 of rule R70: the checks in order, then either the error alone or the whole effect. `effect` is `s` with
the command's writes made. -/
def runCommand (checks : List (Bool × CmdError)) (effect s : State) : Outcome :=
  match firstFailure checks with
  | some e => raise e s
  | none => succeed effect

/-! ### Rounding -/

/-- `Diffuse(v, e, num, den)` (rule R98): the floor of `v + e*num/den`, clamped to 0..255. -/
def diffuse (v : Nat) (e : Int) (num den : Nat) : Nat :=
  let t : Int := (den : Int) * v + num * e
  if t < 0 then 0 else min (t / (den : Int)).toNat 255

/-- `GrayStop(i, n)` (rule R81): `255*i/(n-1)` with halves rounded up. -/
def grayStop (i n : Nat) : Nat := (510 * i + (n - 1)) / (2 * (n - 1))

/-- `DIFFUSE_ROUND` and `GRAY_ROUND` of this hardware (rule R5). -/
def rounding : Config.Rounding := { diffuse := diffuse, grayStop := grayStop }

end Sys2Proof.Machine
end

