-- ==== Sys2Proof/Machine/Flags.lean ====
section
/-! DEFINITION. STATUS as the host reads it (rule R13) and the error codes in it (rule R161). The validity flags are set
and cleared by the named updates of `Machine/Ops.lean`, each at its event of rule R29. -/

namespace Sys2Proof.Machine

/-- The code of an error (rule R161). -/
def errorCode : CmdError → BitVec 4
  | .unsupportedBitDepth => 1
  | .paletteSizeMismatch => 2
  | .invalidPalette => 3
  | .invalidRasterSize => 4
  | .invalidPaletteSize => 5
  | .illegalCommand => 8
  | .parameterOutOfRange => 9
  | .sourceNotReady => 10

/-- STATUS.STATE, bits 1:0 (rule R13). -/
def stateField : Phase → BitVec 2
  | .idle => 0
  | .busy _ => 1
  | .done => 2
  | .error _ => 3

/-- STATUS.ERR, bits 7:4: "0 whenever STATE is not ERROR" (rule R13). -/
def errField : Phase → BitVec 4
  | .idle => 0
  | .busy _ => 0
  | .done => 0
  | .error e => errorCode e

/-- The STATUS register (rule R13): OUT_VALID at 10, IDX_VALID at 9, WORK_VALID at 8, ERR at 7:4, STATE at 1:0. -/
def statusWord (s : State) : Word :=
  0#21 ++ BitVec.ofBool s.outValid ++ BitVec.ofBool s.idxValid ++ BitVec.ofBool s.workValid
    ++ errField s.phase ++ 0#2 ++ stateField s.phase

/-- STATUS read while BUSY: STATE is 1 and every other bit is free (rule R13, U3). -/
def busyStatusWord (free : Word) : Word := free.extractLsb' 2 30 ++ 1#2

end Sys2Proof.Machine
end

