-- ==== Sys2Proof/Machine/Operands.lean ====
section
/-! DEFINITION. The operands of the commands: the parameter registers as numbers, CFG's fields, pixel and index addresses
(rules R44, R45, R54), the palette, the nearest colour (rules R92, R93) and the encoder's pixel sources (rule R127). -/

namespace Sys2Proof.Machine

/-- W, H and C (rules R15 to R17). -/
structure Geometry where
  w : Nat
  h : Nat
  c : Nat
  deriving DecidableEq, Repr

/-- The geometry the registers hold. -/
def State.geometry (s : State) : Geometry :=
  { w := s.width.toNat, h := s.height.toNat, c := s.channels.toNat }

/-- `1 <= W <= MAXW and 1 <= H <= MAXH and C in {3, 4}` (rules R90, R121, R168). -/
def Geometry.legal (g : Geometry) : Bool :=
  decide (1 ≤ g.w) && decide (g.w ≤ Config.maxW) && decide (1 ≤ g.h) && decide (g.h ≤ Config.maxH)
    && (g.c == 3 || g.c == 4)

/-- `W*H*C`: the bytes of a raster (rule R44). -/
def Geometry.rasterBytes (g : Geometry) : Nat := g.w * g.h * g.c

/-- `W*H`: the pixels of a raster (rule R45). -/
def Geometry.pixels (g : Geometry) : Nat := g.w * g.h

/-- `PixAddr(x, y, ch)` (rule R54). -/
def Geometry.pixAddr (g : Geometry) (x y ch : Nat) : Nat := (y * g.w + x) * g.c + ch

/-- `IdxAddr(x, y)` (rule R54). -/
def Geometry.idxAddr (g : Geometry) (x y : Nat) : Nat := y * g.w + x

/-- N, the palette length (rule R21). -/
def State.palCount (s : State) : Nat := s.palLen.toNat

/-- CFG.ORIENT: `true` is top-down (rule R14). -/
def State.topDown (s : State) : Bool := s.cfg.getLsbD 0

/-- The CFG enable bit of a depth; a depth that is none of the five has none (rules R14, R121 check 2). -/
def State.depthEnabled (s : State) (bpp : Nat) : Bool :=
  if bpp = 1 then s.cfg.getLsbD 1
  else if bpp = 2 then s.cfg.getLsbD 2
  else if bpp = 4 then s.cfg.getLsbD 3
  else if bpp = 8 then s.cfg.getLsbD 4
  else if bpp = 24 then s.cfg.getLsbD 5
  else false

/-- The palette `PAL[0 .. N-1]` in index order (rule R83). -/
def State.palette (s : State) : List Colour := (List.range s.palCount).map (palRead s.pal)

/-- The three colour bytes of a pixel whose first byte is at `a`: R, then G, then B (rule R44). -/
def colourAt (rd : Nat → Byte) (a : Nat) : Colour := { r := rd a, g := rd (a + 1), b := rd (a + 2) }

/-- The squared difference of two channel values. -/
def sqDiff (a b : Byte) : Int := ((a.toNat : Int) - b.toNat) * ((a.toNat : Int) - b.toNat)

/-- `Dist` (rule R92): squared Euclidean distance in RGB space. -/
def colourDist (p q : Colour) : Int := sqDiff p.r q.r + sqDiff p.g q.g + sqDiff p.b q.b

/-- The loop of `Nearest` from palette index `i` on, with the best index and distance so far (rule R92). -/
def nearestFrom (c : Colour) : List Colour → Nat → Nat → Int → Nat
  | [], _, best, _ => best
  | p :: ps, i, best, bestd =>
    if colourDist c p < bestd then nearestFrom c ps (i + 1) i (colourDist c p)
    else nearestFrom c ps (i + 1) best bestd

/-- `Nearest` (rules R92, R93): the lowest index among the palette entries nearest to `c`. The empty palette is refused by
the checks before this is used (rules R90, R121). -/
def nearest (pal : List Colour) (c : Colour) : Nat :=
  match pal with
  | [] => 0
  | p :: ps => nearestFrom c ps 1 0 (colourDist c p)

/-- `PAL[k]` of a palette taken as a list. -/
def paletteAt (pal : List Colour) (k : Nat) : Colour := (pal[k]?).getD (Config.unwrittenColour k)

/-- A byte of the memory a pixel source names (rule R64). -/
def sourceRead (p : PixelSource) (s : State) (a : Nat) : Byte :=
  match p with
  | .src => srcRead s.src a
  | .work => workRead s.work a
  | .idx => idxRead s.idx a

/-- `IndexOf(x, y)` (rule R127): the palette index of a pixel, for the depths 1, 2, 4 and 8. -/
def indexOf (p : PixelSource) (s : State) (x y : Nat) : Nat :=
  match p with
  | .idx => (sourceRead .idx s (s.geometry.idxAddr x y)).toNat
  | .src => nearest s.palette (colourAt (sourceRead .src s) (s.geometry.pixAddr x y 0))
  | .work => nearest s.palette (colourAt (sourceRead .work s) (s.geometry.pixAddr x y 0))

/-- `RgbOf(x, y)` (rule R127): the colour of a pixel, for the depth 24 and the sources SRC and WORK. -/
def rgbOf (p : PixelSource) (s : State) (x y : Nat) : Colour :=
  colourAt (sourceRead p s) (s.geometry.pixAddr x y 0)

end Sys2Proof.Machine
end

