-- ==== Sys2Proof/Machine/Encoder.lean ====
section
/-! DEFINITION. The BMP Encoder: checks (rule R121), geometry (rule R122), headers and colour table (rules R123 to R125),
rows (rules R126, R128), the five packings (rules R129 to R133) and the unsupported depth (rule R135). -/

namespace Sys2Proof.Machine

/-- `STRIDE`: the bytes of a stored row (rule R122). -/
def strideBytes (w bpp : Nat) : Nat := (w * bpp + 31) / 32 * 4

/-- `CT`: the bytes of the colour table (rule R122). -/
def tableBytes (bpp : Nat) : Nat := if bpp < 24 then 4 * 2 ^ bpp else 0

/-- `OFF`: the offset of the pixel array (rule R122). -/
def pixelOffset (bpp : Nat) : Nat := 54 + tableBytes bpp

/-- `IMG`: the bytes of the pixel array (rule R122). -/
def imageBytes (g : Geometry) (bpp : Nat) : Nat := strideBytes g.w bpp * g.h

/-- `SIZE`: the bytes of the file (rule R122). -/
def fileBytes (g : Geometry) (bpp : Nat) : Nat := pixelOffset bpp + imageBytes g bpp

/-- `le16` (rule R7). -/
def le16 (v : BitVec 16) : List Byte := [v.extractLsb' 0 8, v.extractLsb' 8 8]

/-- `le32` (rule R7). -/
def le32 (v : Word) : List Byte :=
  [v.extractLsb' 0 8, v.extractLsb' 8 8, v.extractLsb' 16 8, v.extractLsb' 24 8]

/-- The file header, OUT[0 .. 13] (rule R123): "BM", SIZE, four reserved bytes, OFF. -/
def fileHeader (g : Geometry) (bpp : Nat) : List Byte :=
  [0x42, 0x4D] ++ le32 (BitVec.ofNat 32 (fileBytes g bpp)) ++ le32 0 ++ le32 (BitVec.ofNat 32 (pixelOffset bpp))

/-- The height field: +H for bottom-up, -H in two's complement for top-down (rule R124). -/
def heightField (s : State) : Word :=
  if s.topDown then -(BitVec.ofNat 32 s.geometry.h) else BitVec.ofNat 32 s.geometry.h

/-- `NCOL`: the palette length at an indexed depth, 0 at 24 (rule R124). -/
def coloursUsed (bpp : Nat) (s : State) : Nat := if bpp < 24 then s.palCount else 0

/-- The info header, OUT[14 .. 53] (rule R124). -/
def infoHeader (bpp : Nat) (s : State) : List Byte :=
  le32 40 ++ le32 (BitVec.ofNat 32 s.geometry.w) ++ le32 (heightField s) ++ le16 1 ++ le16 (BitVec.ofNat 16 bpp)
    ++ le32 0 ++ le32 (BitVec.ofNat 32 (imageBytes s.geometry bpp)) ++ le32 0 ++ le32 0
    ++ le32 (BitVec.ofNat 32 (coloursUsed bpp s)) ++ le32 (BitVec.ofNat 32 (coloursUsed bpp s))

/-- One slot of the colour table: B, G, R, 0 for a palette entry, zeros beyond the palette (rule R125). -/
def tableSlot (s : State) (i : Nat) : List Byte :=
  if i < s.palCount then [(palRead s.pal i).b, (palRead s.pal i).g, (palRead s.pal i).r, 0] else [0, 0, 0, 0]

/-- The colour table, present when `bpp < 24` (rule R125). -/
def colourTable (bpp : Nat) (s : State) : List Byte :=
  if bpp < 24 then (List.range (2 ^ bpp)).flatMap (tableSlot s) else []

/-- `RowOf(s)` (rule R126): the image row that stored row `r` holds. -/
def rowOf (s : State) (r : Nat) : Nat := if s.topDown then r else s.geometry.h - 1 - r

/-- A field OR-ed into a byte of a row (rule R128). -/
def orInto (i v : Nat) (row : List Byte) : List Byte := row.modify i (fun b => b ||| BitVec.ofNat 8 v)

/-- `PackRow` of `ENC1` (rule R129). -/
def packRow1 (p : PixelSource) (s : State) (y : Nat) (row : List Byte) : List Byte :=
  forRange s.geometry.w (fun x row => orInto (x / 8) (indexOf p s x y <<< (7 - x % 8)) row) row

/-- `PackRow` of `ENC2` (rule R130). -/
def packRow2 (p : PixelSource) (s : State) (y : Nat) (row : List Byte) : List Byte :=
  forRange s.geometry.w (fun x row => orInto (x / 4) (indexOf p s x y <<< (6 - 2 * (x % 4))) row) row

/-- `PackRow` of `ENC4` (rule R131). -/
def packRow4 (p : PixelSource) (s : State) (y : Nat) (row : List Byte) : List Byte :=
  forRange s.geometry.w (fun x row => orInto (x / 2) (indexOf p s x y <<< (4 - 4 * (x % 2))) row) row

/-- `PackRow` of `ENC8` (rule R132). -/
def packRow8 (p : PixelSource) (s : State) (y : Nat) (row : List Byte) : List Byte :=
  forRange s.geometry.w (fun x row => row.set x (BitVec.ofNat 8 (indexOf p s x y))) row

/-- `PackRow` of `ENC24` (rule R133): B, G, R. -/
def packRow24 (p : PixelSource) (s : State) (y : Nat) (row : List Byte) : List Byte :=
  forRange s.geometry.w (fun x row =>
    ((row.set (3 * x) (rgbOf p s x y).b).set (3 * x + 1) (rgbOf p s x y).g).set (3 * x + 2) (rgbOf p s x y).r) row

/-- The packing a depth uses (rules R129 to R133). -/
def packRowOf (bpp : Nat) : PixelSource → State → Nat → List Byte → List Byte :=
  if bpp = 1 then packRow1
  else if bpp = 2 then packRow2
  else if bpp = 4 then packRow4
  else if bpp = 8 then packRow8
  else packRow24

/-- Stored row `r`: `STRIDE` zero bytes with the pixels of image row `RowOf(r)` packed into them (rules R120, R128). -/
def storedRow (bpp : Nat) (p : PixelSource) (s : State) (r : Nat) : List Byte :=
  packRowOf bpp p s (rowOf s r) (List.replicate (strideBytes s.geometry.w bpp) 0)

/-- The pixel array: the stored rows in order (rules R120, R126). -/
def pixelArray (bpp : Nat) (p : PixelSource) (s : State) : List Byte :=
  (List.range s.geometry.h).flatMap (storedRow bpp p s)

/-- The whole BMP file (rule R120). -/
def bmpFile (bpp : Nat) (p : PixelSource) (s : State) : List Byte :=
  fileHeader s.geometry bpp ++ infoHeader bpp s ++ colourTable bpp s ++ pixelArray bpp p s

/-- The state after a successful encoder command (rules R120, R134). -/
def encodeEffect (bpp : Nat) (p : PixelSource) (s : State) : State :=
  s.setFile (Memory.writeBlock s.out 0 (bmpFile bpp p s)) (BitVec.ofNat 32 (fileBytes s.geometry bpp))

/-- Check 5 of rule R121. -/
def sourceCheck (p : PixelSource) (s : State) : Bool × CmdError :=
  match p with
  | .src => (decide (s.srcLen.toNat = s.geometry.rasterBytes), .invalidRasterSize)
  | .work => (s.workValid, .sourceNotReady)
  | .idx => (s.idxValid, .sourceNotReady)

/-- The checks of every encoder command, in order (rule R121). The first is the one clause of rule R66 that an encoder
command term can fall under. -/
def encoderChecks (bpp : Nat) (p : PixelSource) (s : State) : List (Bool × CmdError) :=
  [(!(decide (bpp = 24) && p == .idx), .illegalCommand),
   (s.depthEnabled bpp, .unsupportedBitDepth),
   (decide (24 ≤ bpp) || (decide (1 ≤ s.palCount) && decide (s.palCount ≤ 2 ^ bpp)), .paletteSizeMismatch),
   (s.geometry.legal, .parameterOutOfRange),
   sourceCheck p s]

/-- An encoder command at any depth (rules R120, R121). -/
def encoderCommand (bpp : Nat) (p : PixelSource) (s : State) : Outcome :=
  runCommand (encoderChecks bpp p s) (encodeEffect bpp p s) s

/-- `ENC1 src` (rule R129). -/
def execEnc1 (p : PixelSource) (s : State) : Outcome := encoderCommand 1 p s

/-- `ENC2 src` (rule R130). -/
def execEnc2 (p : PixelSource) (s : State) : Outcome := encoderCommand 2 p s

/-- `ENC4 src` (rule R131). -/
def execEnc4 (p : PixelSource) (s : State) : Outcome := encoderCommand 4 p s

/-- `ENC8 src` (rule R132). -/
def execEnc8 (p : PixelSource) (s : State) : Outcome := encoderCommand 8 p s

/-- `ENC24 src` (rule R133). -/
def execEnc24 (p : PixelSource) (s : State) : Outcome := encoderCommand 24 p s

/-- `ENC bpp, src` (rule R135): a depth that is none of the five has no enable bit and fails at check 2. "`ENCk src` is
exactly `ENC k, src`" (rule R68). -/
def execEnc (bpp : BitVec 24) (p : PixelSource) (s : State) : Outcome := encoderCommand bpp.toNat p s

end Sys2Proof.Machine
end

