-- ==== Sys2Proof/Machine/Palette.lean ====
section
/-! DEFINITION. The Palette Builder: PALGRAY (rules R80, R81). -/

namespace Sys2Proof.Machine

/-- The gray `(v, v, v)`. -/
def grayColour (v : Nat) : Colour :=
  { r := BitVec.ofNat 8 v, g := BitVec.ofNat 8 v, b := BitVec.ofNat 8 v }

/-- An `n`-stop ramp (rule R80). -/
def grayRamp (R : Config.Rounding) (n : Nat) : List Colour :=
  (List.range n).map (fun i => grayColour (R.grayStop i n))

/-- The checks of PALGRAY after legality (rule R80). -/
def palgrayChecks (n : Nat) : List (Bool × CmdError) :=
  [(decide (2 ≤ n) && decide (n ≤ Config.palCap), .invalidPaletteSize)]

/-- `PALGRAY n` (rule R80). -/
def execPalgray (n : BitVec 24) (s : State) : Outcome :=
  runCommand (palgrayChecks n.toNat)
    (s.setPalette (Memory.writeBlock s.pal 0 (grayRamp rounding n.toNat)) (BitVec.ofNat 32 n.toNat)) s

end Sys2Proof.Machine
end

