-- ==== Sys2Proof/Machine/Quantizer.lean ====
section
/-! DEFINITION. The Quantizer: checks (rule R90), kernels (rule R97), scan and per-pixel step (rules R94, R95) and the
commands QNONE, QFS, QATK and QPASS (rules R101 to R104). -/

namespace Sys2Proof.Machine

/-- One row of a diffusion kernel (rule R97): the offset of a neighbour and its weight `num/den`. -/
structure Tap where
  dx : Int
  dy : Int
  num : Nat
  den : Nat
  deriving DecidableEq, Repr

/-- The four FloydSteinberg rows of rule R97. -/
def floydSteinbergKernel : List Tap :=
  [{ dx := 1, dy := 0, num := 7, den := 16 }, { dx := -1, dy := 1, num := 3, den := 16 },
   { dx := 0, dy := 1, num := 5, den := 16 }, { dx := 1, dy := 1, num := 1, den := 16 }]

/-- The six Atkinson rows of rule R97, each 1/8 of the error times the dampening factor 0.75. -/
def atkinsonKernel : List Tap :=
  [{ dx := 1, dy := 0, num := 3, den := 32 }, { dx := 2, dy := 0, num := 3, den := 32 },
   { dx := -1, dy := 1, num := 3, den := 32 }, { dx := 0, dy := 1, num := 3, den := 32 },
   { dx := 1, dy := 1, num := 3, den := 32 }, { dx := 0, dy := 2, num := 3, den := 32 }]

/-- What a quantizer pass works on: WORK and IDX (rule R95). -/
structure Scan where
  work : Memory Byte
  idx : Memory Byte
  deriving DecidableEq, Repr

/-- Whether the neighbour of `(x, y)` at a tap's offset lies in `[0,W) x [0,H)` (rule R99). -/
def Tap.inside (t : Tap) (g : Geometry) (x y : Nat) : Bool :=
  decide (0 ≤ (x : Int) + t.dx) && decide ((x : Int) + t.dx < g.w)
    && decide (0 ≤ (y : Int) + t.dy) && decide ((y : Int) + t.dy < g.h)

/-- The share of the error `e` of channel `ch` for one neighbour: added as `Diffuse` says when the neighbour exists,
dropped when it does not (rules R95, R98, R99). -/
def diffuseTap (R : Config.Rounding) (g : Geometry) (x y ch : Nat) (e : Int) (t : Tap) (m : Memory Byte) :
    Memory Byte :=
  if t.inside g x y then
    let a := g.pixAddr ((x : Int) + t.dx).toNat ((y : Int) + t.dy).toNat ch
    Memory.write m a (BitVec.ofNat 8 (R.diffuse (workRead m a).toNat e t.num t.den))
  else m

/-- The error of one channel to all neighbours, in table order (rule R95). -/
def diffuseChannel (R : Config.Rounding) (kernel : List Tap) (g : Geometry) (x y ch : Nat) (e : Int)
    (m : Memory Byte) : Memory Byte :=
  kernel.foldl (fun m t => diffuseTap R g x y ch e t m) m

/-- The quantization error of a channel, old value minus new value (rule R96). -/
def channelError (old new : Byte) : Int := (old.toNat : Int) - new.toNat

/-- A pixel's three colour bytes replaced (rule R95); a fourth byte is not touched (rule R100). -/
def writeColour (m : Memory Byte) (a : Nat) (c : Colour) : Memory Byte :=
  Memory.write (Memory.write (Memory.write m a c.r) (a + 1) c.g) (a + 2) c.b

/-- The per-pixel step at `(x, y)` (rule R95). -/
def pixelStep (R : Config.Rounding) (kernel : List Tap) (pal : List Colour) (g : Geometry) (x y : Nat)
    (sc : Scan) : Scan :=
  let a := g.pixAddr x y 0
  let old := colourAt (workRead sc.work) a
  let k := nearest pal old
  let new := paletteAt pal k
  let w := writeColour sc.work a new
  let w := diffuseChannel R kernel g x y 0 (channelError old.r new.r) w
  let w := diffuseChannel R kernel g x y 1 (channelError old.g new.g) w
  let w := diffuseChannel R kernel g x y 2 (channelError old.b new.b) w
  { work := w, idx := Memory.write sc.idx (g.idxAddr x y) (BitVec.ofNat 8 k) }

/-- The scan, "strictly row-major, left-to-right, top-to-bottom, single pass" (rule R94). -/
def scanPixels (R : Config.Rounding) (kernel : List Tap) (pal : List Colour) (g : Geometry) (sc : Scan) : Scan :=
  forRange g.h (fun y sc => forRange g.w (fun x sc => pixelStep R kernel pal g x y sc) sc) sc

/-- The bytes `SRC[0 .. W*H*C-1]`, which the initial copy writes to WORK (rule R101). -/
def sourceBytes (s : State) : List Byte := (List.range s.geometry.rasterBytes).map (srcRead s.src)

/-- WORK after the initial copy: "the mutable copy of the input" (rule R101). -/
def copySource (s : State) : Memory Byte := Memory.writeBlock s.work 0 (sourceBytes s)

/-- `Quantize(KERNEL)` before the flags are set (rule R101). -/
def quantizePass (R : Config.Rounding) (kernel : List Tap) (s : State) : Scan :=
  scanPixels R kernel s.palette s.geometry { work := copySource s, idx := s.idx }

/-- The state after a successful QNONE, QFS or QATK (rules R29, R101). -/
def quantizeEffect (R : Config.Rounding) (kernel : List Tap) (s : State) : State :=
  s.setQuantized (quantizePass R kernel s).work (quantizePass R kernel s).idx

/-- The checks of QNONE, QFS and QATK after legality (rule R90). -/
def quantizerChecks (s : State) : List (Bool × CmdError) :=
  [(s.geometry.legal && decide (s.palCount ≤ Config.palCap), .parameterOutOfRange),
   (decide (s.srcLen.toNat = s.geometry.rasterBytes), .invalidRasterSize),
   (decide (1 ≤ s.palCount), .invalidPalette)]

/-- The checks of QPASS after legality (rule R90): PAL_LEN is not read. -/
def passChecks (s : State) : List (Bool × CmdError) :=
  [(s.geometry.legal, .parameterOutOfRange),
   (decide (s.srcLen.toNat = s.geometry.rasterBytes), .invalidRasterSize)]

/-- `QNONE` (rule R101): the empty kernel. -/
def execQnone (s : State) : Outcome := runCommand (quantizerChecks s) (quantizeEffect rounding [] s) s

/-- `QFS` (rule R102). -/
def execQfs (s : State) : Outcome :=
  runCommand (quantizerChecks s) (quantizeEffect rounding floydSteinbergKernel s) s

/-- `QATK` (rule R103). -/
def execQatk (s : State) : Outcome :=
  runCommand (quantizerChecks s) (quantizeEffect rounding atkinsonKernel s) s

/-- `QPASS` (rule R104). -/
def execQpass (s : State) : Outcome := runCommand (passChecks s) (s.setPassed (copySource s)) s

end Sys2Proof.Machine
end

