-- ==== Sys2Proof/Machine/Dispatch.lean ====
section
/-! DEFINITION. One arm for each command: its meaning, in a file of its unit. -/

namespace Sys2Proof.Machine

def exec (i : Instr) (s : State) : Host.Outcome State Fault Refusal :=
  match i with
  | .palgray n => Sys2Proof.Machine.execPalgray n s
  | .qnone => Sys2Proof.Machine.execQnone s
  | .qfs => Sys2Proof.Machine.execQfs s
  | .qatk => Sys2Proof.Machine.execQatk s
  | .qpass => Sys2Proof.Machine.execQpass s
  | .enc1 p => Sys2Proof.Machine.execEnc1 p s
  | .enc2 p => Sys2Proof.Machine.execEnc2 p s
  | .enc4 p => Sys2Proof.Machine.execEnc4 p s
  | .enc8 p => Sys2Proof.Machine.execEnc8 p s
  | .enc24 p => Sys2Proof.Machine.execEnc24 p s
  | .enc bpp p => Sys2Proof.Machine.execEnc bpp p s

end Sys2Proof.Machine
end

