-- ==== Sys2Proof/Machine/HostAccess.lean ====
section
/-! DEFINITION. The host primitives `HostRegRead`, `HostRegWrite` and `HostMemRead` (rule R40), register by register
(rules R12 to R23), and the reset input (rule R190). -/

namespace Sys2Proof.Machine

/-- A saturating push counter (rules R18, R20). -/
def bumpCount (n : Word) : Word := if n.toNat < 2 ^ 32 - 1 then n + 1 else n

/-- A write to SRC_DATA (rule R18). -/
def pushSource (v : Word) (s : State) : State :=
  s.setSource
    (if s.srcLen.toNat < Config.srcCap then Memory.write s.src s.srcLen.toNat (v.extractLsb' 0 8) else s.src)
    (bumpCount s.srcLen)

/-- The colour of a word `0x00RRGGBB`; bits 31:24 are ignored (rules R20, R41). -/
def colourOfWord (v : Word) : Colour :=
  { r := v.extractLsb' 16 8, g := v.extractLsb' 8 8, b := v.extractLsb' 0 8 }

/-- A PAL entry as the host reads it, `0x00RRGGBB` (rule R41). -/
def wordOfColour (c : Colour) : Word := 0#8 ++ c.r ++ c.g ++ c.b

/-- A write to PAL_DATA (rule R20). -/
def pushColour (v : Word) (s : State) : State :=
  s.setPalette
    (if s.palLen.toNat < Config.palCap then Memory.write s.pal s.palLen.toNat (colourOfWord v) else s.pal)
    (bumpCount s.palLen)

/-- The value of a register while the block is not BUSY (rules R11 to R23): write-only and reserved registers read 0. -/
def regValue (s : State) (r : Nat) : Word :=
  match r with
  | 0 => 0
  | 1 => statusWord s
  | 2 => s.cfg.setWidth 32
  | 3 => s.width
  | 4 => s.height
  | 5 => s.channels
  | 6 => 0
  | 7 => s.srcLen
  | 8 => 0
  | 9 => s.palLen
  | 10 => s.outLen
  | _ => 0

/-- `HostRegRead(r)`. While BUSY only STATUS.STATE is defined and every other bit is a free value (rules R13, R193). -/
def hostRegRead (r : Nat) (s : State) : State :=
  if s.isBusy then
    (if r = 1 then s.addReply (.word (busyStatusWord (Config.freeWord s.freeCount)))
     else s.addReply (.word (Config.freeWord s.freeCount))).countFree
  else s.addReply (.word (regValue s r))

/-- `HostRegWrite(r, v)`. While BUSY every write is ignored (rules R11, R193); a write to STATUS, OUT_LEN or a reserved
register is ignored always (rules R13, R22, R23). -/
def hostRegWrite (r : Nat) (v : Word) (s : State) : State :=
  if s.isBusy then s
  else
    match r with
    | 0 => acceptCommand v s
    | 2 => s.setCfg v
    | 3 => s.setWidth v
    | 4 => s.setHeight v
    | 5 => s.setChannels v
    | 6 => pushSource v s
    | 7 => s.setSource s.src 0
    | 8 => pushColour v s
    | 9 => s.setPalette s.pal 0
    | _ => s

/-- The window of defined content of a space (rule R47), STATE apart. -/
def inWindow (sp : Space) (a : Nat) (s : State) : Bool :=
  match sp with
  | .pal => decide (a < min s.palLen.toNat Config.palCap)
  | .src => decide (a < min s.srcLen.toNat Config.srcCap)
  | .work => s.workValid && decide (a < s.geometry.rasterBytes)
  | .idx => s.idxValid && decide (a < s.geometry.pixels)
  | .out => s.outValid && decide (a < s.outLen.toNat)

/-- The element at an address as the host reads it: a word for PAL, a byte elsewhere (rule R41). -/
def elementReply (sp : Space) (a : Nat) (s : State) : Reply :=
  match sp with
  | .pal => .word (wordOfColour (palRead s.pal a))
  | .src => .byte (srcRead s.src a)
  | .work => .byte (workRead s.work a)
  | .idx => .byte (idxRead s.idx a)
  | .out => .byte (outRead s.out a)

/-- An unspecified value of the width of a space (rule R48, U4). -/
def freeReply (sp : Space) (n : Nat) : Reply :=
  match sp with
  | .pal => .word (Config.freeWord n)
  | .src => .byte ((Config.freeWord n).extractLsb' 0 8)
  | .work => .byte ((Config.freeWord n).extractLsb' 0 8)
  | .idx => .byte ((Config.freeWord n).extractLsb' 0 8)
  | .out => .byte ((Config.freeWord n).extractLsb' 0 8)

/-- `HostMemRead(space, addr)`: the stored element exactly inside the window and not BUSY (rule R47), a free value
otherwise (rule R48). -/
def hostMemRead (sp : Space) (a : Nat) (s : State) : State :=
  if !s.isBusy && inWindow sp a s then s.addReply (elementReply sp a s)
  else (s.addReply (freeReply sp s.freeCount)).countFree

/-- The block under its reset input (rule R190): all architectural state as rule R33 says, a running command abandoned, the
input at the level `asserted`. What is still to come, what the host has already read and the free-value counter are not
state of the block. -/
def resetInput (asserted : Bool) (s : State) : State :=
  { State.reset with
    resetAsserted := asserted
    agenda := s.agenda
    replies := s.replies
    freeCount := s.freeCount }

/-- One event while the reset input is asserted, in a state that holds the values of rule R33 (rule R190): no write and no
command takes effect, a read finds those values, and the release leaves them. -/
def heldEvent (e : Event) (s : State) : State :=
  match e with
  | .regRead r => hostRegRead r s
  | .memRead sp a => hostMemRead sp a s
  | .regWrite _ _ => s
  | .completion => s
  | .assertReset => s
  | .releaseReset => resetInput false s

/-- One step while the reset input is asserted: all state takes the values of rule R33, and the event finds and leaves them
(rule R190). -/
def heldStep (s : State) : State :=
  match s.agenda with
  | [] => resetInput true s
  | e :: es => heldEvent e (resetInput true (s.setAgenda es))

end Sys2Proof.Machine
end

