-- ==== Sys2Proof/Machine/Step.lean ====
section
/-! DEFINITION. One step: the next event of the agenda (a host access, the completion of the running command, a change of the
reset input). CQBE has no program counter and fetches nothing (rules R30, R52): a command is the word written to CMD, which
the sequencer holds while STATE is BUSY. -/

namespace Sys2Proof.Machine

/-- The completion point of the command word `w` (rule R70, steps 2 to 5): an illegal word ends in `IllegalCommand`
(rules R66, R167), every other word as its command says. -/
def completeCommand (w : Word) (s : State) : Host.Outcome State Fault Refusal :=
  match decode w with
  | .ok i => exec i s
  | .error _ => raise .illegalCommand s

/-- The sequencer's move: the running command completes. With no command running nothing happens ("nothing happens in
CQBE except in response to a host access", rule R160). -/
def sequencerMove (s : State) : Host.Outcome State Fault Refusal :=
  match s.phase with
  | .busy w => completeCommand w s
  | .idle => .next s
  | .done => .next s
  | .error _ => .next s

/-- What one event does while the reset input is not asserted; releasing it again changes nothing. -/
def runEvent (e : Event) (s : State) : Host.Outcome State Fault Refusal :=
  match e with
  | .regRead r => .next (hostRegRead r s)
  | .regWrite r v => .next (hostRegWrite r v s)
  | .memRead sp a => .next (hostMemRead sp a s)
  | .completion => sequencerMove s
  | .assertReset => .next (resetInput true s)
  | .releaseReset => .next s

/-- One step with the reset input not asserted: the first event of the agenda, or, when no event is left, the sequencer's
move: "a command that has started finishes" (rule R198). -/
def liveStep (s : State) : Host.Outcome State Fault Refusal :=
  match s.agenda with
  | [] => sequencerMove s
  | e :: es => runEvent e (s.setAgenda es)

/-- One step. -/
def step (s : State) : Host.Outcome State Fault Refusal :=
  if s.resetAsserted then .next (heldStep s) else liveStep s

/-- `s` with the command word of bits `w` accepted from CMD and its completion the next event: the state after the host's
CMD write (rule R70, step 1), so that the very next step runs exactly that command. CMD accepts nothing while the reset
input is asserted, so it is released. -/
def State.withFetchWord (s : State) (nbits w : Nat) : State :=
  { acceptCommand (BitVec.ofNat 32 (w % 2 ^ nbits)) s with
    agenda := .completion :: s.agenda
    resetAsserted := false }

end Sys2Proof.Machine
end

