-- ==== Sys2Proof/Safety.lean ====
section
/-! DEFINITION. What claims call a safe step and a sound state. -/

namespace Sys2Proof.Machine

/-- A step that answers a next state: neither a fault nor a refusal. -/
def SafeStep (s : State) : Prop := ∃ t, step s = .next t

/-- Every address below `n` has been written since reset. -/
def Memory.listedBelow {α : Type} (m : Memory α) (n : Nat) : Prop := ∀ a, a < n → (Memory.lookup m a).isSome = true

/-- No address at or above the capacity is written. -/
def Memory.within {α : Type} (m : Memory α) (cap : Nat) : Prop := ∀ a, cap ≤ a → Memory.lookup m a = none

/-- What the pixel number `a` (rule R45) of a valid index plane satisfies: its index has been written, is below N, is the
index `Nearest` gives for its own colour, and that colour is what WORK holds (rules R29, R105). -/
def indexedPixel (s : State) (a : Nat) : Prop :=
  ∃ k : Byte, Memory.lookup s.idx a = some k ∧ k.toNat < s.palCount
    ∧ colourAt (workRead s.work) (a * s.geometry.c) = paletteAt s.palette k.toNat
    ∧ nearest s.palette (paletteAt s.palette k.toNat) = k.toNat

/-- WORK holds the complete result of a quantizer command for the geometry the registers hold now ("WORK holds a complete
quantizer result for the current WIDTH, HEIGHT, CHANNELS", rule R13): the raster is the one that QPASS, or a pass with the
kernel of QNONE, QFS or QATK, makes in some block `s0` of this geometry in which the checks of the command pass. -/
def holdsRaster (s : State) : Prop :=
  ∃ s0 : State, s0.geometry = s.geometry
    ∧ ((firstFailure (passChecks s0) = none
        ∧ ∀ a, a < s.geometry.rasterBytes → workRead s.work a = srcRead s0.src a)
      ∨ ∃ kernel, (kernel = [] ∨ kernel = floydSteinbergKernel ∨ kernel = atkinsonKernel)
        ∧ firstFailure (quantizerChecks s0) = none
        ∧ ∀ a, a < s.geometry.rasterBytes → workRead s.work a = workRead (quantizePass rounding kernel s0).work a)

/-- WORK and IDX hold the complete result of QNONE, QFS or QATK for the geometry and the palette the registers hold now ("IDX
holds the indices of that result, and they refer to the current palette", rule R13). -/
def holdsIndices (s : State) : Prop :=
  ∃ (s0 : State) (kernel : List Tap), (kernel = [] ∨ kernel = floydSteinbergKernel ∨ kernel = atkinsonKernel)
    ∧ s0.geometry = s.geometry ∧ s0.palette = s.palette ∧ firstFailure (quantizerChecks s0) = none
    ∧ (∀ a, a < s.geometry.rasterBytes → workRead s.work a = workRead (quantizePass rounding kernel s0).work a)
    ∧ ∀ a, a < s.geometry.pixels → idxRead s.idx a = idxRead (quantizePass rounding kernel s0).idx a

/-- OUT holds a complete BMP file ("OUT[0 .. OUT_LEN-1] holds a complete BMP file", rule R13): OUT_LEN is the size and the
bytes below it are the bytes of the file that an encoder command writes in some block `s0` in which its checks pass. -/
def holdsFile (s : State) : Prop :=
  ∃ (s0 : State) (bpp : Nat) (p : PixelSource), firstFailure (encoderChecks bpp p s0) = none
    ∧ s.outLen.toNat = fileBytes s0.geometry bpp
    ∧ ∀ a, a < s.outLen.toNat → (bmpFile bpp p s0)[a]? = some (outRead s.out a)

/-- The invariant of every step: the five memories keep their canonical form and their capacity (rule R5); every element of
a window of defined content has been written (rule R47); a valid flag says what rule R13 says it does, for the geometry
and the palette the registers hold now (rules R29, R105); while the reset input is asserted all state of the block has the
value of rule R33 (rule R190). -/
structure Inv (s : State) : Prop where
  palForm : Memory.wf s.pal = true
  srcForm : Memory.wf s.src = true
  workForm : Memory.wf s.work = true
  idxForm : Memory.wf s.idx = true
  outForm : Memory.wf s.out = true
  palFits : Memory.within s.pal Config.palCap
  srcFits : Memory.within s.src Config.srcCap
  workFits : Memory.within s.work Config.srcCap
  idxFits : Memory.within s.idx Config.idxCap
  outFits : Memory.within s.out Config.outCap
  palWindow : Memory.listedBelow s.pal (min s.palCount Config.palCap)
  srcWindow : Memory.listedBelow s.src (min s.srcLen.toNat Config.srcCap)
  workWindow : s.workValid = true → s.geometry.legal = true ∧ Memory.listedBelow s.work s.geometry.rasterBytes
    ∧ holdsRaster s
  idxWindow : s.idxValid = true → s.workValid = true ∧ 1 ≤ s.palCount ∧ s.palCount ≤ Config.palCap
    ∧ (∀ a, a < s.geometry.pixels → indexedPixel s a) ∧ holdsIndices s
  outWindow : s.outValid = true → s.outLen.toNat ≤ Config.outCap ∧ Memory.listedBelow s.out s.outLen.toNat ∧ holdsFile s
  resetForm : s.resetAsserted = true → s = resetInput true s

end Sys2Proof.Machine
end

