-- ==== Sys2Proof/Certificates/Slice0/Obligations.lean ====
section
/-! DEFINITION. The statements for the provers. The helper definitions first: they spell the spec's tables and formulas out
in numbers, so that a statement does not lean on the model's own text for them. -/

namespace Sys2Proof.Claims

open Sys2Proof.Machine

/-- Rule R66, with OPC, SUB and IMM as the numbers of rule R60. -/
def illegalWord (w : Word) : Prop :=
  w.toNat % 16 = 0 ∨ 4 ≤ w.toNat % 16
    ∨ (w.toNat % 16 = 1 ∧ w.toNat / 16 % 16 ≠ 0)
    ∨ (w.toNat % 16 = 2 ∧ 4 ≤ w.toNat / 16 % 16)
    ∨ (w.toNat % 16 = 2 ∧ w.toNat / 256 ≠ 0)
    ∨ (w.toNat % 16 = 3 ∧ 3 ≤ w.toNat / 16 % 16)
    ∨ (w.toNat % 16 = 3 ∧ w.toNat / 16 % 16 = 2 ∧ w.toNat / 256 = 24)

/-- Rule R161: the code of an error. -/
def errorNumber : CmdError → Nat
  | .unsupportedBitDepth => 1
  | .paletteSizeMismatch => 2
  | .invalidPalette => 3
  | .invalidRasterSize => 4
  | .invalidPaletteSize => 5
  | .illegalCommand => 8
  | .parameterOutOfRange => 9
  | .sourceNotReady => 10

/-- Rule R13: STATE + 16 * ERR. -/
def phaseNumber : Phase → Nat
  | .idle => 0
  | .busy _ => 1
  | .done => 2
  | .error e => 3 + 16 * errorNumber e

/-- Rule R13: the whole of STATUS as a number. -/
def statusNumber (s : State) : Nat :=
  phaseNumber s.phase + 256 * s.workValid.toNat + 512 * s.idxValid.toNat + 1024 * s.outValid.toNat

/-- The register map of rule R11: what a host reads. -/
def registerNumber (s : State) : Nat → Nat
  | 1 => statusNumber s
  | 2 => s.cfg.toNat
  | 3 => s.width.toNat
  | 4 => s.height.toNat
  | 5 => s.channels.toNat
  | 7 => s.srcLen.toNat
  | 9 => s.palLen.toNat
  | 10 => s.outLen.toNat
  | _ => 0

/-- Check 2 of rule R90 without its clause on N, check 4 of rule R121. -/
def legalGeometry (s : State) : Prop :=
  1 ≤ s.width.toNat ∧ s.width.toNat ≤ 4096 ∧ 1 ≤ s.height.toNat ∧ s.height.toNat ≤ 4096
    ∧ (s.channels.toNat = 3 ∨ s.channels.toNat = 4)

/-- `W*H*C`. -/
def rasterSize (s : State) : Nat := s.width.toNat * s.height.toNat * s.channels.toNat

/-- `W*H`. -/
def pixelCount (s : State) : Nat := s.width.toNat * s.height.toNat

/-- The checks of QNONE, QFS and QATK all pass (rule R90). -/
def quantizerReady (s : State) : Prop :=
  legalGeometry s ∧ s.palLen.toNat ≤ 256 ∧ s.srcLen.toNat = rasterSize s ∧ 1 ≤ s.palLen.toNat

/-- QNONE, QFS or QATK. -/
def isDiffuser (i : Instr) : Prop := i = .qnone ∨ i = .qfs ∨ i = .qatk

/-- The address of channel `ch` of pixel `(x, y)` (rule R44). -/
def pixelAddress (s : State) (x y ch : Nat) : Nat := (y * s.width.toNat + x) * s.channels.toNat + ch

/-- The SRC colour of pixel `(x, y)` (rule R44). -/
def srcColour (s : State) (x y : Nat) : Colour :=
  { r := srcRead s.src (pixelAddress s x y 0), g := srcRead s.src (pixelAddress s x y 1),
    b := srcRead s.src (pixelAddress s x y 2) }

/-- The WORK colour of pixel `(x, y)` (rule R44). -/
def workColour (s : State) (x y : Nat) : Colour :=
  { r := workRead s.work (pixelAddress s x y 0), g := workRead s.work (pixelAddress s x y 1),
    b := workRead s.work (pixelAddress s x y 2) }

/-- The IDX value of pixel `(x, y)` (rule R45). -/
def pixelIndex (s : State) (x y : Nat) : Nat := (idxRead s.idx (y * s.width.toNat + x)).toNat

/-- A channel of a colour: 0 is R, 1 is G, 2 is B (rule R44). -/
def channel (c : Colour) (ch : Nat) : Nat := if ch = 0 then c.r.toNat else if ch = 1 then c.g.toNat else c.b.toNat

/-- Squared Euclidean distance in RGB space (rule R92). -/
def colourDistance (p q : Colour) : Int :=
  ((p.r.toNat : Int) - q.r.toNat) ^ 2 + ((p.g.toNat : Int) - q.g.toNat) ^ 2 + ((p.b.toNat : Int) - q.b.toNat) ^ 2

/-- Error diffusion read from the receiving pixel: the value `v0` of a channel of pixel `(x, y)` after the shares of the
errors `err` of the pixels it is a neighbour of, one `Diffuse` (rule R98) for each row of `taps` whose source pixel lies in
the raster (rule R99). -/
def gathered (taps : List Tap) (s : State) (err : Nat → Nat → Int) (x y v0 : Nat) : Nat :=
  taps.foldl (fun v t =>
    if 0 ≤ (x : Int) - t.dx ∧ (x : Int) - t.dx < s.width.toNat ∧ 0 ≤ (y : Int) - t.dy ∧ (y : Int) - t.dy < s.height.toNat
    then diffuse v (err ((x : Int) - t.dx).toNat ((y : Int) - t.dy).toNat) t.num t.den
    else v) v0

/-- The result of a diffusing command with the kernel `taps`: there are old values `old x y ch` such that every pixel takes
the nearest colour to its old value, and the old value of a channel is its SRC value with the errors of the earlier pixels
gathered in scan order (rules R94 to R99). In scan order the sources of a pixel's shares are the kernel rows read from the
last to the first. -/
def diffusedBy (taps : List Tap) (s t : State) : Prop :=
  ∃ old : Nat → Nat → Nat → Nat, ∀ x y, x < s.width.toNat → y < s.height.toNat →
    (∃ c : Colour, (∀ ch, ch < 3 → channel c ch = old x y ch) ∧ pixelIndex t x y = nearest s.palette c)
    ∧ pixelIndex t x y < s.palLen.toNat
    ∧ workColour t x y = palRead s.pal (pixelIndex t x y)
    ∧ ∀ ch, ch < 3 → old x y ch
        = gathered taps.reverse s (fun x' y' => (old x' y' ch : Int) - channel (palRead s.pal (pixelIndex t x' y')) ch)
            x y (srcRead s.src (pixelAddress s x y ch)).toNat

/-- The frame of a successful QNONE, QFS or QATK (rule R101, "State written"). -/
def quantizedFrame (s t : State) : Prop :=
  t = { s with phase := .done, work := t.work, idx := t.idx, workValid := true, idxValid := true }
    ∧ (∀ a, rasterSize s ≤ a → workRead t.work a = workRead s.work a)
    ∧ (∀ a, pixelCount s ≤ a → idxRead t.idx a = idxRead s.idx a)

/-- An encoder command that has a mnemonic of its own, with its depth and source (rule R65). -/
def isEncoder (i : Instr) (bpp : Nat) (p : PixelSource) : Prop :=
  (i = .enc1 p ∧ bpp = 1) ∨ (i = .enc2 p ∧ bpp = 2) ∨ (i = .enc4 p ∧ bpp = 4) ∨ (i = .enc8 p ∧ bpp = 8)
    ∨ (i = .enc24 p ∧ bpp = 24)

/-- The CFG enable bit of a depth is 1 (rule R14). -/
def depthOn (bpp : Nat) (s : State) : Prop :=
  (bpp = 1 ∧ s.cfg.getLsbD 1 = true) ∨ (bpp = 2 ∧ s.cfg.getLsbD 2 = true) ∨ (bpp = 4 ∧ s.cfg.getLsbD 3 = true)
    ∨ (bpp = 8 ∧ s.cfg.getLsbD 4 = true) ∨ (bpp = 24 ∧ s.cfg.getLsbD 5 = true)

/-- Check 5 of rule R121. -/
def sourceReady (p : PixelSource) (s : State) : Prop :=
  (p = .src → s.srcLen.toNat = rasterSize s) ∧ (p = .work → s.workValid = true) ∧ (p = .idx → s.idxValid = true)

/-- The checks of an encoder command all pass (rule R121). -/
def encoderReady (bpp : Nat) (p : PixelSource) (s : State) : Prop :=
  ¬(bpp = 24 ∧ p = .idx) ∧ depthOn bpp s ∧ (bpp < 24 → 1 ≤ s.palLen.toNat ∧ s.palLen.toNat ≤ 2 ^ bpp)
    ∧ legalGeometry s ∧ sourceReady p s

/-- Every index of the IDX plane is below N, as it is in every state that meets `Inv` with IDX_VALID set. -/
def indicesInRange (p : PixelSource) (s : State) : Prop :=
  p = .idx → ∀ a, a < pixelCount s → (idxRead s.idx a).toNat < s.palLen.toNat

/-- STRIDE, OFF, IMG and SIZE (rule R122). -/
def strideOf (s : State) (bpp : Nat) : Nat := (s.width.toNat * bpp + 31) / 32 * 4
def offOf (bpp : Nat) : Nat := if bpp < 24 then 54 + 4 * 2 ^ bpp else 54
def imgOf (s : State) (bpp : Nat) : Nat := strideOf s bpp * s.height.toNat
def fileSize (s : State) (bpp : Nat) : Nat := offOf bpp + imgOf s bpp

/-- A byte of OUT as a number. -/
def outNumber (t : State) (a : Nat) : Nat := (outRead t.out a).toNat

/-- A 16-bit and a 32-bit little-endian field of OUT as numbers (rules R7, R42). -/
def outHalf (t : State) (a : Nat) : Nat := outNumber t a + 256 * outNumber t (a + 1)
def outLong (t : State) (a : Nat) : Nat := outHalf t a + 65536 * outHalf t (a + 2)

/-- `RowOf` (rule R126): CFG.ORIENT is bit 0. -/
def imageRow (s : State) (r : Nat) : Nat := if s.cfg.getLsbD 0 = true then r else s.height.toNat - 1 - r

/-- `IndexOf` (rule R127). -/
def indexAt (p : PixelSource) (s : State) (x y : Nat) : Nat :=
  match p with
  | .src => nearest s.palette (srcColour s x y)
  | .work => nearest s.palette (workColour s x y)
  | .idx => pixelIndex s x y

/-- `RgbOf` (rule R127), for the sources SRC and WORK. -/
def rgbAt (p : PixelSource) (s : State) (x y : Nat) : Colour :=
  match p with
  | .src => srcColour s x y
  | .work => workColour s x y
  | .idx => workColour s x y

/-- The frame of a successful encoder command (rules R129, R134). -/
def encodedFrame (bpp : Nat) (s t : State) : Prop :=
  t = { s with phase := .done, out := t.out, outLen := t.outLen, outValid := true }
    ∧ t.outLen.toNat = fileSize s bpp
    ∧ ∀ a, fileSize s bpp ≤ a → outRead t.out a = outRead s.out a

/-- A host access, as rule R193 speaks of it. -/
def isHostAccess (e : Event) : Prop :=
  (∃ r, e = .regRead r) ∨ (∃ r v, e = .regWrite r v) ∨ (∃ sp a, e = .memRead sp a)

/-- The windows of defined content (rule R47). -/
def windowHolds (sp : Space) (a : Nat) (s : State) : Prop :=
  match sp with
  | .pal => a < min s.palLen.toNat 256
  | .src => a < min s.srcLen.toNat 67108864
  | .work => s.workValid = true ∧ a < rasterSize s
  | .idx => s.idxValid = true ∧ a < pixelCount s
  | .out => s.outValid = true ∧ a < s.outLen.toNat

/-- The stored element as a host read returns it (rules R41, R47). -/
def storedElement (sp : Space) (a : Nat) (s : State) : Reply :=
  match sp with
  | .pal => .word (BitVec.ofNat 32
      ((palRead s.pal a).r.toNat * 65536 + (palRead s.pal a).g.toNat * 256 + (palRead s.pal a).b.toNat))
  | .src => .byte (srcRead s.src a)
  | .work => .byte (workRead s.work a)
  | .idx => .byte (idxRead s.idx a)
  | .out => .byte (outRead s.out a)

/-- The block under its reset input at a level (rule R190): every register of rule R33, every memory unwritten, and what is
not state of the block as in `s`. -/
def resetBlock (level : Bool) (s : State) : State :=
  { State.reset with resetAsserted := level, agenda := s.agenda, replies := s.replies, freeCount := s.freeCount }

/-- The geometry checks, the size check and the palette check as one outcome (rule R170). -/
def outcomeIs (i : Instr) (s : State) (p : Phase) : Prop := ∃ t, exec i s = .next t ∧ t.phase = p

end Sys2Proof.Claims

open Sys2Proof Sys2Proof.Machine Sys2Proof.Claims

/-! ### Command words -/

/-- A command's word decodes to the command, with every operand (rules R60 to R65, R68). -/
def Obligations.DecodeOfEncode : Prop :=
  ∀ i : Instr, i.wf = true → decode (encode i) = .ok i

/-- A legal word is the word of the command it decodes to, and that command is well-formed: no two words share a meaning. -/
def Obligations.EncodeOfDecode : Prop :=
  ∀ (w : Word) (i : Instr), decode w = .ok i → encode i = w ∧ i.wf = true

/-- Rule R66: exactly the listed words are illegal; CMD accepts one like any other word, and it completes with
`IllegalCommand` and nothing else. -/
def Obligations.IllegalWordsAreExactlyThoseListed : Prop :=
  ∀ w : Word,
    ((∃ e, decode w = .error e) ↔ illegalWord w)
    ∧ (illegalWord w → ∀ (s : State) (es : List Event), s.resetAsserted = false →
        (s.isBusy = false → s.agenda = .regWrite 0 w :: es → step s = .next { s with agenda := es, phase := .busy w })
        ∧ (s.phase = .busy w → s.agenda = .completion :: es →
            step s = .next { s with agenda := es, phase := .error .illegalCommand }))

/-- Words of rules R63 and R65 and of V-W, read by the decoder. -/
def Obligations.SampleWordsDecode : Prop :=
  decode 0x00000201 = .ok (.palgray 2) ∧ decode 0x00010001 = .ok (.palgray 256)
    ∧ decode 0x00000002 = .ok .qnone ∧ decode 0x00000012 = .ok .qfs
    ∧ decode 0x00000022 = .ok .qatk ∧ decode 0x00000032 = .ok .qpass
    ∧ decode 0x00000113 = .ok (.enc1 .work) ∧ decode 0x00000223 = .ok (.enc2 .idx)
    ∧ decode 0x00000403 = .ok (.enc4 .src) ∧ decode 0x00000823 = .ok (.enc8 .idx)
    ∧ decode 0x00001813 = .ok (.enc24 .work) ∧ decode 0xFFFFFF13 = .ok (.enc 16777215 .work)
    ∧ decode 0x00001823 = .error .indexedTruecolour ∧ decode 0x00001033 = .error .encoderSource

/-! ### Steps -/

/-- A running command word that decodes to `i` completes as `exec i`: at its completion event, or when no event is left
(rule R70). That the time of completion is an event of the agenda is the model's choice (log entry 2). -/
def Obligations.StepRunsTheDecodedCommand : Prop :=
  ∀ (s : State) (w : Word) (i : Instr), s.resetAsserted = false → s.phase = .busy w → decode w = .ok i →
    (∀ es, s.agenda = .completion :: es → step s = exec i { s with agenda := es })
    ∧ (s.agenda = [] → step s = exec i s)

/-- The step after `withFetchWord` runs the instruction the decoder reads from the same word. `withFetchWord` is the model's
own (log entry 1). -/
def Obligations.FetchWordRunsNext : Prop :=
  ∀ (s : State) (nbits w : Nat) (i : Instr), decodeTableWord nbits w = some i →
    step (s.withFetchWord nbits w) = exec i { s with
      phase := .busy (BitVec.ofNat 32 (w % 2 ^ nbits)), resetAsserted := false }

/-- Every state has a next state: no event and no command stops the machine (rules R66, R70). That a host access made while
BUSY has a step too is the model's choice (log entry 17). -/
def Obligations.EveryStepAnswersANextState : Prop :=
  ∀ s : State, ∃ t, step s = .next t

/-- "a command that has started finishes" (rule R198): once the events to come are over, no command is running.
The agenda is the model's own (log entry 2). -/
def Obligations.StartedCommandFinishes : Prop :=
  ∀ s : State, ∃ t, Host.Core.run Sys2Proof.core (s.agenda.length + 1) s = .next t ∧ t.isBusy = false

/-- Rule R193: while BUSY a host write does nothing, and a host read changes only what the host has read; a STATUS read
gives STATE = 1. What a read returns is a free value (log entries 3 to 5), so the statement gives it none. -/
def Obligations.BusyDropsHostAccesses : Prop :=
  ∀ (s : State) (e : Event) (es : List Event), s.resetAsserted = false → s.isBusy = true → s.agenda = e :: es →
    ((∃ r v, e = .regWrite r v) → step s = .next { s with agenda := es })
    ∧ ((∃ r, e = .regRead r) ∨ (∃ sp a, e = .memRead sp a) → ∃ t x, step s = .next t
        ∧ t = { s with agenda := es, replies := x :: s.replies, freeCount := s.freeCount + 1 })
    ∧ (e = .regRead 1 → ∃ t v, step s = .next t ∧ t.replies = .word v :: s.replies ∧ v.toNat % 4 = 1)

/-- Rule R193: "the running command is not disturbed and completes as if the accesses had not happened". What the host has
read and the free-value counter are the model's own (log entry 3). -/
def Obligations.RunningCommandIsNotDisturbed : Prop :=
  ∀ (s : State) (es : List Event), s.resetAsserted = false → s.isBusy = true → (∀ e ∈ es, isHostAccess e) →
    ∃ t u, Host.Core.run Sys2Proof.core (es.length + 1) { s with agenda := es ++ [.completion] } = .next t
      ∧ step { s with agenda := [.completion] } = .next u
      ∧ t = { u with replies := t.replies, freeCount := t.freeCount }

/-! ### Registers and host accesses -/

/-- A register read of a block that is not BUSY returns the value of the register map and changes nothing of the block. -/
def Obligations.RegisterReadsFollowTheMap : Prop :=
  ∀ (s : State) (r : Nat) (es : List Event), s.resetAsserted = false → s.isBusy = false → s.agenda = .regRead r :: es →
    ∃ v : Word, v.toNat = registerNumber s r
      ∧ step s = .next { s with agenda := es, replies := .word v :: s.replies }

/-- Rule R12: a CMD write starts a command unless BUSY; CMD reads 0. -/
def Obligations.CommandPortAcceptsUnlessBusy : Prop :=
  ∀ (s : State) (es : List Event), s.resetAsserted = false →
    (∀ w, s.agenda = .regWrite 0 w :: es →
      (s.isBusy = false → step s = .next { s with agenda := es, phase := .busy w })
      ∧ (s.isBusy = true → step s = .next { s with agenda := es }))
    ∧ (s.agenda = .regRead 0 :: es → s.isBusy = false →
        step s = .next { s with agenda := es, replies := .word 0 :: s.replies })

/-- Writes to CFG, WIDTH, HEIGHT and CHANNELS (rules R14 to R17), with the flags they clear and nothing else. -/
def Obligations.ConfigurationWrites : Prop :=
  ∀ (s : State) (v : Word) (es : List Event), s.resetAsserted = false → s.isBusy = false →
    (s.agenda = .regWrite 2 v :: es → ∃ t, step s = .next t ∧ t.cfg.toNat = v.toNat % 64
      ∧ t = { s with agenda := es, cfg := t.cfg })
    ∧ (s.agenda = .regWrite 3 v :: es →
        step s = .next { s with agenda := es, width := v, workValid := false, idxValid := false })
    ∧ (s.agenda = .regWrite 4 v :: es →
        step s = .next { s with agenda := es, height := v, workValid := false, idxValid := false })
    ∧ (s.agenda = .regWrite 5 v :: es →
        step s = .next { s with agenda := es, channels := v, workValid := false, idxValid := false })

/-- Rule R18: a SRC_DATA write appends the low byte, counts with saturation, and changes no flag; a read gives 0. -/
def Obligations.SourcePushAppends : Prop :=
  ∀ (s : State) (v : Word) (es : List Event), s.resetAsserted = false → s.isBusy = false →
    (s.agenda = .regWrite 6 v :: es →
      ∃ t, step s = .next t ∧ t = { s with agenda := es, src := t.src, srcLen := t.srcLen }
        ∧ t.srcLen.toNat = min (s.srcLen.toNat + 1) (2 ^ 32 - 1)
        ∧ (s.srcLen.toNat < 67108864 → (srcRead t.src s.srcLen.toNat).toNat = v.toNat % 256
            ∧ ∀ a, a ≠ s.srcLen.toNat → srcRead t.src a = srcRead s.src a)
        ∧ (67108864 ≤ s.srcLen.toNat → t.src = s.src))
    ∧ (s.agenda = .regRead 6 :: es → step s = .next { s with agenda := es, replies := .word 0 :: s.replies })

/-- Rule R20: a PAL_DATA write appends the colour `0x..RRGGBB`, counts with saturation and clears IDX_VALID; a read
gives 0. -/
def Obligations.PalettePushAppends : Prop :=
  ∀ (s : State) (v : Word) (es : List Event), s.resetAsserted = false → s.isBusy = false →
    (s.agenda = .regWrite 8 v :: es →
      ∃ t, step s = .next t ∧ t = { s with agenda := es, pal := t.pal, palLen := t.palLen, idxValid := false }
        ∧ t.palLen.toNat = min (s.palLen.toNat + 1) (2 ^ 32 - 1)
        ∧ (s.palLen.toNat < 256 →
            (palRead t.pal s.palLen.toNat).r.toNat = v.toNat / 65536 % 256
            ∧ (palRead t.pal s.palLen.toNat).g.toNat = v.toNat / 256 % 256
            ∧ (palRead t.pal s.palLen.toNat).b.toNat = v.toNat % 256
            ∧ ∀ i, i ≠ s.palLen.toNat → palRead t.pal i = palRead s.pal i)
        ∧ (256 ≤ s.palLen.toNat → t.pal = s.pal))
    ∧ (s.agenda = .regRead 8 :: es → step s = .next { s with agenda := es, replies := .word 0 :: s.replies })

/-- A write of any value to SRC_LEN or PAL_LEN clears it (rules R19, R21); no stored element is erased. -/
def Obligations.LengthWritesClear : Prop :=
  ∀ (s : State) (v : Word) (es : List Event), s.resetAsserted = false → s.isBusy = false →
    (s.agenda = .regWrite 7 v :: es → step s = .next { s with agenda := es, srcLen := 0 })
    ∧ (s.agenda = .regWrite 9 v :: es → step s = .next { s with agenda := es, palLen := 0, idxValid := false })

/-- Rule R23, and the two read-only registers of rules R13 and R22: their writes are ignored. -/
def Obligations.ReservedRegistersDoNothing : Prop :=
  ∀ (s : State) (r : Nat) (es : List Event), s.resetAsserted = false →
    (11 ≤ r ∨ r = 1 ∨ r = 10 → ∀ v, s.agenda = .regWrite r v :: es → step s = .next { s with agenda := es })
    ∧ (11 ≤ r → s.isBusy = false → s.agenda = .regRead r :: es →
        step s = .next { s with agenda := es, replies := .word 0 :: s.replies })

/-- A host read inside the window of its space, not BUSY, returns the stored element; outside it changes nothing of the
block (rules R47, R48). What it returns there is a free value (log entry 4), so the statement gives it none. -/
def Obligations.MemoryReadsFollowTheWindows : Prop :=
  ∀ (s : State) (sp : Space) (a : Nat) (es : List Event), s.resetAsserted = false →
    s.agenda = .memRead sp a :: es →
    (s.isBusy = false → windowHolds sp a s →
      step s = .next { s with agenda := es, replies := storedElement sp a s :: s.replies })
    ∧ (s.isBusy = true ∨ ¬ windowHolds sp a s →
      ∃ x, step s = .next { s with agenda := es, replies := x :: s.replies, freeCount := s.freeCount + 1 })

/-- A host read outside every window reveals nothing of the memories: two blocks that differ only in the contents of the
five memories give the host the same replies (rule R48, U4). That the free value does not depend on the memories is the
model's choice (log entry 4). -/
def Obligations.OutsideReadsRevealNothing : Prop :=
  ∀ (s : State) (pal : Memory Colour) (src work idx out : Memory Byte) (sp : Space) (a : Nat) (es : List Event),
    s.agenda = .memRead sp a :: es → s.isBusy = true ∨ ¬ windowHolds sp a s →
    ∃ t u, step s = .next t
      ∧ step { s with pal := pal, src := src, work := work, idx := idx, out := out } = .next u
      ∧ t.replies = u.replies

/-! ### Validity flags -/

/-- Rule R29, row by row. -/
def Obligations.ValidityFlagsFollowTheTable : Prop :=
  (∀ (i : Instr) (s t : State), exec i s = .next t →
    (t.phase = .done → (∃ n, i = .palgray n) →
      t.workValid = s.workValid ∧ t.idxValid = false ∧ t.outValid = s.outValid)
    ∧ (t.phase = .done → isDiffuser i → t.workValid = true ∧ t.idxValid = true ∧ t.outValid = s.outValid)
    ∧ (t.phase = .done → i = .qpass → t.workValid = true ∧ t.idxValid = false ∧ t.outValid = s.outValid)
    ∧ (t.phase = .done → (∃ bpp p, isEncoder i bpp p) →
        t.workValid = s.workValid ∧ t.idxValid = s.idxValid ∧ t.outValid = true)
    ∧ (t.phase ≠ .done → t.workValid = s.workValid ∧ t.idxValid = s.idxValid ∧ t.outValid = s.outValid))
  ∧ (∀ (e : Event) (es : List Event) (s t : State), s.agenda = e :: es → step s = .next t →
    (e = .assertReset ∨ s.resetAsserted = true → t.workValid = false ∧ t.idxValid = false ∧ t.outValid = false)
    ∧ (s.resetAsserted = false →
      (∀ r v, e = .regWrite r v → s.isBusy = false →
        (r = 3 ∨ r = 4 ∨ r = 5 → t.workValid = false ∧ t.idxValid = false ∧ t.outValid = s.outValid)
        ∧ (r = 8 ∨ r = 9 → t.workValid = s.workValid ∧ t.idxValid = false ∧ t.outValid = s.outValid)
        ∧ (r ≠ 3 ∧ r ≠ 4 ∧ r ≠ 5 ∧ r ≠ 8 ∧ r ≠ 9 →
            t.workValid = s.workValid ∧ t.idxValid = s.idxValid ∧ t.outValid = s.outValid))
      ∧ (isHostAccess e → s.isBusy = true ∨ (¬ ∃ r v, e = .regWrite r v) →
          t.workValid = s.workValid ∧ t.idxValid = s.idxValid ∧ t.outValid = s.outValid)
      ∧ (e = .completion → s.isBusy = false ∨ (∃ w x, s.phase = .busy w ∧ decode w = .error x) →
          t.workValid = s.workValid ∧ t.idxValid = s.idxValid ∧ t.outValid = s.outValid)
      ∧ (e = .releaseReset → t.workValid = s.workValid ∧ t.idxValid = s.idxValid ∧ t.outValid = s.outValid)))

/-! ### Reset -/

/-- Rule R33: the state after reset, by `State.reset`, by asserting the reset input in any state, and by any step made while
it is asserted, its release among them; every window is empty. -/
def Obligations.ResetValues : Prop :=
  ∀ t : State, t = State.reset ∨ (∃ (s : State) (es : List Event), s.agenda = .assertReset :: es ∧ step s = .next t)
      ∨ (∃ s : State, s.resetAsserted = true ∧ step s = .next t) →
    t.phase = .idle ∧ statusNumber t = 0 ∧ t.cfg.toNat = 0x3E ∧ t.width.toNat = 0 ∧ t.height.toNat = 0
      ∧ t.channels.toNat = 0 ∧ t.srcLen.toNat = 0 ∧ t.palLen.toNat = 0 ∧ t.outLen.toNat = 0
      ∧ ∀ sp a, ¬ windowHolds sp a t

/-- "Reset is the only event that returns STATE to IDLE" (rule R190), and a command being executed is abandoned by it: no
memory or register of the state before reaches the state after. That the memories are unlisted after it, where rule R33
leaves their contents unspecified, is the model's choice (log entry 7). -/
def Obligations.OnlyResetReturnsToIdle : Prop :=
  (∀ s t : State, step s = .next t → t.phase = .idle →
      s.phase = .idle ∨ s.resetAsserted = true ∨ ∃ es, s.agenda = .assertReset :: es)
  ∧ ∀ (s : State) (es : List Event), s.agenda = .assertReset :: es →
      step s = .next (resetBlock true { s with agenda := es })

/-- "While it is asserted, and at the moment it is released, all architectural state takes the values of" rule R33 (rule
R190): a write, a CMD write too, a completion and a further assertion change nothing, a register read returns the reset
value, a memory read is outside its window, and the release leaves the reset state. That an access made then has a step, and
that a register read answers with the value the register has then, are the model's reading (log entry 22). -/
def Obligations.AssertedResetHoldsTheState : Prop :=
  ∀ (s : State) (es : List Event), s.resetAsserted = true →
    (s.agenda = [] → step s = .next (resetBlock true s))
    ∧ (∀ e, s.agenda = e :: es → (∃ r v, e = .regWrite r v) ∨ e = .completion ∨ e = .assertReset →
        step s = .next (resetBlock true { s with agenda := es }))
    ∧ (∀ r, s.agenda = .regRead r :: es → ∃ v : Word, v.toNat = registerNumber State.reset r
        ∧ step s = .next (resetBlock true { s with agenda := es, replies := .word v :: s.replies }))
    ∧ (∀ sp a, s.agenda = .memRead sp a :: es → ∃ x,
        step s = .next (resetBlock true
          { s with agenda := es, replies := x :: s.replies, freeCount := s.freeCount + 1 }))
    ∧ (s.agenda = .releaseReset :: es → step s = .next (resetBlock false { s with agenda := es }))

/-- Rule R191, which the spec derives from rules R33 and R170: nothing runs after reset until the host writes CMD; PALGRAY
works at once, and every other command fails with the error the rule names for it, changing nothing else. The first clause
is the model's choice (log entries 1 and 2): `State.reset` has the empty agenda, and with it steps to itself. The second is
the rule's sentence for every agenda: a step that makes a block BUSY is a CMD write. -/
def Obligations.CommandsRightAfterReset : Prop :=
  step State.reset = .next State.reset
  ∧ (∀ s t : State, s.isBusy = false → step s = .next t → t.isBusy = true → ∃ w es, s.agenda = .regWrite 0 w :: es)
  ∧ (∀ i, isDiffuser i ∨ i = .qpass → exec i State.reset = .next { State.reset with phase := .error .parameterOutOfRange })
  ∧ (∀ i bpp p, isEncoder i bpp p → bpp < 24 →
      exec i State.reset = .next { State.reset with phase := .error .paletteSizeMismatch })
  ∧ (∀ p, p ≠ .idx → exec (.enc24 p) State.reset = .next { State.reset with phase := .error .parameterOutOfRange })
  ∧ (∀ bpp p, Instr.wf (.enc bpp p) = true →
      exec (.enc bpp p) State.reset = .next { State.reset with phase := .error .unsupportedBitDepth })
  ∧ (∀ n : BitVec 24, 2 ≤ n.toNat → n.toNat ≤ 256 → outcomeIs (.palgray n) State.reset .done)

/-! ### Errors -/

/-- Rule R171: a failing command changes STATE to ERROR and ERR to the error's code, and nothing else. -/
def Obligations.ErrorEntryChangesStatusOnly : Prop :=
  ∀ (i : Instr) (s t : State) (e : CmdError), exec i s = .next t → t.phase = .error e →
    t = { s with phase := .error e }
    ∧ (statusWord t).toNat % 4 = 3 ∧ (statusWord t).toNat / 16 % 16 = errorNumber e

/-- Rule R170: each command reports the first failing check of its own list. -/
def Obligations.FirstFailingCheckIsReported : Prop :=
  ∀ s : State,
    (∀ w, illegalWord w → ∃ t, completeCommand w s = .next t ∧ t.phase = .error .illegalCommand)
    ∧ (∀ n : BitVec 24, ¬ (2 ≤ n.toNat ∧ n.toNat ≤ 256) → outcomeIs (.palgray n) s (.error .invalidPaletteSize))
    ∧ (∀ i, isDiffuser i →
        (¬ (legalGeometry s ∧ s.palLen.toNat ≤ 256) → outcomeIs i s (.error .parameterOutOfRange))
        ∧ (legalGeometry s ∧ s.palLen.toNat ≤ 256 → s.srcLen.toNat ≠ rasterSize s →
            outcomeIs i s (.error .invalidRasterSize))
        ∧ (legalGeometry s → s.srcLen.toNat = rasterSize s → s.palLen.toNat = 0 →
            outcomeIs i s (.error .invalidPalette)))
    ∧ (¬ legalGeometry s → outcomeIs .qpass s (.error .parameterOutOfRange))
    ∧ (legalGeometry s → s.srcLen.toNat ≠ rasterSize s → outcomeIs .qpass s (.error .invalidRasterSize))
    ∧ (∀ i bpp p, isEncoder i bpp p →
        (bpp = 24 ∧ p = .idx → outcomeIs i s (.error .illegalCommand))
        ∧ (¬ (bpp = 24 ∧ p = .idx) →
          (¬ depthOn bpp s → outcomeIs i s (.error .unsupportedBitDepth))
          ∧ (depthOn bpp s → bpp < 24 → ¬ (1 ≤ s.palLen.toNat ∧ s.palLen.toNat ≤ 2 ^ bpp) →
              outcomeIs i s (.error .paletteSizeMismatch))
          ∧ (depthOn bpp s → (bpp < 24 → 1 ≤ s.palLen.toNat ∧ s.palLen.toNat ≤ 2 ^ bpp) →
              (¬ legalGeometry s → outcomeIs i s (.error .parameterOutOfRange))
              ∧ (legalGeometry s → ¬ sourceReady p s →
                  outcomeIs i s (.error (if p = .src then .invalidRasterSize else .sourceNotReady))))))
    ∧ (∀ bpp p, Instr.wf (.enc bpp p) = true → outcomeIs (.enc bpp p) s (.error .unsupportedBitDepth))

/-- "A host that rewrites nothing and reissues the same word gets the same error" (rule R172), and the failed command left
no trace but STATUS: every later command does what it would have done without it. -/
def Obligations.FailedCommandLeavesNoTrace : Prop :=
  ∀ (i j : Instr) (s t : State) (e : CmdError), exec i s = .next t → t.phase = .error e →
    exec i t = .next t ∧ exec j t = exec j s

/-! ### Palette builder -/

/-- Rules R80 and R81: PALGRAY writes the ramp, PAL_LEN and IDX_VALID and nothing else, or fails for n < 2 and n > 256. -/
def Obligations.PalgrayBuildsTheRamp : Prop :=
  ∀ (n : BitVec 24) (s : State),
    (2 ≤ n.toNat → n.toNat ≤ 256 →
      ∃ t, exec (.palgray n) s = .next t
        ∧ t = { s with phase := .done, pal := t.pal, palLen := t.palLen, idxValid := false }
        ∧ t.palLen.toNat = n.toNat
        ∧ (∀ i, i < n.toNat →
            (palRead t.pal i).r.toNat = (510 * i + (n.toNat - 1)) / (2 * (n.toNat - 1))
            ∧ (palRead t.pal i).g.toNat = (510 * i + (n.toNat - 1)) / (2 * (n.toNat - 1))
            ∧ (palRead t.pal i).b.toNat = (510 * i + (n.toNat - 1)) / (2 * (n.toNat - 1)))
        ∧ (∀ i, n.toNat ≤ i → palRead t.pal i = palRead s.pal i))
    ∧ (¬ (2 ≤ n.toNat ∧ n.toNat ≤ 256) →
        exec (.palgray n) s = .next { s with phase := .error .invalidPaletteSize })

/-- The ramp runs from black to white and is strictly increasing (rule R80). -/
def Obligations.GrayRampRisesFromBlackToWhite : Prop :=
  ∀ n, 2 ≤ n → n ≤ 256 → grayStop 0 n = 0 ∧ grayStop (n - 1) n = 255
    ∧ ∀ i j, i < j → j < n → grayStop i n < grayStop j n

/-- Rule R82: PAL and PAL_LEN are changed only by PAL_DATA and PAL_LEN writes, by a successful PALGRAY and by reset, never
by a quantizer or encoder command. -/
def Obligations.PaletteChangesOnlyByItsOwnEvents : Prop :=
  ∀ s t : State, step s = .next t → t.pal = s.pal ∧ t.palLen = s.palLen
    ∨ (∃ v es, s.agenda = .regWrite 8 v :: es) ∨ (∃ v es, s.agenda = .regWrite 9 v :: es)
    ∨ (∃ es, s.agenda = .assertReset :: es) ∨ s.resetAsserted = true
    ∨ ∃ w n, s.phase = .busy w ∧ decode w = .ok (.palgray n) ∧ t.phase = .done

/-! ### Nearest colour and diffusion -/

/-- Rules R92 and R93: `Nearest` gives the lowest index of minimal squared distance. The last two clauses are the consequences
rule R93 derives from rule R92: a later duplicate is never given, and the nearest entry to a palette colour holds that
colour. -/
def Obligations.NearestIsTheFirstMinimum : Prop :=
  ∀ (pal : List Colour) (c : Colour), pal ≠ [] →
    ∃ best, pal[nearest pal c]? = some best
      ∧ (∀ (j : Nat) (q : Colour), pal[j]? = some q → colourDistance c best ≤ colourDistance c q)
      ∧ (∀ (j : Nat) (q : Colour), j < nearest pal c → pal[j]? = some q → colourDistance c best < colourDistance c q)
      ∧ 0 ≤ colourDistance c best ∧ colourDistance c best ≤ 195075
      ∧ (∀ j k : Nat, j < k → pal[j]? = pal[k]? → nearest pal c ≠ k)
      ∧ (c ∈ pal → best = c)

/-- Rule R98: the stored value is the floor of the exact sum, clamped to 0..255, and the ranges of the sum. The instance of
`DIFFUSE_ROUND` is the floor (log entry 9). -/
def Obligations.DiffuseIsTheClampedFloor : Prop :=
  ∀ (v : Nat) (e : Int) (num den : Nat), v ≤ 255 → -255 ≤ e → e ≤ 255 →
    (den = 16 ∧ num ≤ 7) ∨ (den = 32 ∧ num = 3) →
    diffuse v e num den ≤ 255
    ∧ ((den : Int) * v + num * e < 0 → diffuse v e num den = 0)
    ∧ (255 * (den : Int) ≤ (den : Int) * v + num * e → diffuse v e num den = 255)
    ∧ (0 ≤ (den : Int) * v + num * e → (den : Int) * v + num * e < 256 * (den : Int) →
        (den : Int) * diffuse v e num den ≤ (den : Int) * v + num * e
        ∧ (den : Int) * v + num * e < (den : Int) * (diffuse v e num den + 1))
    ∧ (den = 16 → -1785 ≤ (den : Int) * v + num * e ∧ (den : Int) * v + num * e ≤ 5865)
    ∧ (den = 32 → -765 ≤ (den : Int) * v + num * e ∧ (den : Int) * v + num * e ≤ 8925)

/-- Rule R97: the offsets and weights of the two kernels, and which command uses which (rules R101 to R103). The
Floyd-Steinberg weights sum to 1 and the Atkinson weights to 18/32. That every offset points to a pixel later in the scan is
the sentence rule R94 derives from rule R97. -/
def Obligations.KernelTables : Prop :=
  floydSteinbergKernel.map (fun t => (t.dx, t.dy, t.num, t.den))
      = [(1, 0, 7, 16), (-1, 1, 3, 16), (0, 1, 5, 16), (1, 1, 1, 16)]
    ∧ atkinsonKernel.map (fun t => (t.dx, t.dy, t.num, t.den))
      = [(1, 0, 3, 32), (2, 0, 3, 32), (-1, 1, 3, 32), (0, 1, 3, 32), (1, 1, 3, 32), (0, 2, 3, 32)]
    ∧ (floydSteinbergKernel.map Tap.num).sum = 16 ∧ (atkinsonKernel.map Tap.num).sum = 18
    ∧ (floydSteinbergKernel ++ atkinsonKernel).all (fun t => decide (0 < t.dy) || (t.dy == 0 && decide (0 < t.dx))) = true
    ∧ ∀ s : State,
        exec .qnone s = runCommand (quantizerChecks s) (quantizeEffect rounding [] s) s
        ∧ exec .qfs s = runCommand (quantizerChecks s) (quantizeEffect rounding floydSteinbergKernel s) s
        ∧ exec .qatk s = runCommand (quantizerChecks s) (quantizeEffect rounding atkinsonKernel s) s

/-- Rule R108, which the spec derives from rules R97 and R98: the six Atkinson neighbours of one pixel gain 18/32 of its
error in all when 32 divides the error and no neighbour clamps, and for every other error fall short of that by less than
6. -/
def Obligations.AtkinsonHandsOnNineSixteenths : Prop :=
  atkinsonKernel.length = 6 ∧ (∀ t ∈ atkinsonKernel, t.num = 3 ∧ t.den = 32) ∧ (atkinsonKernel.map Tap.num).sum = 18
  ∧ ∀ (e : Int) (vs : List Nat), vs.length = 6 →
      (∀ v ∈ vs, 0 ≤ 32 * (v : Int) + 3 * e ∧ 32 * (v : Int) + 3 * e < 32 * 256) →
      (32 ∣ e → (∀ v ∈ vs, 32 * ((diffuse v e 3 32 : Int) - v) = 3 * e)
          ∧ 32 * (vs.map (fun v => (diffuse v e 3 32 : Int) - v)).sum = 18 * e)
      ∧ 32 * (vs.map (fun v => (diffuse v e 3 32 : Int) - v)).sum ≤ 18 * e
      ∧ 18 * e < 32 * (vs.map (fun v => (diffuse v e 3 32 : Int) - v)).sum + 32 * 6

/-! ### Quantizer -/

/-- Rule R101: QNONE gives every pixel the nearest palette colour to its SRC colour and that colour's index. -/
def Obligations.QnoneTakesTheNearestColour : Prop :=
  ∀ s : State,
    (quantizerReady s → ∃ t, exec .qnone s = .next t ∧ quantizedFrame s t
      ∧ ∀ x y, x < s.width.toNat → y < s.height.toNat →
          pixelIndex t x y = nearest s.palette (srcColour s x y)
          ∧ workColour t x y = palRead s.pal (nearest s.palette (srcColour s x y))
          ∧ (s.channels.toNat = 4 →
              workRead t.work (pixelAddress s x y 3) = srcRead s.src (pixelAddress s x y 3)))
    ∧ (¬ quantizerReady s → ∃ e, exec .qnone s = .next { s with phase := .error e }
        ∧ (e = .parameterOutOfRange ∨ e = .invalidRasterSize ∨ e = .invalidPalette))

/-- Rule R102: QFS diffuses errors by the four Floyd-Steinberg rows. -/
def Obligations.QfsDiffusesByFloydSteinberg : Prop :=
  ∀ s : State, quantizerReady s →
    ∃ t, exec .qfs s = .next t ∧ quantizedFrame s t ∧ diffusedBy floydSteinbergKernel s t

/-- Rule R103: QATK diffuses errors by the six Atkinson rows. -/
def Obligations.QatkDiffusesByAtkinson : Prop :=
  ∀ s : State, quantizerReady s →
    ∃ t, exec .qatk s = .next t ∧ quantizedFrame s t ∧ diffusedBy atkinsonKernel s t

/-- Rule R105, which the spec derives from rules R95, R100 and R101: after QNONE, QFS or QATK every pixel of WORK holds
the palette colour of its index, every index is below N, alpha is the SRC alpha, and nothing outside the windows is
written. -/
def Obligations.QuantizedRasterMatchesItsIndices : Prop :=
  ∀ (i : Instr) (s : State), isDiffuser i → quantizerReady s →
    ∃ t, exec i s = .next t ∧ quantizedFrame s t
      ∧ ∀ x y, x < s.width.toNat → y < s.height.toNat →
          pixelIndex t x y < s.palLen.toNat
          ∧ workColour t x y = palRead s.pal (pixelIndex t x y)
          ∧ (s.channels.toNat = 4 →
              workRead t.work (pixelAddress s x y 3) = srcRead s.src (pixelAddress s x y 3))

/-- Rule R104: QPASS copies SRC to WORK; IDX memory is not written and the palette is not read. -/
def Obligations.QpassCopiesTheSource : Prop :=
  ∀ s : State,
    (legalGeometry s → s.srcLen.toNat = rasterSize s →
      ∃ t, exec .qpass s = .next t
        ∧ t = { s with phase := .done, work := t.work, workValid := true, idxValid := false }
        ∧ (∀ a, a < rasterSize s → workRead t.work a = srcRead s.src a)
        ∧ (∀ a, rasterSize s ≤ a → workRead t.work a = workRead s.work a))
    ∧ (¬ (legalGeometry s ∧ s.srcLen.toNat = rasterSize s) → ∃ e, exec .qpass s = .next { s with phase := .error e }
        ∧ (e = .parameterOutOfRange ∨ e = .invalidRasterSize))

/-- Rule R106, which the spec derives from rules R92, R93 and R95: QNONE on the WORK bytes of a successful QNONE gives the
same WORK and the same IDX. -/
def Obligations.QnoneIsIdempotent : Prop :=
  ∀ s t r : State, quantizerReady s → exec .qnone s = .next t → r = { t with src := r.src } →
    (∀ a, a < rasterSize s → srcRead r.src a = workRead t.work a) →
    ∃ u, exec .qnone r = .next u
      ∧ (∀ a, a < rasterSize s → workRead u.work a = workRead t.work a)
      ∧ (∀ a, a < pixelCount s → idxRead u.idx a = idxRead t.idx a)

/-- Rule R107, which the spec derives from rule R98: if every source pixel is a palette colour, QFS and QATK give the
bytes of QNONE, and so does any kernel under any `DIFFUSE_ROUND` that leaves a value alone when there is no error. -/
def Obligations.ZeroErrorGivesTheBytesOfQnone : Prop :=
  ∀ s : State, quantizerReady s →
    (∀ x y, x < s.width.toNat → y < s.height.toNat → ∃ k, k < s.palLen.toNat ∧ palRead s.pal k = srcColour s x y) →
    (∃ t u v, exec .qnone s = .next t ∧ exec .qfs s = .next u ∧ exec .qatk s = .next v
      ∧ ∀ a, workRead u.work a = workRead t.work a ∧ workRead v.work a = workRead t.work a
          ∧ idxRead u.idx a = idxRead t.idx a ∧ idxRead v.idx a = idxRead t.idx a)
    ∧ ∀ (R : Config.Rounding) (kernel : List Tap),
        (∀ v num den, v ≤ 255 → 0 < den → R.diffuse v 0 num den = v) → (∀ tap ∈ kernel, 0 < tap.den) →
        ∀ a, workRead (quantizePass R kernel s).work a = workRead (quantizePass R [] s).work a
          ∧ idxRead (quantizePass R kernel s).idx a = idxRead (quantizePass R [] s).idx a

/-- Rule R31 for the quantizer: its result is a function of W, H, C, the SRC bytes and the palette; what WORK, IDX and every
other part of the block held before does not matter. -/
def Obligations.QuantizerReadsOnlyItsInputs : Prop :=
  ∀ (i : Instr) (s s' : State), isDiffuser i → quantizerReady s → quantizerReady s' →
    s.width = s'.width → s.height = s'.height → s.channels = s'.channels → s.palLen = s'.palLen →
    (∀ a, a < rasterSize s → srcRead s.src a = srcRead s'.src a) →
    (∀ k, k < s.palLen.toNat → palRead s.pal k = palRead s'.pal k) →
    ∃ t t', exec i s = .next t ∧ exec i s' = .next t'
      ∧ (∀ a, a < rasterSize s → workRead t.work a = workRead t'.work a)
      ∧ (∀ a, a < pixelCount s → idxRead t.idx a = idxRead t'.idx a)

/-! ### Encoder -/

/-- Rules R123 and R124: the two headers, field by field; with them OUT_LEN (rule R122) and the frame of every encoder
command. -/
def Obligations.EncoderWritesTheHeaders : Prop :=
  ∀ (i : Instr) (bpp : Nat) (p : PixelSource) (s : State), isEncoder i bpp p → encoderReady bpp p s →
    ∃ t, exec i s = .next t ∧ encodedFrame bpp s t
      ∧ outNumber t 0 = 0x42 ∧ outNumber t 1 = 0x4D
      ∧ outLong t 2 = fileSize s bpp ∧ outLong t 6 = 0 ∧ outLong t 10 = offOf bpp
      ∧ outLong t 14 = 40 ∧ outLong t 18 = s.width.toNat
      ∧ outLong t 22 = (if s.cfg.getLsbD 0 = true then 2 ^ 32 - s.height.toNat else s.height.toNat)
      ∧ outHalf t 26 = 1 ∧ outHalf t 28 = bpp ∧ outLong t 30 = 0
      ∧ outLong t 34 = imgOf s bpp ∧ outLong t 38 = 0 ∧ outLong t 42 = 0
      ∧ outLong t 46 = (if bpp < 24 then s.palLen.toNat else 0)
      ∧ outLong t 50 = (if bpp < 24 then s.palLen.toNat else 0)

/-- Rule R125: the colour table has 2^bpp slots of B, G, R, 0, those beyond the palette zero. -/
def Obligations.EncoderWritesTheColourTable : Prop :=
  ∀ (i : Instr) (bpp : Nat) (p : PixelSource) (s : State), isEncoder i bpp p → encoderReady bpp p s → bpp < 24 →
    ∃ t, exec i s = .next t ∧ ∀ k, k < 2 ^ bpp →
      outRead t.out (54 + 4 * k + 3) = 0
      ∧ (k < s.palLen.toNat → outRead t.out (54 + 4 * k) = (palRead s.pal k).b
          ∧ outRead t.out (54 + 4 * k + 1) = (palRead s.pal k).g
          ∧ outRead t.out (54 + 4 * k + 2) = (palRead s.pal k).r)
      ∧ (s.palLen.toNat ≤ k → outRead t.out (54 + 4 * k) = 0 ∧ outRead t.out (54 + 4 * k + 1) = 0
          ∧ outRead t.out (54 + 4 * k + 2) = 0)

/-- Rule R129: pixel x of stored row r is bit 7 - x mod 8 of byte x div 8 of the row; every other bit of the row is 0. -/
def Obligations.Enc1PacksEightPixelsPerByte : Prop :=
  ∀ (p : PixelSource) (s : State), encoderReady 1 p s → indicesInRange p s →
    ∃ t, exec (.enc1 p) s = .next t ∧ encodedFrame 1 s t
      ∧ ∀ r x, r < s.height.toNat → x < 8 * strideOf s 1 →
          outNumber t (offOf 1 + r * strideOf s 1 + x / 8) / 2 ^ (7 - x % 8) % 2
            = if x < s.width.toNat then indexAt p s x (imageRow s r) else 0

/-- Rule R130: pixel x of stored row r is the 2-bit field at bit 6 - 2 (x mod 4) of byte x div 4; the rest is 0. -/
def Obligations.Enc2PacksFourPixelsPerByte : Prop :=
  ∀ (p : PixelSource) (s : State), encoderReady 2 p s → indicesInRange p s →
    ∃ t, exec (.enc2 p) s = .next t ∧ encodedFrame 2 s t
      ∧ ∀ r x, r < s.height.toNat → x < 4 * strideOf s 2 →
          outNumber t (offOf 2 + r * strideOf s 2 + x / 4) / 2 ^ (6 - 2 * (x % 4)) % 4
            = if x < s.width.toNat then indexAt p s x (imageRow s r) else 0

/-- Rule R131: pixel x of stored row r is the nibble at bit 4 - 4 (x mod 2) of byte x div 2; the rest is 0. -/
def Obligations.Enc4PacksTwoPixelsPerByte : Prop :=
  ∀ (p : PixelSource) (s : State), encoderReady 4 p s → indicesInRange p s →
    ∃ t, exec (.enc4 p) s = .next t ∧ encodedFrame 4 s t
      ∧ ∀ r x, r < s.height.toNat → x < 2 * strideOf s 4 →
          outNumber t (offOf 4 + r * strideOf s 4 + x / 2) / 2 ^ (4 - 4 * (x % 2)) % 16
            = if x < s.width.toNat then indexAt p s x (imageRow s r) else 0

/-- Rule R132: byte x of stored row r is the palette index of pixel x; the padding bytes are 0. -/
def Obligations.Enc8StoresOneIndexPerByte : Prop :=
  ∀ (p : PixelSource) (s : State), encoderReady 8 p s → indicesInRange p s →
    ∃ t, exec (.enc8 p) s = .next t ∧ encodedFrame 8 s t
      ∧ ∀ r x, r < s.height.toNat → x < strideOf s 8 →
          outNumber t (offOf 8 + r * strideOf s 8 + x)
            = if x < s.width.toNat then indexAt p s x (imageRow s r) else 0

/-- Rule R133: three bytes B, G, R per pixel; the padding bytes are 0. -/
def Obligations.Enc24StoresBlueGreenRed : Prop :=
  ∀ (p : PixelSource) (s : State), encoderReady 24 p s →
    ∃ t, exec (.enc24 p) s = .next t ∧ encodedFrame 24 s t
      ∧ ∀ r, r < s.height.toNat →
          (∀ x, x < s.width.toNat →
            outRead t.out (54 + r * strideOf s 24 + 3 * x) = (rgbAt p s x (imageRow s r)).b
            ∧ outRead t.out (54 + r * strideOf s 24 + 3 * x + 1) = (rgbAt p s x (imageRow s r)).g
            ∧ outRead t.out (54 + r * strideOf s 24 + 3 * x + 2) = (rgbAt p s x (imageRow s r)).r)
          ∧ ∀ j, 3 * s.width.toNat ≤ j → j < strideOf s 24 → outRead t.out (54 + r * strideOf s 24 + j) = 0

/-- Rule R135: a depth that is none of the five, or one whose enable bit is 0, fails with `UnsupportedBitDepth` and does
nothing else, whatever the other registers hold. -/
def Obligations.UnsupportedDepthIsRefusedFirst : Prop :=
  (∀ (bpp : BitVec 24) (p : PixelSource) (s : State),
      bpp.toNat ≠ 1 → bpp.toNat ≠ 2 → bpp.toNat ≠ 4 → bpp.toNat ≠ 8 → bpp.toNat ≠ 24 →
      exec (.enc bpp p) s = .next { s with phase := .error .unsupportedBitDepth })
  ∧ ∀ (i : Instr) (bpp : Nat) (p : PixelSource) (s : State), isEncoder i bpp p → ¬ (bpp = 24 ∧ p = .idx) →
      ¬ depthOn bpp s → exec i s = .next { s with phase := .error .unsupportedBitDepth }

/-- Rule R127: with WORK and IDX both valid, encoding from WORK and encoding from IDX at an indexed depth do exactly the
same, as the spec derives from rules R93 and R105. The premise `Inv` is the model's invariant (`Safety.lean`), which every
step keeps. -/
def Obligations.EncodingWorkEqualsEncodingIndices : Prop :=
  ∀ s : State, Inv s → s.idxValid = true →
    exec (.enc1 .work) s = exec (.enc1 .idx) s ∧ exec (.enc2 .work) s = exec (.enc2 .idx) s
      ∧ exec (.enc4 .work) s = exec (.enc4 .idx) s ∧ exec (.enc8 .work) s = exec (.enc8 .idx) s

/-- Rule R104, a sentence the spec marks as derived: after QPASS an encoder command with source WORK does exactly what it
does with source SRC. -/
def Obligations.PassThroughEncodesTheSource : Prop :=
  ∀ s t : State, legalGeometry s → s.srcLen.toNat = rasterSize s → exec .qpass s = .next t →
    exec (.enc1 .work) t = exec (.enc1 .src) t ∧ exec (.enc2 .work) t = exec (.enc2 .src) t
      ∧ exec (.enc4 .work) t = exec (.enc4 .src) t ∧ exec (.enc8 .work) t = exec (.enc8 .src) t
      ∧ exec (.enc24 .work) t = exec (.enc24 .src) t

/-- Rule R137, which the spec derives from rules R122 to R133: the file is a function of bpp, psrc, ORIENT, W, H and then
the source raster with C, or the indices, and at an indexed depth the palette; nothing else. -/
def Obligations.FileDependsOnItsInputsOnly : Prop :=
  ∀ (i : Instr) (bpp : Nat) (p : PixelSource) (s s' : State), isEncoder i bpp p →
    encoderReady bpp p s → encoderReady bpp p s' →
    s.cfg.getLsbD 0 = s'.cfg.getLsbD 0 → s.width = s'.width → s.height = s'.height →
    (p ≠ .idx → s.channels = s'.channels ∧ ∀ a, a < rasterSize s → sourceRead p s a = sourceRead p s' a) →
    (p = .idx → ∀ a, a < pixelCount s → idxRead s.idx a = idxRead s'.idx a) →
    (bpp < 24 → s.palLen = s'.palLen ∧ ∀ k, k < s.palLen.toNat → palRead s.pal k = palRead s'.pal k) →
    ∃ t t', exec i s = .next t ∧ exec i s' = .next t' ∧ t.outLen = t'.outLen
      ∧ ∀ a, a < fileSize s bpp → outRead t.out a = outRead t'.out a

/-! ### The whole machine -/

/-- No command writes SRC, SRC_LEN, CFG or the geometry registers, nor what the host has read or is still to do (rules R25,
R105, R134). -/
def Obligations.CommandsNeverWriteTheirParameters : Prop :=
  ∀ (i : Instr) (s t : State), exec i s = .next t →
    t.src = s.src ∧ t.srcLen = s.srcLen ∧ t.cfg = s.cfg ∧ t.width = s.width ∧ t.height = s.height
      ∧ t.channels = s.channels ∧ t.resetAsserted = s.resetAsserted ∧ t.agenda = s.agenda ∧ t.replies = s.replies
      ∧ t.freeCount = s.freeCount

/-- The model's invariant holds after reset. -/
def Obligations.InvariantHoldsAfterReset : Prop := Inv State.reset

/-- Every step keeps the model's invariant: the memories keep their form and capacity; every element of a window of defined
content has been written (rule R47); WORK_VALID means the raster of a quantizer command for the geometry held now, IDX_VALID
the indices of that raster for the palette held now, OUT_VALID the file of an encoder command (rule R13); and the block holds
the values of rule R33 while its reset input is asserted (rule R190). -/
def Obligations.EveryStepKeepsTheInvariant : Prop :=
  ∀ s t : State, Inv s → step s = .next t → Inv t
end

