-- ==== Sys2Proof/Laws/Memory.lean ====
section
/-! SUPPORT. The laws of the memory operations: read after write, block writes, and that every operation keeps the
canonical form. No law but those about the form assumes it. -/

namespace Sys2Proof.Machine

variable {α : Type}

@[simp] theorem Memory.lookup_nil (a : Nat) : Memory.lookup ([] : Memory α) a = none := rfl

theorem Memory.lookup_cons (b : Nat) (v : α) (m : Memory α) (a : Nat) :
    Memory.lookup ((b, v) :: m) a = if b = a then some v else Memory.lookup m a := rfl

/-- Read after write, one element. -/
theorem Memory.lookup_write (m : Memory α) (a : Nat) (v : α) (c : Nat) :
    Memory.lookup (Memory.write m a v) c = if a = c then some v else Memory.lookup m c := by
  induction m with
  | nil => simp [Memory.write, Memory.lookup]
  | cons e m ih =>
    obtain ⟨b, w⟩ := e
    unfold Memory.write
    by_cases h1 : a < b
    · simp [h1, Memory.lookup_cons]
    · by_cases h2 : a = b
      · subst h2
        by_cases h3 : a = c <;> simp [Memory.lookup_cons, h3]
      · by_cases h3 : b = c
        · subst h3; simp [h1, h2, Memory.lookup_cons]
        · simp [h1, h2, h3, Memory.lookup_cons, ih]

theorem Memory.read_write (d : Nat → α) (m : Memory α) (a : Nat) (v : α) (c : Nat) :
    Memory.read d (Memory.write m a v) c = if a = c then v else Memory.read d m c := by
  unfold Memory.read
  rw [Memory.lookup_write]
  split <;> rfl

@[simp] theorem Memory.read_write_same (d : Nat → α) (m : Memory α) (a : Nat) (v : α) :
    Memory.read d (Memory.write m a v) a = v := by simp [Memory.read_write]

theorem Memory.read_write_other (d : Nat → α) (m : Memory α) {a c : Nat} (v : α) (h : a ≠ c) :
    Memory.read d (Memory.write m a v) c = Memory.read d m c := by simp [Memory.read_write, h]

/-! ### Blocks -/

theorem Memory.lookup_append (m n : Memory α) (a : Nat) :
    Memory.lookup (m ++ n) a = (Memory.lookup m a).or (Memory.lookup n a) := by
  induction m with
  | nil => simp
  | cons e m ih =>
    obtain ⟨b, v⟩ := e
    simp only [List.cons_append, Memory.lookup_cons, ih]
    split <;> simp

theorem Memory.lookup_filter (m : Memory α) (p : Nat → Bool) (a : Nat) :
    Memory.lookup (m.filter (fun e => p e.1)) a = if p a then Memory.lookup m a else none := by
  induction m with
  | nil => simp
  | cons e m ih =>
    obtain ⟨b, v⟩ := e
    simp only [List.filter_cons, Memory.lookup_cons]
    by_cases hb : b = a
    · subst hb
      cases hp : p b <;> simp [hp, ih, Memory.lookup_cons]
    · cases hp : p b <;> simp [ih, Memory.lookup_cons, hb]

theorem Memory.lookup_block (a : Nat) (vs : List α) (c : Nat) :
    Memory.lookup (Memory.block a vs) c = if a ≤ c then vs[c - a]? else none := by
  induction vs generalizing a with
  | nil => simp [Memory.block]
  | cons v vs ih =>
    simp only [Memory.block, Memory.lookup_cons, ih]
    by_cases h : a = c
    · subst h; simp
    · simp only [h, if_false]
      by_cases h2 : a ≤ c
      · have h3 : a + 1 ≤ c := by omega
        have h4 : c - a = (c - (a + 1)) + 1 := by omega
        simp [h2, h3, h4]
      · have h3 : ¬ a + 1 ≤ c := by omega
        simp [h2, h3]

/-- A block write: its elements inside the block, the old elements outside it. -/
theorem Memory.lookup_writeBlock (m : Memory α) (a : Nat) (vs : List α) (c : Nat) :
    Memory.lookup (Memory.writeBlock m a vs) c
      = if a ≤ c ∧ c < a + vs.length then vs[c - a]? else Memory.lookup m c := by
  unfold Memory.writeBlock
  rw [Memory.lookup_append, Memory.lookup_append,
    Memory.lookup_filter m (fun b => decide (b < a)),
    Memory.lookup_filter m (fun b => decide (a + vs.length ≤ b)), Memory.lookup_block]
  by_cases h1 : c < a
  · have h2 : ¬ a ≤ c := by omega
    have h3 : ¬ a + vs.length ≤ c := by omega
    simp [h1, h2, h3]
  · have h2 : a ≤ c := by omega
    by_cases h3 : c < a + vs.length
    · have h4 : ¬ a + vs.length ≤ c := by omega
      simp [h1, h2, h3, h4]
    · have h4 : a + vs.length ≤ c := by omega
      have h5 : vs[c - a]? = none := by
        rw [List.getElem?_eq_none_iff]; omega
      simp [h1, h3, h4, h5]

theorem Memory.read_writeBlock_inside (d : Nat → α) (m : Memory α) (a : Nat) (vs : List α) (i : Nat)
    (h : i < vs.length) : Memory.read d (Memory.writeBlock m a vs) (a + i) = vs[i] := by
  unfold Memory.read
  rw [Memory.lookup_writeBlock, if_pos ⟨by omega, by omega⟩]
  simp [h]

theorem Memory.read_writeBlock_zero (d : Nat → α) (m : Memory α) (vs : List α) (i : Nat)
    (h : i < vs.length) : Memory.read d (Memory.writeBlock m 0 vs) i = vs[i] := by
  simpa using Memory.read_writeBlock_inside d m 0 vs i h

theorem Memory.read_writeBlock_outside (d : Nat → α) (m : Memory α) (a : Nat) (vs : List α) (c : Nat)
    (h : c < a ∨ a + vs.length ≤ c) : Memory.read d (Memory.writeBlock m a vs) c = Memory.read d m c := by
  unfold Memory.read
  rw [Memory.lookup_writeBlock, if_neg (by omega)]

theorem Memory.read_of_lookup (d : Nat → α) {m : Memory α} {a : Nat} {v : α} (h : Memory.lookup m a = some v) :
    Memory.read d m a = v := by simp [Memory.read, h]

/-! ### The canonical form -/

theorem Memory.wfFrom_mono {lo hi : Nat} {m : Memory α} (h : Memory.wfFrom hi m = true) (hl : lo ≤ hi) :
    Memory.wfFrom lo m = true := by
  cases m with
  | nil => rfl
  | cons e m =>
    simp only [Memory.wfFrom, Bool.and_eq_true, decide_eq_true_eq] at h ⊢
    exact ⟨by omega, h.2⟩

theorem Memory.wfFrom_write {lo : Nat} {m : Memory α} (a : Nat) (v : α) (h : Memory.wfFrom lo m = true) (ha : lo ≤ a) :
    Memory.wfFrom lo (Memory.write m a v) = true := by
  induction m generalizing lo with
  | nil => simp [Memory.write, Memory.wfFrom, ha]
  | cons e m ih =>
    obtain ⟨b, w⟩ := e
    simp only [Memory.wfFrom, Bool.and_eq_true, decide_eq_true_eq] at h
    unfold Memory.write
    split_ifs with h1 h2
    · simp only [Memory.wfFrom, Bool.and_eq_true, decide_eq_true_eq]
      exact ⟨ha, by omega, h.2⟩
    · subst h2
      simp only [Memory.wfFrom, Bool.and_eq_true, decide_eq_true_eq]
      exact ⟨ha, h.2⟩
    · simp only [Memory.wfFrom, Bool.and_eq_true, decide_eq_true_eq]
      exact ⟨h.1, ih h.2 (by omega)⟩

/-- A write keeps the canonical form. -/
theorem Memory.wf_write {m : Memory α} (a : Nat) (v : α) (h : Memory.wf m = true) :
    Memory.wf (Memory.write m a v) = true := Memory.wfFrom_write a v h (Nat.zero_le a)

theorem Memory.wfFrom_block (a : Nat) (vs : List α) : Memory.wfFrom a (Memory.block a vs) = true := by
  induction vs generalizing a with
  | nil => rfl
  | cons v vs ih => simp [Memory.block, Memory.wfFrom, ih]

theorem Memory.wfFrom_filter {lo : Nat} {m : Memory α} (p : Nat × α → Bool) (h : Memory.wfFrom lo m = true) :
    Memory.wfFrom lo (m.filter p) = true := by
  induction m generalizing lo with
  | nil => rfl
  | cons e m ih =>
    obtain ⟨b, v⟩ := e
    simp only [Memory.wfFrom, Bool.and_eq_true, decide_eq_true_eq] at h
    rw [List.filter_cons]
    split
    · simp only [Memory.wfFrom, Bool.and_eq_true, decide_eq_true_eq]
      exact ⟨h.1, ih h.2⟩
    · exact Memory.wfFrom_mono (ih h.2) (by omega)

theorem Memory.wfFrom_append {lo mid : Nat} {m n : Memory α} (hm : Memory.wfFrom lo m = true)
    (hb : ∀ e ∈ m, e.1 < mid) (hl : lo ≤ mid) (hn : Memory.wfFrom mid n = true) :
    Memory.wfFrom lo (m ++ n) = true := by
  induction m generalizing lo with
  | nil => exact Memory.wfFrom_mono hn hl
  | cons e m ih =>
    obtain ⟨b, v⟩ := e
    simp only [Memory.wfFrom, Bool.and_eq_true, decide_eq_true_eq, List.cons_append] at hm ⊢
    have hbm : b < mid := hb (b, v) (by simp)
    exact ⟨hm.1, ih hm.2 (fun e he => hb e (by simp [he])) (by omega)⟩

theorem Memory.block_bounds (a : Nat) (vs : List α) : ∀ e ∈ Memory.block a vs, e.1 < a + vs.length := by
  induction vs generalizing a with
  | nil => simp [Memory.block]
  | cons v vs ih =>
    intro e he
    simp only [Memory.block, List.mem_cons] at he
    rcases he with rfl | he
    · simp
    · have := ih (a + 1) e he
      simp only [List.length_cons]; omega

theorem Memory.wfFrom_filter_ge {lo : Nat} (k : Nat) {m : Memory α} (h : Memory.wfFrom lo m = true) :
    Memory.wfFrom k (m.filter (fun e => decide (k ≤ e.1))) = true := by
  induction m generalizing lo with
  | nil => rfl
  | cons e m ih =>
    obtain ⟨b, v⟩ := e
    simp only [Memory.wfFrom, Bool.and_eq_true, decide_eq_true_eq] at h
    rw [List.filter_cons]
    split
    · rename_i hk
      simp only [decide_eq_true_eq] at hk
      simp only [Memory.wfFrom, Bool.and_eq_true, decide_eq_true_eq]
      exact ⟨hk, Memory.wfFrom_filter _ h.2⟩
    · exact ih h.2

/-- A block write keeps the canonical form. -/
theorem Memory.wf_writeBlock {m : Memory α} (a : Nat) (vs : List α) (h : Memory.wf m = true) :
    Memory.wf (Memory.writeBlock m a vs) = true := by
  unfold Memory.writeBlock
  rw [List.append_assoc]
  refine Memory.wfFrom_append (mid := a) (Memory.wfFrom_filter _ h) ?_ (Nat.zero_le a) ?_
  · intro e he
    simpa using (List.mem_filter.mp he).2
  · exact Memory.wfFrom_append (Memory.wfFrom_block a vs) (Memory.block_bounds a vs) (by omega)
      (Memory.wfFrom_filter_ge _ h)

/-- Nothing is listed below the first address. -/
theorem Memory.lookup_lt_none {lo : Nat} {m : Memory α} (h : Memory.wfFrom lo m = true) {a : Nat} (ha : a < lo) :
    Memory.lookup m a = none := by
  induction m generalizing lo with
  | nil => rfl
  | cons e m ih =>
    obtain ⟨b, v⟩ := e
    simp only [Memory.wfFrom, Bool.and_eq_true, decide_eq_true_eq] at h
    rw [Memory.lookup_cons, if_neg (by omega)]
    exact ih h.2 (by omega)

/-- Two memories in canonical form that hold the same elements are the same data. -/
theorem Memory.ext_from {lo : Nat} {m n : Memory α} (hm : Memory.wfFrom lo m = true) (hn : Memory.wfFrom lo n = true)
    (h : ∀ a, Memory.lookup m a = Memory.lookup n a) : m = n := by
  induction m generalizing lo n with
  | nil =>
    cases n with
    | nil => rfl
    | cons e n => obtain ⟨b, v⟩ := e; simpa [Memory.lookup_cons] using h b
  | cons e m ih =>
    obtain ⟨b, v⟩ := e
    cases n with
    | nil => simpa [Memory.lookup_cons] using h b
    | cons f n =>
      obtain ⟨c, w⟩ := f
      simp only [Memory.wfFrom, Bool.and_eq_true, decide_eq_true_eq] at hm hn
      have hbc : b = c := by
        rcases Nat.lt_trichotomy b c with hlt | heq | hgt
        · have := h b
          rw [Memory.lookup_cons, if_pos rfl, Memory.lookup_cons, if_neg (by omega),
            Memory.lookup_lt_none hn.2 (by omega)] at this
          simp at this
        · exact heq
        · have := h c
          rw [Memory.lookup_cons, if_neg (by omega), Memory.lookup_lt_none hm.2 (by omega), Memory.lookup_cons,
            if_pos rfl] at this
          simp at this
      subst hbc
      have hv := h b
      simp only [Memory.lookup_cons, if_true, Option.some.injEq] at hv
      subst hv
      have : m = n := by
        refine ih hm.2 hn.2 (fun a => ?_)
        by_cases ha : b = a
        · subst ha
          rw [Memory.lookup_lt_none hm.2 (by omega), Memory.lookup_lt_none hn.2 (by omega)]
        · have := h a
          simpa [Memory.lookup_cons, ha] using this
      rw [this]

/-- Equal memories are equal data. -/
theorem Memory.ext_of_wf {m n : Memory α} (hm : Memory.wf m = true) (hn : Memory.wf n = true)
    (h : ∀ a, Memory.lookup m a = Memory.lookup n a) : m = n := Memory.ext_from hm hn h

/-! ### Capacity and listed windows -/

theorem Memory.within_write {m : Memory α} {cap a : Nat} (v : α) (h : Memory.within m cap) (ha : a < cap) :
    Memory.within (Memory.write m a v) cap := by
  intro c hc
  rw [Memory.lookup_write, if_neg (by omega)]
  exact h c hc

theorem Memory.within_writeBlock {m : Memory α} {cap a : Nat} (vs : List α) (h : Memory.within m cap)
    (ha : a + vs.length ≤ cap) : Memory.within (Memory.writeBlock m a vs) cap := by
  intro c hc
  rw [Memory.lookup_writeBlock, if_neg (by omega)]
  exact h c hc

theorem Memory.listedBelow_write {m : Memory α} {n : Nat} (a : Nat) (v : α) (h : Memory.listedBelow m n) :
    Memory.listedBelow (Memory.write m a v) n := by
  intro c hc
  rw [Memory.lookup_write]
  split
  · rfl
  · exact h c hc

theorem Memory.listedBelow_writeBlock (m : Memory α) (vs : List α) :
    Memory.listedBelow (Memory.writeBlock m 0 vs) vs.length := by
  intro c hc
  rw [Memory.lookup_writeBlock, if_pos ⟨by omega, by omega⟩]
  simp [hc]

end Sys2Proof.Machine
end

