-- ==== Sys2Proof/Laws/State.lean ====
section
/-! SUPPORT. One lemma per field per named update of State, each true by rfl. -/

namespace Sys2Proof.Machine

/-! ### setPhase -/

@[simp] theorem setPhase_phase (p : Phase) (s : State) : (s.setPhase p).phase = p := rfl
@[simp] theorem setPhase_workValid (p : Phase) (s : State) : (s.setPhase p).workValid = s.workValid := rfl
@[simp] theorem setPhase_idxValid (p : Phase) (s : State) : (s.setPhase p).idxValid = s.idxValid := rfl
@[simp] theorem setPhase_outValid (p : Phase) (s : State) : (s.setPhase p).outValid = s.outValid := rfl
@[simp] theorem setPhase_cfg (p : Phase) (s : State) : (s.setPhase p).cfg = s.cfg := rfl
@[simp] theorem setPhase_width (p : Phase) (s : State) : (s.setPhase p).width = s.width := rfl
@[simp] theorem setPhase_height (p : Phase) (s : State) : (s.setPhase p).height = s.height := rfl
@[simp] theorem setPhase_channels (p : Phase) (s : State) : (s.setPhase p).channels = s.channels := rfl
@[simp] theorem setPhase_srcLen (p : Phase) (s : State) : (s.setPhase p).srcLen = s.srcLen := rfl
@[simp] theorem setPhase_palLen (p : Phase) (s : State) : (s.setPhase p).palLen = s.palLen := rfl
@[simp] theorem setPhase_outLen (p : Phase) (s : State) : (s.setPhase p).outLen = s.outLen := rfl
@[simp] theorem setPhase_pal (p : Phase) (s : State) : (s.setPhase p).pal = s.pal := rfl
@[simp] theorem setPhase_src (p : Phase) (s : State) : (s.setPhase p).src = s.src := rfl
@[simp] theorem setPhase_work (p : Phase) (s : State) : (s.setPhase p).work = s.work := rfl
@[simp] theorem setPhase_idx (p : Phase) (s : State) : (s.setPhase p).idx = s.idx := rfl
@[simp] theorem setPhase_out (p : Phase) (s : State) : (s.setPhase p).out = s.out := rfl
@[simp] theorem setPhase_agenda (p : Phase) (s : State) : (s.setPhase p).agenda = s.agenda := rfl
@[simp] theorem setPhase_replies (p : Phase) (s : State) : (s.setPhase p).replies = s.replies := rfl
@[simp] theorem setPhase_resetAsserted (p : Phase) (s : State) : (s.setPhase p).resetAsserted = s.resetAsserted := rfl
@[simp] theorem setPhase_freeCount (p : Phase) (s : State) : (s.setPhase p).freeCount = s.freeCount := rfl
@[simp] theorem setPhase_geometry (p : Phase) (s : State) : (s.setPhase p).geometry = s.geometry := rfl
@[simp] theorem setPhase_palCount (p : Phase) (s : State) : (s.setPhase p).palCount = s.palCount := rfl
@[simp] theorem setPhase_palette (p : Phase) (s : State) : (s.setPhase p).palette = s.palette := rfl

/-! ### setCfg -/

@[simp] theorem setCfg_phase (v : Word) (s : State) : (s.setCfg v).phase = s.phase := rfl
@[simp] theorem setCfg_workValid (v : Word) (s : State) : (s.setCfg v).workValid = s.workValid := rfl
@[simp] theorem setCfg_idxValid (v : Word) (s : State) : (s.setCfg v).idxValid = s.idxValid := rfl
@[simp] theorem setCfg_outValid (v : Word) (s : State) : (s.setCfg v).outValid = s.outValid := rfl
@[simp] theorem setCfg_cfg (v : Word) (s : State) : (s.setCfg v).cfg = v.extractLsb' 0 6 := rfl
@[simp] theorem setCfg_width (v : Word) (s : State) : (s.setCfg v).width = s.width := rfl
@[simp] theorem setCfg_height (v : Word) (s : State) : (s.setCfg v).height = s.height := rfl
@[simp] theorem setCfg_channels (v : Word) (s : State) : (s.setCfg v).channels = s.channels := rfl
@[simp] theorem setCfg_srcLen (v : Word) (s : State) : (s.setCfg v).srcLen = s.srcLen := rfl
@[simp] theorem setCfg_palLen (v : Word) (s : State) : (s.setCfg v).palLen = s.palLen := rfl
@[simp] theorem setCfg_outLen (v : Word) (s : State) : (s.setCfg v).outLen = s.outLen := rfl
@[simp] theorem setCfg_pal (v : Word) (s : State) : (s.setCfg v).pal = s.pal := rfl
@[simp] theorem setCfg_src (v : Word) (s : State) : (s.setCfg v).src = s.src := rfl
@[simp] theorem setCfg_work (v : Word) (s : State) : (s.setCfg v).work = s.work := rfl
@[simp] theorem setCfg_idx (v : Word) (s : State) : (s.setCfg v).idx = s.idx := rfl
@[simp] theorem setCfg_out (v : Word) (s : State) : (s.setCfg v).out = s.out := rfl
@[simp] theorem setCfg_agenda (v : Word) (s : State) : (s.setCfg v).agenda = s.agenda := rfl
@[simp] theorem setCfg_replies (v : Word) (s : State) : (s.setCfg v).replies = s.replies := rfl
@[simp] theorem setCfg_resetAsserted (v : Word) (s : State) : (s.setCfg v).resetAsserted = s.resetAsserted := rfl
@[simp] theorem setCfg_freeCount (v : Word) (s : State) : (s.setCfg v).freeCount = s.freeCount := rfl
@[simp] theorem setCfg_geometry (v : Word) (s : State) : (s.setCfg v).geometry = s.geometry := rfl
@[simp] theorem setCfg_palCount (v : Word) (s : State) : (s.setCfg v).palCount = s.palCount := rfl
@[simp] theorem setCfg_palette (v : Word) (s : State) : (s.setCfg v).palette = s.palette := rfl

/-! ### setWidth -/

@[simp] theorem setWidth_phase (v : Word) (s : State) : (s.setWidth v).phase = s.phase := rfl
@[simp] theorem setWidth_workValid (v : Word) (s : State) : (s.setWidth v).workValid = false := rfl
@[simp] theorem setWidth_idxValid (v : Word) (s : State) : (s.setWidth v).idxValid = false := rfl
@[simp] theorem setWidth_outValid (v : Word) (s : State) : (s.setWidth v).outValid = s.outValid := rfl
@[simp] theorem setWidth_cfg (v : Word) (s : State) : (s.setWidth v).cfg = s.cfg := rfl
@[simp] theorem setWidth_width (v : Word) (s : State) : (s.setWidth v).width = v := rfl
@[simp] theorem setWidth_height (v : Word) (s : State) : (s.setWidth v).height = s.height := rfl
@[simp] theorem setWidth_channels (v : Word) (s : State) : (s.setWidth v).channels = s.channels := rfl
@[simp] theorem setWidth_srcLen (v : Word) (s : State) : (s.setWidth v).srcLen = s.srcLen := rfl
@[simp] theorem setWidth_palLen (v : Word) (s : State) : (s.setWidth v).palLen = s.palLen := rfl
@[simp] theorem setWidth_outLen (v : Word) (s : State) : (s.setWidth v).outLen = s.outLen := rfl
@[simp] theorem setWidth_pal (v : Word) (s : State) : (s.setWidth v).pal = s.pal := rfl
@[simp] theorem setWidth_src (v : Word) (s : State) : (s.setWidth v).src = s.src := rfl
@[simp] theorem setWidth_work (v : Word) (s : State) : (s.setWidth v).work = s.work := rfl
@[simp] theorem setWidth_idx (v : Word) (s : State) : (s.setWidth v).idx = s.idx := rfl
@[simp] theorem setWidth_out (v : Word) (s : State) : (s.setWidth v).out = s.out := rfl
@[simp] theorem setWidth_agenda (v : Word) (s : State) : (s.setWidth v).agenda = s.agenda := rfl
@[simp] theorem setWidth_replies (v : Word) (s : State) : (s.setWidth v).replies = s.replies := rfl
@[simp] theorem setWidth_resetAsserted (v : Word) (s : State) : (s.setWidth v).resetAsserted = s.resetAsserted := rfl
@[simp] theorem setWidth_freeCount (v : Word) (s : State) : (s.setWidth v).freeCount = s.freeCount := rfl
@[simp] theorem setWidth_palCount (v : Word) (s : State) : (s.setWidth v).palCount = s.palCount := rfl
@[simp] theorem setWidth_palette (v : Word) (s : State) : (s.setWidth v).palette = s.palette := rfl

/-! ### setHeight -/

@[simp] theorem setHeight_phase (v : Word) (s : State) : (s.setHeight v).phase = s.phase := rfl
@[simp] theorem setHeight_workValid (v : Word) (s : State) : (s.setHeight v).workValid = false := rfl
@[simp] theorem setHeight_idxValid (v : Word) (s : State) : (s.setHeight v).idxValid = false := rfl
@[simp] theorem setHeight_outValid (v : Word) (s : State) : (s.setHeight v).outValid = s.outValid := rfl
@[simp] theorem setHeight_cfg (v : Word) (s : State) : (s.setHeight v).cfg = s.cfg := rfl
@[simp] theorem setHeight_width (v : Word) (s : State) : (s.setHeight v).width = s.width := rfl
@[simp] theorem setHeight_height (v : Word) (s : State) : (s.setHeight v).height = v := rfl
@[simp] theorem setHeight_channels (v : Word) (s : State) : (s.setHeight v).channels = s.channels := rfl
@[simp] theorem setHeight_srcLen (v : Word) (s : State) : (s.setHeight v).srcLen = s.srcLen := rfl
@[simp] theorem setHeight_palLen (v : Word) (s : State) : (s.setHeight v).palLen = s.palLen := rfl
@[simp] theorem setHeight_outLen (v : Word) (s : State) : (s.setHeight v).outLen = s.outLen := rfl
@[simp] theorem setHeight_pal (v : Word) (s : State) : (s.setHeight v).pal = s.pal := rfl
@[simp] theorem setHeight_src (v : Word) (s : State) : (s.setHeight v).src = s.src := rfl
@[simp] theorem setHeight_work (v : Word) (s : State) : (s.setHeight v).work = s.work := rfl
@[simp] theorem setHeight_idx (v : Word) (s : State) : (s.setHeight v).idx = s.idx := rfl
@[simp] theorem setHeight_out (v : Word) (s : State) : (s.setHeight v).out = s.out := rfl
@[simp] theorem setHeight_agenda (v : Word) (s : State) : (s.setHeight v).agenda = s.agenda := rfl
@[simp] theorem setHeight_replies (v : Word) (s : State) : (s.setHeight v).replies = s.replies := rfl
@[simp] theorem setHeight_resetAsserted (v : Word) (s : State) : (s.setHeight v).resetAsserted = s.resetAsserted := rfl
@[simp] theorem setHeight_freeCount (v : Word) (s : State) : (s.setHeight v).freeCount = s.freeCount := rfl
@[simp] theorem setHeight_palCount (v : Word) (s : State) : (s.setHeight v).palCount = s.palCount := rfl
@[simp] theorem setHeight_palette (v : Word) (s : State) : (s.setHeight v).palette = s.palette := rfl

/-! ### setChannels -/

@[simp] theorem setChannels_phase (v : Word) (s : State) : (s.setChannels v).phase = s.phase := rfl
@[simp] theorem setChannels_workValid (v : Word) (s : State) : (s.setChannels v).workValid = false := rfl
@[simp] theorem setChannels_idxValid (v : Word) (s : State) : (s.setChannels v).idxValid = false := rfl
@[simp] theorem setChannels_outValid (v : Word) (s : State) : (s.setChannels v).outValid = s.outValid := rfl
@[simp] theorem setChannels_cfg (v : Word) (s : State) : (s.setChannels v).cfg = s.cfg := rfl
@[simp] theorem setChannels_width (v : Word) (s : State) : (s.setChannels v).width = s.width := rfl
@[simp] theorem setChannels_height (v : Word) (s : State) : (s.setChannels v).height = s.height := rfl
@[simp] theorem setChannels_channels (v : Word) (s : State) : (s.setChannels v).channels = v := rfl
@[simp] theorem setChannels_srcLen (v : Word) (s : State) : (s.setChannels v).srcLen = s.srcLen := rfl
@[simp] theorem setChannels_palLen (v : Word) (s : State) : (s.setChannels v).palLen = s.palLen := rfl
@[simp] theorem setChannels_outLen (v : Word) (s : State) : (s.setChannels v).outLen = s.outLen := rfl
@[simp] theorem setChannels_pal (v : Word) (s : State) : (s.setChannels v).pal = s.pal := rfl
@[simp] theorem setChannels_src (v : Word) (s : State) : (s.setChannels v).src = s.src := rfl
@[simp] theorem setChannels_work (v : Word) (s : State) : (s.setChannels v).work = s.work := rfl
@[simp] theorem setChannels_idx (v : Word) (s : State) : (s.setChannels v).idx = s.idx := rfl
@[simp] theorem setChannels_out (v : Word) (s : State) : (s.setChannels v).out = s.out := rfl
@[simp] theorem setChannels_agenda (v : Word) (s : State) : (s.setChannels v).agenda = s.agenda := rfl
@[simp] theorem setChannels_replies (v : Word) (s : State) : (s.setChannels v).replies = s.replies := rfl
@[simp] theorem setChannels_resetAsserted (v : Word) (s : State) : (s.setChannels v).resetAsserted = s.resetAsserted := rfl
@[simp] theorem setChannels_freeCount (v : Word) (s : State) : (s.setChannels v).freeCount = s.freeCount := rfl
@[simp] theorem setChannels_palCount (v : Word) (s : State) : (s.setChannels v).palCount = s.palCount := rfl
@[simp] theorem setChannels_palette (v : Word) (s : State) : (s.setChannels v).palette = s.palette := rfl

/-! ### setSource -/

@[simp] theorem setSource_phase (m : Memory Byte) (n : Word) (s : State) : (s.setSource m n).phase = s.phase := rfl
@[simp] theorem setSource_workValid (m : Memory Byte) (n : Word) (s : State) : (s.setSource m n).workValid = s.workValid := rfl
@[simp] theorem setSource_idxValid (m : Memory Byte) (n : Word) (s : State) : (s.setSource m n).idxValid = s.idxValid := rfl
@[simp] theorem setSource_outValid (m : Memory Byte) (n : Word) (s : State) : (s.setSource m n).outValid = s.outValid := rfl
@[simp] theorem setSource_cfg (m : Memory Byte) (n : Word) (s : State) : (s.setSource m n).cfg = s.cfg := rfl
@[simp] theorem setSource_width (m : Memory Byte) (n : Word) (s : State) : (s.setSource m n).width = s.width := rfl
@[simp] theorem setSource_height (m : Memory Byte) (n : Word) (s : State) : (s.setSource m n).height = s.height := rfl
@[simp] theorem setSource_channels (m : Memory Byte) (n : Word) (s : State) : (s.setSource m n).channels = s.channels := rfl
@[simp] theorem setSource_srcLen (m : Memory Byte) (n : Word) (s : State) : (s.setSource m n).srcLen = n := rfl
@[simp] theorem setSource_palLen (m : Memory Byte) (n : Word) (s : State) : (s.setSource m n).palLen = s.palLen := rfl
@[simp] theorem setSource_outLen (m : Memory Byte) (n : Word) (s : State) : (s.setSource m n).outLen = s.outLen := rfl
@[simp] theorem setSource_pal (m : Memory Byte) (n : Word) (s : State) : (s.setSource m n).pal = s.pal := rfl
@[simp] theorem setSource_src (m : Memory Byte) (n : Word) (s : State) : (s.setSource m n).src = m := rfl
@[simp] theorem setSource_work (m : Memory Byte) (n : Word) (s : State) : (s.setSource m n).work = s.work := rfl
@[simp] theorem setSource_idx (m : Memory Byte) (n : Word) (s : State) : (s.setSource m n).idx = s.idx := rfl
@[simp] theorem setSource_out (m : Memory Byte) (n : Word) (s : State) : (s.setSource m n).out = s.out := rfl
@[simp] theorem setSource_agenda (m : Memory Byte) (n : Word) (s : State) : (s.setSource m n).agenda = s.agenda := rfl
@[simp] theorem setSource_replies (m : Memory Byte) (n : Word) (s : State) : (s.setSource m n).replies = s.replies := rfl
@[simp] theorem setSource_resetAsserted (m : Memory Byte) (n : Word) (s : State) : (s.setSource m n).resetAsserted = s.resetAsserted := rfl
@[simp] theorem setSource_freeCount (m : Memory Byte) (n : Word) (s : State) : (s.setSource m n).freeCount = s.freeCount := rfl
@[simp] theorem setSource_geometry (m : Memory Byte) (n : Word) (s : State) : (s.setSource m n).geometry = s.geometry := rfl
@[simp] theorem setSource_palCount (m : Memory Byte) (n : Word) (s : State) : (s.setSource m n).palCount = s.palCount := rfl
@[simp] theorem setSource_palette (m : Memory Byte) (n : Word) (s : State) : (s.setSource m n).palette = s.palette := rfl

/-! ### setPalette -/

@[simp] theorem setPalette_phase (m : Memory Colour) (n : Word) (s : State) : (s.setPalette m n).phase = s.phase := rfl
@[simp] theorem setPalette_workValid (m : Memory Colour) (n : Word) (s : State) : (s.setPalette m n).workValid = s.workValid := rfl
@[simp] theorem setPalette_idxValid (m : Memory Colour) (n : Word) (s : State) : (s.setPalette m n).idxValid = false := rfl
@[simp] theorem setPalette_outValid (m : Memory Colour) (n : Word) (s : State) : (s.setPalette m n).outValid = s.outValid := rfl
@[simp] theorem setPalette_cfg (m : Memory Colour) (n : Word) (s : State) : (s.setPalette m n).cfg = s.cfg := rfl
@[simp] theorem setPalette_width (m : Memory Colour) (n : Word) (s : State) : (s.setPalette m n).width = s.width := rfl
@[simp] theorem setPalette_height (m : Memory Colour) (n : Word) (s : State) : (s.setPalette m n).height = s.height := rfl
@[simp] theorem setPalette_channels (m : Memory Colour) (n : Word) (s : State) : (s.setPalette m n).channels = s.channels := rfl
@[simp] theorem setPalette_srcLen (m : Memory Colour) (n : Word) (s : State) : (s.setPalette m n).srcLen = s.srcLen := rfl
@[simp] theorem setPalette_palLen (m : Memory Colour) (n : Word) (s : State) : (s.setPalette m n).palLen = n := rfl
@[simp] theorem setPalette_outLen (m : Memory Colour) (n : Word) (s : State) : (s.setPalette m n).outLen = s.outLen := rfl
@[simp] theorem setPalette_pal (m : Memory Colour) (n : Word) (s : State) : (s.setPalette m n).pal = m := rfl
@[simp] theorem setPalette_src (m : Memory Colour) (n : Word) (s : State) : (s.setPalette m n).src = s.src := rfl
@[simp] theorem setPalette_work (m : Memory Colour) (n : Word) (s : State) : (s.setPalette m n).work = s.work := rfl
@[simp] theorem setPalette_idx (m : Memory Colour) (n : Word) (s : State) : (s.setPalette m n).idx = s.idx := rfl
@[simp] theorem setPalette_out (m : Memory Colour) (n : Word) (s : State) : (s.setPalette m n).out = s.out := rfl
@[simp] theorem setPalette_agenda (m : Memory Colour) (n : Word) (s : State) : (s.setPalette m n).agenda = s.agenda := rfl
@[simp] theorem setPalette_replies (m : Memory Colour) (n : Word) (s : State) : (s.setPalette m n).replies = s.replies := rfl
@[simp] theorem setPalette_resetAsserted (m : Memory Colour) (n : Word) (s : State) : (s.setPalette m n).resetAsserted = s.resetAsserted := rfl
@[simp] theorem setPalette_freeCount (m : Memory Colour) (n : Word) (s : State) : (s.setPalette m n).freeCount = s.freeCount := rfl
@[simp] theorem setPalette_geometry (m : Memory Colour) (n : Word) (s : State) : (s.setPalette m n).geometry = s.geometry := rfl

/-! ### setQuantized -/

@[simp] theorem setQuantized_phase (w i : Memory Byte) (s : State) : (s.setQuantized w i).phase = s.phase := rfl
@[simp] theorem setQuantized_workValid (w i : Memory Byte) (s : State) : (s.setQuantized w i).workValid = true := rfl
@[simp] theorem setQuantized_idxValid (w i : Memory Byte) (s : State) : (s.setQuantized w i).idxValid = true := rfl
@[simp] theorem setQuantized_outValid (w i : Memory Byte) (s : State) : (s.setQuantized w i).outValid = s.outValid := rfl
@[simp] theorem setQuantized_cfg (w i : Memory Byte) (s : State) : (s.setQuantized w i).cfg = s.cfg := rfl
@[simp] theorem setQuantized_width (w i : Memory Byte) (s : State) : (s.setQuantized w i).width = s.width := rfl
@[simp] theorem setQuantized_height (w i : Memory Byte) (s : State) : (s.setQuantized w i).height = s.height := rfl
@[simp] theorem setQuantized_channels (w i : Memory Byte) (s : State) : (s.setQuantized w i).channels = s.channels := rfl
@[simp] theorem setQuantized_srcLen (w i : Memory Byte) (s : State) : (s.setQuantized w i).srcLen = s.srcLen := rfl
@[simp] theorem setQuantized_palLen (w i : Memory Byte) (s : State) : (s.setQuantized w i).palLen = s.palLen := rfl
@[simp] theorem setQuantized_outLen (w i : Memory Byte) (s : State) : (s.setQuantized w i).outLen = s.outLen := rfl
@[simp] theorem setQuantized_pal (w i : Memory Byte) (s : State) : (s.setQuantized w i).pal = s.pal := rfl
@[simp] theorem setQuantized_src (w i : Memory Byte) (s : State) : (s.setQuantized w i).src = s.src := rfl
@[simp] theorem setQuantized_work (w i : Memory Byte) (s : State) : (s.setQuantized w i).work = w := rfl
@[simp] theorem setQuantized_idx (w i : Memory Byte) (s : State) : (s.setQuantized w i).idx = i := rfl
@[simp] theorem setQuantized_out (w i : Memory Byte) (s : State) : (s.setQuantized w i).out = s.out := rfl
@[simp] theorem setQuantized_agenda (w i : Memory Byte) (s : State) : (s.setQuantized w i).agenda = s.agenda := rfl
@[simp] theorem setQuantized_replies (w i : Memory Byte) (s : State) : (s.setQuantized w i).replies = s.replies := rfl
@[simp] theorem setQuantized_resetAsserted (w i : Memory Byte) (s : State) : (s.setQuantized w i).resetAsserted = s.resetAsserted := rfl
@[simp] theorem setQuantized_freeCount (w i : Memory Byte) (s : State) : (s.setQuantized w i).freeCount = s.freeCount := rfl
@[simp] theorem setQuantized_geometry (w i : Memory Byte) (s : State) : (s.setQuantized w i).geometry = s.geometry := rfl
@[simp] theorem setQuantized_palCount (w i : Memory Byte) (s : State) : (s.setQuantized w i).palCount = s.palCount := rfl
@[simp] theorem setQuantized_palette (w i : Memory Byte) (s : State) : (s.setQuantized w i).palette = s.palette := rfl

/-! ### setPassed -/

@[simp] theorem setPassed_phase (w : Memory Byte) (s : State) : (s.setPassed w).phase = s.phase := rfl
@[simp] theorem setPassed_workValid (w : Memory Byte) (s : State) : (s.setPassed w).workValid = true := rfl
@[simp] theorem setPassed_idxValid (w : Memory Byte) (s : State) : (s.setPassed w).idxValid = false := rfl
@[simp] theorem setPassed_outValid (w : Memory Byte) (s : State) : (s.setPassed w).outValid = s.outValid := rfl
@[simp] theorem setPassed_cfg (w : Memory Byte) (s : State) : (s.setPassed w).cfg = s.cfg := rfl
@[simp] theorem setPassed_width (w : Memory Byte) (s : State) : (s.setPassed w).width = s.width := rfl
@[simp] theorem setPassed_height (w : Memory Byte) (s : State) : (s.setPassed w).height = s.height := rfl
@[simp] theorem setPassed_channels (w : Memory Byte) (s : State) : (s.setPassed w).channels = s.channels := rfl
@[simp] theorem setPassed_srcLen (w : Memory Byte) (s : State) : (s.setPassed w).srcLen = s.srcLen := rfl
@[simp] theorem setPassed_palLen (w : Memory Byte) (s : State) : (s.setPassed w).palLen = s.palLen := rfl
@[simp] theorem setPassed_outLen (w : Memory Byte) (s : State) : (s.setPassed w).outLen = s.outLen := rfl
@[simp] theorem setPassed_pal (w : Memory Byte) (s : State) : (s.setPassed w).pal = s.pal := rfl
@[simp] theorem setPassed_src (w : Memory Byte) (s : State) : (s.setPassed w).src = s.src := rfl
@[simp] theorem setPassed_work (w : Memory Byte) (s : State) : (s.setPassed w).work = w := rfl
@[simp] theorem setPassed_idx (w : Memory Byte) (s : State) : (s.setPassed w).idx = s.idx := rfl
@[simp] theorem setPassed_out (w : Memory Byte) (s : State) : (s.setPassed w).out = s.out := rfl
@[simp] theorem setPassed_agenda (w : Memory Byte) (s : State) : (s.setPassed w).agenda = s.agenda := rfl
@[simp] theorem setPassed_replies (w : Memory Byte) (s : State) : (s.setPassed w).replies = s.replies := rfl
@[simp] theorem setPassed_resetAsserted (w : Memory Byte) (s : State) : (s.setPassed w).resetAsserted = s.resetAsserted := rfl
@[simp] theorem setPassed_freeCount (w : Memory Byte) (s : State) : (s.setPassed w).freeCount = s.freeCount := rfl
@[simp] theorem setPassed_geometry (w : Memory Byte) (s : State) : (s.setPassed w).geometry = s.geometry := rfl
@[simp] theorem setPassed_palCount (w : Memory Byte) (s : State) : (s.setPassed w).palCount = s.palCount := rfl
@[simp] theorem setPassed_palette (w : Memory Byte) (s : State) : (s.setPassed w).palette = s.palette := rfl

/-! ### setFile -/

@[simp] theorem setFile_phase (m : Memory Byte) (n : Word) (s : State) : (s.setFile m n).phase = s.phase := rfl
@[simp] theorem setFile_workValid (m : Memory Byte) (n : Word) (s : State) : (s.setFile m n).workValid = s.workValid := rfl
@[simp] theorem setFile_idxValid (m : Memory Byte) (n : Word) (s : State) : (s.setFile m n).idxValid = s.idxValid := rfl
@[simp] theorem setFile_outValid (m : Memory Byte) (n : Word) (s : State) : (s.setFile m n).outValid = true := rfl
@[simp] theorem setFile_cfg (m : Memory Byte) (n : Word) (s : State) : (s.setFile m n).cfg = s.cfg := rfl
@[simp] theorem setFile_width (m : Memory Byte) (n : Word) (s : State) : (s.setFile m n).width = s.width := rfl
@[simp] theorem setFile_height (m : Memory Byte) (n : Word) (s : State) : (s.setFile m n).height = s.height := rfl
@[simp] theorem setFile_channels (m : Memory Byte) (n : Word) (s : State) : (s.setFile m n).channels = s.channels := rfl
@[simp] theorem setFile_srcLen (m : Memory Byte) (n : Word) (s : State) : (s.setFile m n).srcLen = s.srcLen := rfl
@[simp] theorem setFile_palLen (m : Memory Byte) (n : Word) (s : State) : (s.setFile m n).palLen = s.palLen := rfl
@[simp] theorem setFile_outLen (m : Memory Byte) (n : Word) (s : State) : (s.setFile m n).outLen = n := rfl
@[simp] theorem setFile_pal (m : Memory Byte) (n : Word) (s : State) : (s.setFile m n).pal = s.pal := rfl
@[simp] theorem setFile_src (m : Memory Byte) (n : Word) (s : State) : (s.setFile m n).src = s.src := rfl
@[simp] theorem setFile_work (m : Memory Byte) (n : Word) (s : State) : (s.setFile m n).work = s.work := rfl
@[simp] theorem setFile_idx (m : Memory Byte) (n : Word) (s : State) : (s.setFile m n).idx = s.idx := rfl
@[simp] theorem setFile_out (m : Memory Byte) (n : Word) (s : State) : (s.setFile m n).out = m := rfl
@[simp] theorem setFile_agenda (m : Memory Byte) (n : Word) (s : State) : (s.setFile m n).agenda = s.agenda := rfl
@[simp] theorem setFile_replies (m : Memory Byte) (n : Word) (s : State) : (s.setFile m n).replies = s.replies := rfl
@[simp] theorem setFile_resetAsserted (m : Memory Byte) (n : Word) (s : State) : (s.setFile m n).resetAsserted = s.resetAsserted := rfl
@[simp] theorem setFile_freeCount (m : Memory Byte) (n : Word) (s : State) : (s.setFile m n).freeCount = s.freeCount := rfl
@[simp] theorem setFile_geometry (m : Memory Byte) (n : Word) (s : State) : (s.setFile m n).geometry = s.geometry := rfl
@[simp] theorem setFile_palCount (m : Memory Byte) (n : Word) (s : State) : (s.setFile m n).palCount = s.palCount := rfl
@[simp] theorem setFile_palette (m : Memory Byte) (n : Word) (s : State) : (s.setFile m n).palette = s.palette := rfl

/-! ### setAgenda -/

@[simp] theorem setAgenda_phase (es : List Event) (s : State) : (s.setAgenda es).phase = s.phase := rfl
@[simp] theorem setAgenda_workValid (es : List Event) (s : State) : (s.setAgenda es).workValid = s.workValid := rfl
@[simp] theorem setAgenda_idxValid (es : List Event) (s : State) : (s.setAgenda es).idxValid = s.idxValid := rfl
@[simp] theorem setAgenda_outValid (es : List Event) (s : State) : (s.setAgenda es).outValid = s.outValid := rfl
@[simp] theorem setAgenda_cfg (es : List Event) (s : State) : (s.setAgenda es).cfg = s.cfg := rfl
@[simp] theorem setAgenda_width (es : List Event) (s : State) : (s.setAgenda es).width = s.width := rfl
@[simp] theorem setAgenda_height (es : List Event) (s : State) : (s.setAgenda es).height = s.height := rfl
@[simp] theorem setAgenda_channels (es : List Event) (s : State) : (s.setAgenda es).channels = s.channels := rfl
@[simp] theorem setAgenda_srcLen (es : List Event) (s : State) : (s.setAgenda es).srcLen = s.srcLen := rfl
@[simp] theorem setAgenda_palLen (es : List Event) (s : State) : (s.setAgenda es).palLen = s.palLen := rfl
@[simp] theorem setAgenda_outLen (es : List Event) (s : State) : (s.setAgenda es).outLen = s.outLen := rfl
@[simp] theorem setAgenda_pal (es : List Event) (s : State) : (s.setAgenda es).pal = s.pal := rfl
@[simp] theorem setAgenda_src (es : List Event) (s : State) : (s.setAgenda es).src = s.src := rfl
@[simp] theorem setAgenda_work (es : List Event) (s : State) : (s.setAgenda es).work = s.work := rfl
@[simp] theorem setAgenda_idx (es : List Event) (s : State) : (s.setAgenda es).idx = s.idx := rfl
@[simp] theorem setAgenda_out (es : List Event) (s : State) : (s.setAgenda es).out = s.out := rfl
@[simp] theorem setAgenda_agenda (es : List Event) (s : State) : (s.setAgenda es).agenda = es := rfl
@[simp] theorem setAgenda_replies (es : List Event) (s : State) : (s.setAgenda es).replies = s.replies := rfl
@[simp] theorem setAgenda_resetAsserted (es : List Event) (s : State) : (s.setAgenda es).resetAsserted = s.resetAsserted := rfl
@[simp] theorem setAgenda_freeCount (es : List Event) (s : State) : (s.setAgenda es).freeCount = s.freeCount := rfl
@[simp] theorem setAgenda_geometry (es : List Event) (s : State) : (s.setAgenda es).geometry = s.geometry := rfl
@[simp] theorem setAgenda_palCount (es : List Event) (s : State) : (s.setAgenda es).palCount = s.palCount := rfl
@[simp] theorem setAgenda_palette (es : List Event) (s : State) : (s.setAgenda es).palette = s.palette := rfl

/-! ### addReply -/

@[simp] theorem addReply_phase (r : Reply) (s : State) : (s.addReply r).phase = s.phase := rfl
@[simp] theorem addReply_workValid (r : Reply) (s : State) : (s.addReply r).workValid = s.workValid := rfl
@[simp] theorem addReply_idxValid (r : Reply) (s : State) : (s.addReply r).idxValid = s.idxValid := rfl
@[simp] theorem addReply_outValid (r : Reply) (s : State) : (s.addReply r).outValid = s.outValid := rfl
@[simp] theorem addReply_cfg (r : Reply) (s : State) : (s.addReply r).cfg = s.cfg := rfl
@[simp] theorem addReply_width (r : Reply) (s : State) : (s.addReply r).width = s.width := rfl
@[simp] theorem addReply_height (r : Reply) (s : State) : (s.addReply r).height = s.height := rfl
@[simp] theorem addReply_channels (r : Reply) (s : State) : (s.addReply r).channels = s.channels := rfl
@[simp] theorem addReply_srcLen (r : Reply) (s : State) : (s.addReply r).srcLen = s.srcLen := rfl
@[simp] theorem addReply_palLen (r : Reply) (s : State) : (s.addReply r).palLen = s.palLen := rfl
@[simp] theorem addReply_outLen (r : Reply) (s : State) : (s.addReply r).outLen = s.outLen := rfl
@[simp] theorem addReply_pal (r : Reply) (s : State) : (s.addReply r).pal = s.pal := rfl
@[simp] theorem addReply_src (r : Reply) (s : State) : (s.addReply r).src = s.src := rfl
@[simp] theorem addReply_work (r : Reply) (s : State) : (s.addReply r).work = s.work := rfl
@[simp] theorem addReply_idx (r : Reply) (s : State) : (s.addReply r).idx = s.idx := rfl
@[simp] theorem addReply_out (r : Reply) (s : State) : (s.addReply r).out = s.out := rfl
@[simp] theorem addReply_agenda (r : Reply) (s : State) : (s.addReply r).agenda = s.agenda := rfl
@[simp] theorem addReply_replies (r : Reply) (s : State) : (s.addReply r).replies = r :: s.replies := rfl
@[simp] theorem addReply_resetAsserted (r : Reply) (s : State) : (s.addReply r).resetAsserted = s.resetAsserted := rfl
@[simp] theorem addReply_freeCount (r : Reply) (s : State) : (s.addReply r).freeCount = s.freeCount := rfl
@[simp] theorem addReply_geometry (r : Reply) (s : State) : (s.addReply r).geometry = s.geometry := rfl
@[simp] theorem addReply_palCount (r : Reply) (s : State) : (s.addReply r).palCount = s.palCount := rfl
@[simp] theorem addReply_palette (r : Reply) (s : State) : (s.addReply r).palette = s.palette := rfl

/-! ### countFree -/

@[simp] theorem countFree_phase (s : State) : s.countFree.phase = s.phase := rfl
@[simp] theorem countFree_workValid (s : State) : s.countFree.workValid = s.workValid := rfl
@[simp] theorem countFree_idxValid (s : State) : s.countFree.idxValid = s.idxValid := rfl
@[simp] theorem countFree_outValid (s : State) : s.countFree.outValid = s.outValid := rfl
@[simp] theorem countFree_cfg (s : State) : s.countFree.cfg = s.cfg := rfl
@[simp] theorem countFree_width (s : State) : s.countFree.width = s.width := rfl
@[simp] theorem countFree_height (s : State) : s.countFree.height = s.height := rfl
@[simp] theorem countFree_channels (s : State) : s.countFree.channels = s.channels := rfl
@[simp] theorem countFree_srcLen (s : State) : s.countFree.srcLen = s.srcLen := rfl
@[simp] theorem countFree_palLen (s : State) : s.countFree.palLen = s.palLen := rfl
@[simp] theorem countFree_outLen (s : State) : s.countFree.outLen = s.outLen := rfl
@[simp] theorem countFree_pal (s : State) : s.countFree.pal = s.pal := rfl
@[simp] theorem countFree_src (s : State) : s.countFree.src = s.src := rfl
@[simp] theorem countFree_work (s : State) : s.countFree.work = s.work := rfl
@[simp] theorem countFree_idx (s : State) : s.countFree.idx = s.idx := rfl
@[simp] theorem countFree_out (s : State) : s.countFree.out = s.out := rfl
@[simp] theorem countFree_agenda (s : State) : s.countFree.agenda = s.agenda := rfl
@[simp] theorem countFree_replies (s : State) : s.countFree.replies = s.replies := rfl
@[simp] theorem countFree_resetAsserted (s : State) : s.countFree.resetAsserted = s.resetAsserted := rfl
@[simp] theorem countFree_freeCount (s : State) : s.countFree.freeCount = s.freeCount + 1 := rfl
@[simp] theorem countFree_geometry (s : State) : s.countFree.geometry = s.geometry := rfl
@[simp] theorem countFree_palCount (s : State) : s.countFree.palCount = s.palCount := rfl
@[simp] theorem countFree_palette (s : State) : s.countFree.palette = s.palette := rfl

end Sys2Proof.Machine
end

