-- ==== Sys2Proof/Laws/Ops.lean ====
section
/-! SUPPORT. What the shared operations can do: the loop, the command template, and one completion lemma for `exec`. -/

namespace Sys2Proof.Machine

/-! ### The loop -/

@[simp] theorem forRange_zero {σ : Type} (f : Nat → σ → σ) (s : σ) : forRange 0 f s = s := rfl

@[simp] theorem forRange_succ {σ : Type} (n : Nat) (f : Nat → σ → σ) (s : σ) :
    forRange (n + 1) f s = f n (forRange n f s) := rfl

/-- Loop rule: a property of the number of rounds done and the value holds after the loop if it holds before it and every
round keeps it. -/
theorem forRange_induct {σ : Type} {n : Nat} {f : Nat → σ → σ} {s : σ} (P : Nat → σ → Prop) (h0 : P 0 s)
    (hs : ∀ i, i < n → ∀ u, P i u → P (i + 1) (f i u)) : P n (forRange n f s) := by
  induction n with
  | zero => exact h0
  | succ n ih =>
    rw [forRange_succ]
    exact hs n (by omega) _ (ih (fun i hi u hu => hs i (by omega) u hu))

theorem forRange_congr {σ : Type} {n : Nat} {f g : Nat → σ → σ} (s : σ) (h : ∀ i, i < n → ∀ u, f i u = g i u) :
    forRange n f s = forRange n g s := by
  induction n with
  | zero => rfl
  | succ n ih =>
    rw [forRange_succ, forRange_succ, ih (fun i hi u => h i (by omega) u), h n (by omega)]

/-- Two loops keep a relation between their values, which may speak of the number of rounds done. -/
theorem forRange_rel {σ τ : Type} {n : Nat} {f : Nat → σ → σ} {g : Nat → τ → τ} {s : σ} {u : τ}
    (R : Nat → σ → τ → Prop) (h0 : R 0 s u) (hs : ∀ i, i < n → ∀ a b, R i a b → R (i + 1) (f i a) (g i b)) :
    R n (forRange n f s) (forRange n g u) := by
  induction n with
  | zero => exact h0
  | succ n ih =>
    rw [forRange_succ, forRange_succ]
    exact hs n (by omega) _ _ (ih (fun i hi a b hab => hs i (by omega) a b hab))

theorem forRange_add {σ : Type} (a b : Nat) (f : Nat → σ → σ) (s : σ) :
    forRange (a + b) f s = forRange b (fun i => f (a + i)) (forRange a f s) := by
  induction b with
  | zero => rfl
  | succ b ih => rw [← Nat.add_assoc, forRange_succ, forRange_succ, ih]

/-- Rows of `w` rounds, one after another, are one loop over all rounds. -/
theorem forRange_nested {σ : Type} (h : Nat) {w : Nat} (hw : 0 < w) (f : Nat → Nat → σ → σ) (s : σ) :
    forRange h (fun y s => forRange w (fun x s => f x y s) s) s = forRange (h * w) (fun n s => f (n % w) (n / w) s) s := by
  induction h with
  | zero => rw [Nat.zero_mul]; rfl
  | succ h ih =>
    rw [forRange_succ, ih, Nat.succ_mul, forRange_add]
    refine forRange_congr _ (fun x hx u => ?_)
    rw [Nat.mul_comm, Nat.mul_add_mod, Nat.mod_eq_of_lt hx, Nat.mul_add_div hw, Nat.div_eq_of_lt hx, Nat.add_zero]

/-! ### The command template -/

theorem firstFailure_none {cs : List (Bool × CmdError)} : firstFailure cs = none ↔ ∀ c ∈ cs, c.1 = true := by
  induction cs with
  | nil => simp [firstFailure]
  | cons c cs ih =>
    obtain ⟨ok, e⟩ := c
    cases ok <;> simp [firstFailure, ih]

/-- A failing command: its first failing check, and no other change (rule R171). -/
theorem runCommand_error {checks : List (Bool × CmdError)} {effect s : State} {e : CmdError}
    (h : firstFailure checks = some e) : runCommand checks effect s = .next (s.setPhase (.error e)) := by
  simp [runCommand, h, raise]

/-- A command whose checks pass: the whole effect (rule R70). -/
theorem runCommand_done {checks : List (Bool × CmdError)} {effect s : State}
    (h : firstFailure checks = none) : runCommand checks effect s = .next (effect.setPhase .done) := by
  simp [runCommand, h, succeed]

/-- Everything the template can do. -/
theorem runCommand_cases {checks : List (Bool × CmdError)} {effect s t : State}
    (h : runCommand checks effect s = .next t) :
    (∃ e, firstFailure checks = some e ∧ t = s.setPhase (.error e))
      ∨ (firstFailure checks = none ∧ t = effect.setPhase .done) := by
  cases hc : firstFailure checks with
  | some e =>
    rw [runCommand_error hc] at h
    injection h with h
    exact .inl ⟨e, rfl, h.symm⟩
  | none =>
    rw [runCommand_done hc] at h
    injection h with h
    exact .inr ⟨rfl, h.symm⟩

theorem runCommand_total (checks : List (Bool × CmdError)) (effect s : State) :
    ∃ t, runCommand checks effect s = .next t := by
  cases hc : firstFailure checks with
  | some e => exact ⟨_, runCommand_error hc⟩
  | none => exact ⟨_, runCommand_done hc⟩

end Sys2Proof.Machine
end

