-- ==== Sys2Proof/Laws/Exec.lean ====
section
/-! SUPPORT. What a command and a step can do, said once: each command as checks and effect, the cases of `exec`, the
frame of every command, and the agenda of a step. -/

namespace Sys2Proof.Machine

/-- The checks of a command, in the order of rule R170. -/
def checksOf (i : Instr) (s : State) : List (Bool × CmdError) :=
  match i with
  | .palgray n => palgrayChecks n.toNat
  | .qnone => quantizerChecks s
  | .qfs => quantizerChecks s
  | .qatk => quantizerChecks s
  | .qpass => passChecks s
  | .enc1 p => encoderChecks 1 p s
  | .enc2 p => encoderChecks 2 p s
  | .enc4 p => encoderChecks 4 p s
  | .enc8 p => encoderChecks 8 p s
  | .enc24 p => encoderChecks 24 p s
  | .enc bpp p => encoderChecks bpp.toNat p s

/-- The state with a command's writes made. -/
def effectOf (i : Instr) (s : State) : State :=
  match i with
  | .palgray n =>
    s.setPalette (Memory.writeBlock s.pal 0 (grayRamp rounding n.toNat)) (BitVec.ofNat 32 n.toNat)
  | .qnone => quantizeEffect rounding [] s
  | .qfs => quantizeEffect rounding floydSteinbergKernel s
  | .qatk => quantizeEffect rounding atkinsonKernel s
  | .qpass => s.setPassed (copySource s)
  | .enc1 p => encodeEffect 1 p s
  | .enc2 p => encodeEffect 2 p s
  | .enc4 p => encodeEffect 4 p s
  | .enc8 p => encodeEffect 8 p s
  | .enc24 p => encodeEffect 24 p s
  | .enc bpp p => encodeEffect bpp.toNat p s

theorem exec_eq_runCommand (i : Instr) (s : State) : exec i s = runCommand (checksOf i s) (effectOf i s) s := by
  cases i <;> rfl

theorem exec_error {i : Instr} {s : State} {e : CmdError} (h : firstFailure (checksOf i s) = some e) :
    exec i s = .next (s.setPhase (.error e)) := by
  rw [exec_eq_runCommand, runCommand_error h]

theorem exec_done {i : Instr} {s : State} (h : firstFailure (checksOf i s) = none) :
    exec i s = .next ((effectOf i s).setPhase .done) := by
  rw [exec_eq_runCommand, runCommand_done h]

/-- Everything a command can do: its first failing check, or its whole effect (rule R70). -/
theorem exec_cases {i : Instr} {s t : State} (h : exec i s = .next t) :
    (∃ e, firstFailure (checksOf i s) = some e ∧ t = s.setPhase (.error e))
      ∨ (firstFailure (checksOf i s) = none ∧ t = (effectOf i s).setPhase .done) := by
  rw [exec_eq_runCommand] at h
  exact runCommand_cases h

/-- A command always answers a next state. -/
theorem exec_total (i : Instr) (s : State) : ∃ t, exec i s = .next t := by
  rw [exec_eq_runCommand]
  exact runCommand_total _ _ _

theorem exec_isBusy {i : Instr} {s t : State} (h : exec i s = .next t) : t.isBusy = false := by
  rcases exec_cases h with ⟨e, -, rfl⟩ | ⟨-, rfl⟩ <;> rfl

/-! ### What no effect touches -/

@[simp] theorem effectOf_src (i : Instr) (s : State) : (effectOf i s).src = s.src := by cases i <;> rfl
@[simp] theorem effectOf_srcLen (i : Instr) (s : State) : (effectOf i s).srcLen = s.srcLen := by cases i <;> rfl
@[simp] theorem effectOf_cfg (i : Instr) (s : State) : (effectOf i s).cfg = s.cfg := by cases i <;> rfl
@[simp] theorem effectOf_width (i : Instr) (s : State) : (effectOf i s).width = s.width := by cases i <;> rfl
@[simp] theorem effectOf_height (i : Instr) (s : State) : (effectOf i s).height = s.height := by cases i <;> rfl
@[simp] theorem effectOf_channels (i : Instr) (s : State) : (effectOf i s).channels = s.channels := by cases i <;> rfl
@[simp] theorem effectOf_agenda (i : Instr) (s : State) : (effectOf i s).agenda = s.agenda := by cases i <;> rfl
@[simp] theorem effectOf_resetAsserted (i : Instr) (s : State) : (effectOf i s).resetAsserted = s.resetAsserted := by
  cases i <;> rfl
@[simp] theorem effectOf_replies (i : Instr) (s : State) : (effectOf i s).replies = s.replies := by cases i <;> rfl
@[simp] theorem effectOf_freeCount (i : Instr) (s : State) : (effectOf i s).freeCount = s.freeCount := by cases i <;> rfl

/-! ### Sequencer, events, steps -/

theorem completeCommand_ok {w : Word} {i : Instr} (h : decode w = .ok i) (s : State) :
    completeCommand w s = exec i s := by simp [completeCommand, h]

theorem completeCommand_error {w : Word} {x : IllegalWord} (h : decode w = .error x) (s : State) :
    completeCommand w s = .next (s.setPhase (.error .illegalCommand)) := by simp [completeCommand, h, raise]

theorem sequencerMove_busy {s : State} {w : Word} (h : s.phase = .busy w) : sequencerMove s = completeCommand w s := by
  simp [sequencerMove, h]

theorem sequencerMove_still {s : State} (h : s.isBusy = false) : sequencerMove s = .next s := by
  unfold sequencerMove
  unfold State.isBusy at h
  split at h <;> simp_all

theorem busy_of_isBusy {s : State} (h : s.isBusy = true) : ∃ w, s.phase = .busy w := by
  unfold State.isBusy at h
  split at h <;> simp_all

/-- Everything the sequencer's move can do. -/
theorem sequencerMove_cases {s t : State} (h : sequencerMove s = .next t) :
    (s.isBusy = false ∧ t = s)
      ∨ (∃ w x, s.phase = .busy w ∧ decode w = .error x ∧ t = s.setPhase (.error .illegalCommand))
      ∨ (∃ w i, s.phase = .busy w ∧ decode w = .ok i ∧ exec i s = .next t) := by
  cases hb : s.isBusy with
  | false =>
    rw [sequencerMove_still hb] at h
    injection h with h
    exact .inl ⟨rfl, h.symm⟩
  | true =>
    obtain ⟨w, hw⟩ := busy_of_isBusy hb
    rw [sequencerMove_busy hw] at h
    cases hd : decode w with
    | error x =>
      rw [completeCommand_error hd] at h
      injection h with h
      exact .inr (.inl ⟨w, x, hw, hd, h.symm⟩)
    | ok i =>
      rw [completeCommand_ok hd] at h
      exact .inr (.inr ⟨w, i, hw, hd, h⟩)

theorem sequencerMove_total (s : State) : ∃ t, sequencerMove s = .next t := by
  cases hb : s.isBusy with
  | false => exact ⟨s, sequencerMove_still hb⟩
  | true =>
    obtain ⟨w, hw⟩ := busy_of_isBusy hb
    rw [sequencerMove_busy hw]
    cases hd : decode w with
    | error x => exact ⟨_, completeCommand_error hd s⟩
    | ok i => rw [completeCommand_ok hd]; exact exec_total i s

theorem sequencerMove_isBusy {s t : State} (h : sequencerMove s = .next t) : t.isBusy = false := by
  rcases sequencerMove_cases h with ⟨hb, rfl⟩ | ⟨w, x, -, -, rfl⟩ | ⟨w, i, -, -, he⟩
  · exact hb
  · rfl
  · exact exec_isBusy he

theorem exec_agenda {i : Instr} {s t : State} (h : exec i s = .next t) : t.agenda = s.agenda := by
  rcases exec_cases h with ⟨e, -, rfl⟩ | ⟨-, rfl⟩ <;> simp

theorem sequencerMove_agenda {s t : State} (h : sequencerMove s = .next t) : t.agenda = s.agenda := by
  rcases sequencerMove_cases h with ⟨-, rfl⟩ | ⟨w, x, -, -, rfl⟩ | ⟨w, i, -, -, he⟩
  · rfl
  · simp
  · exact exec_agenda he

theorem hostRegRead_agenda (r : Nat) (s : State) : (hostRegRead r s).agenda = s.agenda := by
  unfold hostRegRead
  split
  · split <;> rfl
  · rfl

theorem hostRegWrite_agenda (r : Nat) (v : Word) (s : State) : (hostRegWrite r v s).agenda = s.agenda := by
  unfold hostRegWrite
  split
  · rfl
  · split <;> rfl

theorem hostMemRead_agenda (sp : Space) (a : Nat) (s : State) : (hostMemRead sp a s).agenda = s.agenda := by
  unfold hostMemRead
  split <;> rfl

theorem runEvent_agenda {e : Event} {s t : State} (h : runEvent e s = .next t) : t.agenda = s.agenda := by
  cases e with
  | regRead r => injection h with h; rw [← h]; exact hostRegRead_agenda r s
  | regWrite r v => injection h with h; rw [← h]; exact hostRegWrite_agenda r v s
  | memRead sp a => injection h with h; rw [← h]; exact hostMemRead_agenda sp a s
  | completion => exact sequencerMove_agenda h
  | assertReset => injection h with h; rw [← h]; rfl
  | releaseReset => injection h with h; rw [← h]

theorem step_live {s : State} (hr : s.resetAsserted = false) : step s = liveStep s := by simp [step, hr]

theorem step_held {s : State} (hr : s.resetAsserted = true) : step s = .next (heldStep s) := by simp [step, hr]

theorem step_nil {s : State} (hr : s.resetAsserted = false) (h : s.agenda = []) : step s = sequencerMove s := by
  rw [step_live hr, liveStep, h]

theorem step_cons {s : State} {e : Event} {es : List Event} (hr : s.resetAsserted = false) (h : s.agenda = e :: es) :
    step s = runEvent e (s.setAgenda es) := by
  rw [step_live hr, liveStep, h]

theorem step_held_cons {s : State} {e : Event} {es : List Event} (hr : s.resetAsserted = true) (h : s.agenda = e :: es) :
    step s = .next (heldEvent e (resetInput true (s.setAgenda es))) := by
  rw [step_held hr, heldStep, h]

/-- Everything a step can do: with the reset input asserted, or the sequencer's move, or an event. -/
theorem step_cases {s t : State} (h : step s = .next t) :
    (s.resetAsserted = true ∧ t = heldStep s)
      ∨ (s.resetAsserted = false ∧ s.agenda = [] ∧ sequencerMove s = .next t)
      ∨ (s.resetAsserted = false ∧ ∃ e es, s.agenda = e :: es ∧ runEvent e (s.setAgenda es) = .next t) := by
  cases hr : s.resetAsserted with
  | true =>
    rw [step_held hr] at h
    injection h with h
    exact .inl ⟨rfl, h.symm⟩
  | false =>
    cases ha : s.agenda with
    | nil => exact .inr (.inl ⟨rfl, rfl, (step_nil hr ha).symm.trans h⟩)
    | cons e es => exact .inr (.inr ⟨rfl, e, es, rfl, (step_cons hr ha).symm.trans h⟩)

/-! ### Under the reset input -/

/-- Everything one event can do under the reset input: the state stays that of rule R33 at some level of the input, and only
the model's own record of the host's reads grows. -/
theorem heldEvent_cases (e : Event) (s : State) :
    ∃ level rs n, heldEvent e (resetInput true s) = { resetInput level s with replies := rs, freeCount := n } := by
  cases e with
  | regRead r => exact ⟨true, _, _, rfl⟩
  | memRead sp a =>
    simp only [heldEvent, hostMemRead]
    split
    · exact ⟨true, _, _, rfl⟩
    · exact ⟨true, _, _, rfl⟩
  | regWrite r v => exact ⟨true, _, _, rfl⟩
  | completion => exact ⟨true, _, _, rfl⟩
  | assertReset => exact ⟨true, _, _, rfl⟩
  | releaseReset => exact ⟨false, _, _, rfl⟩

/-- While the reset input is asserted every step leaves the block at the values of rule R33 (rule R190). -/
theorem heldStep_cases (s : State) :
    ∃ level es rs n, heldStep s = { State.reset with resetAsserted := level, agenda := es, replies := rs, freeCount := n } := by
  unfold heldStep
  cases s.agenda with
  | nil => exact ⟨true, _, _, _, rfl⟩
  | cons e es =>
    obtain ⟨level, rs, n, h⟩ := heldEvent_cases e (s.setAgenda es)
    exact ⟨level, es, rs, n, h⟩

theorem heldStep_isBusy (s : State) : (heldStep s).isBusy = false := by
  obtain ⟨level, es, rs, n, h⟩ := heldStep_cases s
  rw [h]
  rfl

theorem heldStep_agenda (s : State) : (heldStep s).agenda = s.agenda.tail := by
  unfold heldStep
  cases ha : s.agenda with
  | nil => exact ha
  | cons e es =>
    obtain ⟨level, rs, n, h⟩ := heldEvent_cases e (s.setAgenda es)
    show (heldEvent e (resetInput true (s.setAgenda es))).agenda = es
    rw [h]
    rfl

theorem runEvent_total (e : Event) (s : State) : ∃ t, runEvent e s = .next t := by
  cases e with
  | completion => exact sequencerMove_total s
  | regRead r => exact ⟨_, rfl⟩
  | regWrite r v => exact ⟨_, rfl⟩
  | memRead sp a => exact ⟨_, rfl⟩
  | assertReset => exact ⟨_, rfl⟩
  | releaseReset => exact ⟨_, rfl⟩

/-- A step always answers a next state. -/
theorem step_total (s : State) : ∃ t, step s = .next t := by
  cases hr : s.resetAsserted with
  | true => exact ⟨_, step_held hr⟩
  | false =>
    cases ha : s.agenda with
    | nil => rw [step_nil hr ha]; exact sequencerMove_total s
    | cons e es => rw [step_cons hr ha]; exact runEvent_total _ _

theorem core_run_zero (s : State) : Host.Core.run Sys2Proof.core 0 s = .next s := rfl

theorem core_run_succ {s t : State} (n : Nat) (h : step s = .next t) :
    Host.Core.run Sys2Proof.core (n + 1) s = Host.Core.run Sys2Proof.core n t := by
  have h' : Sys2Proof.core.step s = .next t := h
  simp only [Host.Core.run, h']

end Sys2Proof.Machine
end

