-- ==== Sys2Proof/Laws/Checks.lean ====
section
/-! SUPPORT. When the checks of a command pass and which one fails first, in numbers (rules R90, R121, R170), and that a
command looks neither at STATUS nor at what the host has read. -/

namespace Sys2Proof.Machine

theorem Geometry.legal_iff (g : Geometry) :
    g.legal = true ↔ 1 ≤ g.w ∧ g.w ≤ 4096 ∧ 1 ≤ g.h ∧ g.h ≤ 4096 ∧ (g.c = 3 ∨ g.c = 4) := by
  unfold Geometry.legal
  simp only [Bool.and_eq_true, Bool.or_eq_true, decide_eq_true_eq, beq_iff_eq, and_assoc]
  exact Iff.rfl

theorem State.depthEnabled_iff (s : State) (bpp : Nat) :
    s.depthEnabled bpp = true ↔ (bpp = 1 ∧ s.cfg.getLsbD 1 = true) ∨ (bpp = 2 ∧ s.cfg.getLsbD 2 = true)
      ∨ (bpp = 4 ∧ s.cfg.getLsbD 3 = true) ∨ (bpp = 8 ∧ s.cfg.getLsbD 4 = true)
      ∨ (bpp = 24 ∧ s.cfg.getLsbD 5 = true) := by
  unfold State.depthEnabled
  split_ifs <;> simp_all

theorem depth_cases {s : State} {bpp : Nat} (h : s.depthEnabled bpp = true) :
    bpp = 1 ∨ bpp = 2 ∨ bpp = 4 ∨ bpp = 8 ∨ bpp = 24 := by
  rcases (State.depthEnabled_iff s bpp).mp h with h | h | h | h | h <;> simp [h.1]

theorem sourceCheck_iff (p : PixelSource) (s : State) :
    (sourceCheck p s).1 = true ↔ (p = .src → s.srcLen.toNat = s.geometry.rasterBytes)
      ∧ (p = .work → s.workValid = true) ∧ (p = .idx → s.idxValid = true) := by
  cases p with
  | src => exact ⟨fun h => ⟨fun _ => of_decide_eq_true h, nofun, nofun⟩, fun h => decide_eq_true (h.1 rfl)⟩
  | work => exact ⟨fun h => ⟨nofun, fun _ => h, nofun⟩, fun h => h.2.1 rfl⟩
  | idx => exact ⟨fun h => ⟨nofun, nofun, fun _ => h⟩, fun h => h.2.2 rfl⟩

theorem palgrayChecks_none (n : Nat) : firstFailure (palgrayChecks n) = none ↔ 2 ≤ n ∧ n ≤ 256 := by
  rw [firstFailure_none]
  simp only [palgrayChecks, List.mem_singleton, forall_eq, Bool.and_eq_true, decide_eq_true_eq]
  exact Iff.rfl

theorem palgrayChecks_some {n : Nat} (h : ¬ (2 ≤ n ∧ n ≤ 256)) :
    firstFailure (palgrayChecks n) = some .invalidPaletteSize := by
  have h1 : (decide (2 ≤ n) && decide (n ≤ Config.palCap)) = false := by
    rw [Bool.eq_false_iff]
    intro h2
    rw [Bool.and_eq_true, decide_eq_true_eq, decide_eq_true_eq] at h2
    exact h h2
  simp [palgrayChecks, firstFailure, h1]

theorem quantizerRange_iff (s : State) :
    (s.geometry.legal && decide (s.palCount ≤ Config.palCap)) = true ↔ s.geometry.legal = true ∧ s.palCount ≤ 256 := by
  rw [Bool.and_eq_true, decide_eq_true_eq]
  exact Iff.rfl

theorem quantizerChecks_none (s : State) :
    firstFailure (quantizerChecks s) = none ↔ (s.geometry.legal = true ∧ s.palCount ≤ 256)
      ∧ s.srcLen.toNat = s.geometry.rasterBytes ∧ 1 ≤ s.palCount := by
  rw [firstFailure_none]
  simp only [quantizerChecks, List.mem_cons, List.not_mem_nil, or_false, forall_eq_or_imp, forall_eq,
    quantizerRange_iff, decide_eq_true_eq]

theorem quantizerChecks_range {s : State} (h : ¬ (s.geometry.legal = true ∧ s.palCount ≤ 256)) :
    firstFailure (quantizerChecks s) = some .parameterOutOfRange := by
  have h1 : (s.geometry.legal && decide (s.palCount ≤ Config.palCap)) = false := by
    rw [Bool.eq_false_iff]
    exact fun h2 => h ((quantizerRange_iff s).mp h2)
  simp [quantizerChecks, firstFailure, h1]

theorem quantizerChecks_size {s : State} (h : s.geometry.legal = true ∧ s.palCount ≤ 256)
    (h2 : s.srcLen.toNat ≠ s.geometry.rasterBytes) : firstFailure (quantizerChecks s) = some .invalidRasterSize := by
  simp [quantizerChecks, firstFailure, (quantizerRange_iff s).mpr h, decide_eq_false h2]

theorem quantizerChecks_palette {s : State} (h : s.geometry.legal = true ∧ s.palCount ≤ 256)
    (h2 : s.srcLen.toNat = s.geometry.rasterBytes) (h3 : s.palCount = 0) :
    firstFailure (quantizerChecks s) = some .invalidPalette := by
  have h4 : decide (1 ≤ s.palCount) = false := decide_eq_false (by omega)
  simp only [quantizerChecks, firstFailure, (quantizerRange_iff s).mpr h, decide_eq_true h2, h4, if_true]
  rfl

theorem passChecks_none (s : State) :
    firstFailure (passChecks s) = none ↔ s.geometry.legal = true ∧ s.srcLen.toNat = s.geometry.rasterBytes := by
  rw [firstFailure_none]
  simp only [passChecks, List.mem_cons, List.not_mem_nil, or_false, forall_eq_or_imp, forall_eq, decide_eq_true_eq]

theorem passChecks_range {s : State} (h : ¬ s.geometry.legal = true) :
    firstFailure (passChecks s) = some .parameterOutOfRange := by
  simp [passChecks, firstFailure, h]

theorem passChecks_size {s : State} (h : s.geometry.legal = true) (h2 : s.srcLen.toNat ≠ s.geometry.rasterBytes) :
    firstFailure (passChecks s) = some .invalidRasterSize := by
  simp [passChecks, firstFailure, h, decide_eq_false h2]

theorem legalEncoding_iff (bpp : Nat) (p : PixelSource) :
    (!(decide (bpp = 24) && p == .idx)) = true ↔ ¬ (bpp = 24 ∧ p = .idx) := by
  rw [Bool.not_eq_true', Bool.eq_false_iff, Ne, Bool.and_eq_true, decide_eq_true_eq, beq_iff_eq]

theorem palettePasses_iff (bpp : Nat) (s : State) :
    (decide (24 ≤ bpp) || (decide (1 ≤ s.palCount) && decide (s.palCount ≤ 2 ^ bpp))) = true
      ↔ (bpp < 24 → 1 ≤ s.palCount ∧ s.palCount ≤ 2 ^ bpp) := by
  rw [Bool.or_eq_true, Bool.and_eq_true, decide_eq_true_eq, decide_eq_true_eq, decide_eq_true_eq]
  constructor
  · rintro (h | h) hb
    · omega
    · exact h
  · intro h
    by_cases hb : 24 ≤ bpp
    · exact .inl hb
    · exact .inr (h (by omega))

theorem encoderChecks_none (bpp : Nat) (p : PixelSource) (s : State) :
    firstFailure (encoderChecks bpp p s) = none ↔ ¬ (bpp = 24 ∧ p = .idx) ∧ s.depthEnabled bpp = true
      ∧ (bpp < 24 → 1 ≤ s.palCount ∧ s.palCount ≤ 2 ^ bpp) ∧ s.geometry.legal = true ∧ (sourceCheck p s).1 = true := by
  rw [firstFailure_none]
  simp only [encoderChecks, List.mem_cons, List.not_mem_nil, or_false, forall_eq_or_imp, forall_eq,
    legalEncoding_iff, palettePasses_iff]

theorem encoderChecks_illegal {bpp : Nat} {p : PixelSource} {s : State} (h : bpp = 24 ∧ p = .idx) :
    firstFailure (encoderChecks bpp p s) = some .illegalCommand := by
  simp [encoderChecks, firstFailure, h]

theorem encoderChecks_depth {bpp : Nat} {p : PixelSource} {s : State} (h : ¬ (bpp = 24 ∧ p = .idx))
    (hd : ¬ s.depthEnabled bpp = true) : firstFailure (encoderChecks bpp p s) = some .unsupportedBitDepth := by
  simp only [encoderChecks, firstFailure, (legalEncoding_iff bpp p).mpr h, if_true, hd]
  rfl

theorem encoderChecks_palette {bpp : Nat} {p : PixelSource} {s : State} (h : ¬ (bpp = 24 ∧ p = .idx))
    (hd : s.depthEnabled bpp = true) (hp : ¬ (bpp < 24 → 1 ≤ s.palCount ∧ s.palCount ≤ 2 ^ bpp)) :
    firstFailure (encoderChecks bpp p s) = some .paletteSizeMismatch := by
  have h1 : ¬ (decide (24 ≤ bpp) || (decide (1 ≤ s.palCount) && decide (s.palCount ≤ 2 ^ bpp))) = true :=
    fun h2 => hp ((palettePasses_iff bpp s).mp h2)
  simp only [encoderChecks, firstFailure, (legalEncoding_iff bpp p).mpr h, if_true, hd, h1]
  rfl

theorem encoderChecks_range {bpp : Nat} {p : PixelSource} {s : State} (h : ¬ (bpp = 24 ∧ p = .idx))
    (hd : s.depthEnabled bpp = true) (hp : bpp < 24 → 1 ≤ s.palCount ∧ s.palCount ≤ 2 ^ bpp)
    (hg : ¬ s.geometry.legal = true) : firstFailure (encoderChecks bpp p s) = some .parameterOutOfRange := by
  simp only [encoderChecks, firstFailure, (legalEncoding_iff bpp p).mpr h, if_true, hd,
    (palettePasses_iff bpp s).mpr hp, hg]
  rfl

theorem sourceCheck_error (p : PixelSource) (s : State) :
    (sourceCheck p s).2 = if p = .src then .invalidRasterSize else .sourceNotReady := by
  cases p <;> rfl

theorem encoderChecks_source {bpp : Nat} {p : PixelSource} {s : State} (h : ¬ (bpp = 24 ∧ p = .idx))
    (hd : s.depthEnabled bpp = true) (hp : bpp < 24 → 1 ≤ s.palCount ∧ s.palCount ≤ 2 ^ bpp)
    (hg : s.geometry.legal = true) (hs : ¬ (sourceCheck p s).1 = true) :
    firstFailure (encoderChecks bpp p s) = some (if p = .src then .invalidRasterSize else .sourceNotReady) := by
  rw [← sourceCheck_error p s]
  generalize hc : sourceCheck p s = c at hs
  obtain ⟨ok, e⟩ := c
  simp only [encoderChecks, firstFailure, (legalEncoding_iff bpp p).mpr h, if_true, hd,
    (palettePasses_iff bpp s).mpr hp, hg, hc]
  simp_all

/-! ### A command looks at registers and memories only -/

/-- The file of an encoder command does not depend on the phase, the flags, SRC_LEN, OUT or the model's own fields. -/
theorem packRowOf_cases (P : (PixelSource → State → Nat → List Byte → List Byte) → Prop) (bpp : Nat)
    (h1 : P packRow1) (h2 : P packRow2) (h4 : P packRow4) (h8 : P packRow8) (h24 : P packRow24) : P (packRowOf bpp) := by
  unfold packRowOf
  split_ifs <;> assumption

theorem bmpFile_setPhase (bpp : Nat) (p : PixelSource) (ph : Phase) (s : State) :
    bmpFile bpp p (s.setPhase ph) = bmpFile bpp p s := by
  have h : packRowOf bpp p (s.setPhase ph) = packRowOf bpp p s :=
    packRowOf_cases (fun f => f p (s.setPhase ph) = f p s) bpp rfl rfl rfl rfl rfl
  have hr : storedRow bpp p (s.setPhase ph) = storedRow bpp p s := by
    funext r
    unfold storedRow
    rw [h]
    rfl
  unfold bmpFile pixelArray
  rw [hr]
  rfl

theorem effectOf_setPhase (i : Instr) (ph : Phase) (s : State) :
    effectOf i (s.setPhase ph) = (effectOf i s).setPhase ph := by
  cases i with
  | enc bpp p =>
    show encodeEffect bpp.toNat p (s.setPhase ph) = (encodeEffect bpp.toNat p s).setPhase ph
    unfold encodeEffect
    rw [bmpFile_setPhase]
    rfl
  | _ => rfl

theorem checksOf_setPhase (i : Instr) (ph : Phase) (s : State) : checksOf i (s.setPhase ph) = checksOf i s := by
  cases i <;> rfl

/-- A command does not look at STATUS: not at STATE, not at ERR. -/
theorem exec_setPhase (i : Instr) (ph : Phase) (s : State) : exec i (s.setPhase ph) = exec i s := by
  rw [exec_eq_runCommand, exec_eq_runCommand, checksOf_setPhase, effectOf_setPhase]
  unfold runCommand
  split <;> rfl

/-- The host's replies and the free-value counter replaced. -/
def State.setHostSide (rs : List Reply) (n : Nat) (s : State) : State := { s with replies := rs, freeCount := n }

theorem bmpFile_setHostSide (bpp : Nat) (p : PixelSource) (rs : List Reply) (n : Nat) (s : State) :
    bmpFile bpp p (s.setHostSide rs n) = bmpFile bpp p s := by
  have h : packRowOf bpp p (s.setHostSide rs n) = packRowOf bpp p s :=
    packRowOf_cases (fun f => f p (s.setHostSide rs n) = f p s) bpp rfl rfl rfl rfl rfl
  have hr : storedRow bpp p (s.setHostSide rs n) = storedRow bpp p s := by
    funext r
    unfold storedRow
    rw [h]
    rfl
  unfold bmpFile pixelArray
  rw [hr]
  rfl

theorem effectOf_setHostSide (i : Instr) (rs : List Reply) (n : Nat) (s : State) :
    effectOf i (s.setHostSide rs n) = (effectOf i s).setHostSide rs n := by
  cases i with
  | enc bpp p =>
    show encodeEffect bpp.toNat p (s.setHostSide rs n) = (encodeEffect bpp.toNat p s).setHostSide rs n
    unfold encodeEffect
    rw [bmpFile_setHostSide]
    rfl
  | _ => rfl

theorem checksOf_setHostSide (i : Instr) (rs : List Reply) (n : Nat) (s : State) :
    checksOf i (s.setHostSide rs n) = checksOf i s := by
  cases i <;> rfl

/-- A command does not look at what the host has read. -/
theorem exec_setHostSide {i : Instr} {s t : State} (rs : List Reply) (n : Nat) (h : exec i s = .next t) :
    exec i (s.setHostSide rs n) = .next (t.setHostSide rs n) := by
  rw [exec_eq_runCommand] at h ⊢
  rw [checksOf_setHostSide, effectOf_setHostSide]
  rcases runCommand_cases h with ⟨e, he, rfl⟩ | ⟨he, rfl⟩
  · rw [runCommand_error he]
    rfl
  · rw [runCommand_done he]
    rfl

theorem sequencerMove_setHostSide {s t : State} (rs : List Reply) (n : Nat) (h : sequencerMove s = .next t) :
    sequencerMove (s.setHostSide rs n) = .next (t.setHostSide rs n) := by
  rcases sequencerMove_cases h with ⟨hb, rfl⟩ | ⟨w, x, hp, hd, rfl⟩ | ⟨w, i, hp, hd, he⟩
  · exact sequencerMove_still hb
  · exact (sequencerMove_busy (s := s.setHostSide rs n) hp).trans (completeCommand_error hd _)
  · exact (sequencerMove_busy (s := s.setHostSide rs n) hp).trans
      ((completeCommand_ok hd _).trans (exec_setHostSide rs n he))

end Sys2Proof.Machine
end

