-- ==== Sys2Proof/Laws/Nearest.lean ====
section
/-! SUPPORT. The nearest colour (rules R92, R93): what the loop of `Nearest` answers, said once. -/

namespace Sys2Proof.Machine

theorem sqDiff_nonneg (a b : Byte) : 0 ≤ sqDiff a b := mul_self_nonneg _

theorem sqDiff_eq_zero {a b : Byte} (h : sqDiff a b = 0) : a = b := by
  have h1 : (a.toNat : Int) - b.toNat = 0 := mul_self_eq_zero.mp h
  exact BitVec.eq_of_toNat_eq (by omega)

theorem colourDist_nonneg (p q : Colour) : 0 ≤ colourDist p q :=
  add_nonneg (add_nonneg (sqDiff_nonneg _ _) (sqDiff_nonneg _ _)) (sqDiff_nonneg _ _)

theorem colourDist_self (p : Colour) : colourDist p p = 0 := by simp [colourDist, sqDiff]

theorem colourDist_eq_zero {p q : Colour} (h : colourDist p q = 0) : p = q := by
  have h1 := sqDiff_nonneg p.r q.r
  have h2 := sqDiff_nonneg p.g q.g
  have h3 := sqDiff_nonneg p.b q.b
  unfold colourDist at h
  have hr := sqDiff_eq_zero (a := p.r) (b := q.r) (by omega)
  have hg := sqDiff_eq_zero (a := p.g) (b := q.g) (by omega)
  have hb := sqDiff_eq_zero (a := p.b) (b := q.b) (by omega)
  cases p
  cases q
  simp_all

/-- `k` is the first entry of the palette among those nearest to `c`. -/
def isNearest (pal : List Colour) (c : Colour) (k : Nat) : Prop :=
  ∃ q : Colour, pal[k]? = some q ∧ (∀ (j : Nat) (p : Colour), pal[j]? = some p → colourDist c q ≤ colourDist c p)
    ∧ ∀ (j : Nat) (p : Colour), j < k → pal[j]? = some p → colourDist c q < colourDist c p

theorem isNearest_unique {pal : List Colour} {c : Colour} {j k : Nat} (hj : isNearest pal c j) (hk : isNearest pal c k) :
    j = k := by
  obtain ⟨p, hp, hp1, hp2⟩ := hj
  obtain ⟨q, hq, hq1, hq2⟩ := hk
  rcases Nat.lt_trichotomy j k with h | h | h
  · have := hq2 j p h hp
    have := hp1 k q hq
    omega
  · exact h
  · have := hp2 k q h hq
    have := hq1 j p hp
    omega

/-- The loop keeps: `best` is the nearest of the entries `pre` already seen. -/
theorem nearestFrom_isNearest (c : Colour) (ps pre : List Colour) (best : Nat) (b : Colour) (hb : pre[best]? = some b)
    (h : isNearest pre c best) : isNearest (pre ++ ps) c (nearestFrom c ps pre.length best (colourDist c b)) := by
  induction ps generalizing pre best b with
  | nil => simpa [nearestFrom] using h
  | cons p ps ih =>
    have hbl : best < pre.length := (List.getElem?_eq_some_iff.mp hb).1
    have happ : pre ++ p :: ps = (pre ++ [p]) ++ ps := by simp
    have hlen : pre.length + 1 = (pre ++ [p]).length := by simp
    obtain ⟨q, hq, h1, h2⟩ := h
    obtain rfl : b = q := by rw [hb] at hq; exact Option.some.inj hq
    have hcases : ∀ (j : Nat) (r : Colour), (pre ++ [p])[j]? = some r → pre[j]? = some r ∨ (j = pre.length ∧ r = p) := by
      intro j r hr
      rw [List.getElem?_append] at hr
      split at hr
      · exact .inl hr
      · rw [List.getElem?_singleton] at hr
        split at hr
        · exact .inr ⟨by omega, (Option.some.inj hr).symm⟩
        · cases hr
    unfold nearestFrom
    split
    · rename_i hlt
      rw [happ, hlen]
      refine ih (pre ++ [p]) pre.length p (by simp) ⟨p, by simp, fun j r hr => ?_, fun j r hj hr => ?_⟩
      · rcases hcases j r hr with hr | ⟨-, rfl⟩
        · have := h1 j r hr
          omega
        · exact le_refl _
      · rcases hcases j r hr with hr | ⟨hj', -⟩
        · have := h1 j r hr
          omega
        · omega
    · rename_i hge
      rw [happ, hlen]
      have hb' : (pre ++ [p])[best]? = some b := by rw [List.getElem?_append_left hbl]; exact hb
      refine ih (pre ++ [p]) best b hb' ⟨b, hb', fun j r hr => ?_, fun j r hj hr => ?_⟩
      · rcases hcases j r hr with hr | ⟨-, rfl⟩
        · exact h1 j r hr
        · omega
      · rcases hcases j r hr with hr | ⟨hj', -⟩
        · exact h2 j r hj hr
        · omega

/-- `Nearest` answers the first entry among those nearest to the colour (rules R92, R93). -/
theorem nearest_isNearest {pal : List Colour} (h : pal ≠ []) (c : Colour) : isNearest pal c (nearest pal c) := by
  cases pal with
  | nil => exact absurd rfl h
  | cons p ps =>
    have h0 : isNearest [p] c 0 := by
      refine ⟨p, rfl, fun j q hq => ?_, fun j q hj => by omega⟩
      rw [List.getElem?_singleton] at hq
      split at hq
      · cases hq
        exact le_refl _
      · cases hq
    exact nearestFrom_isNearest c ps [p] 0 p rfl h0

theorem nearest_lt {pal : List Colour} (h : pal ≠ []) (c : Colour) : nearest pal c < pal.length := by
  obtain ⟨q, hq, -⟩ := nearest_isNearest h c
  exact (List.getElem?_eq_some_iff.mp hq).1

theorem paletteAt_of_get {pal : List Colour} {k : Nat} {q : Colour} (h : pal[k]? = some q) : paletteAt pal k = q := by
  simp [paletteAt, h]

/-- The nearest entry to a palette colour holds that colour (rule R93). -/
theorem paletteAt_nearest_of_mem {pal : List Colour} {c : Colour} (h : c ∈ pal) : paletteAt pal (nearest pal c) = c := by
  obtain ⟨q, hq, h1, -⟩ := nearest_isNearest (List.ne_nil_of_mem h) c
  obtain ⟨j, hj⟩ := List.getElem?_of_mem h
  have h2 := h1 j c hj
  rw [colourDist_self] at h2
  rw [paletteAt_of_get hq]
  exact (colourDist_eq_zero (le_antisymm h2 (colourDist_nonneg _ _))).symm

/-- The nearest entry to a colour `Nearest` has chosen is the entry it was chosen from. -/
theorem nearest_paletteAt_nearest {pal : List Colour} (h : pal ≠ []) (c : Colour) :
    nearest pal (paletteAt pal (nearest pal c)) = nearest pal c := by
  obtain ⟨q, hq, h1, h2⟩ := nearest_isNearest h c
  rw [paletteAt_of_get hq]
  refine isNearest_unique (nearest_isNearest h q) ⟨q, hq, fun j p _ => ?_, fun j p hj hp => ?_⟩
  · rw [colourDist_self]
    exact colourDist_nonneg _ _
  · rw [colourDist_self]
    have h3 := h2 j p hj hp
    have h4 := colourDist_nonneg q p
    rcases h4.lt_or_eq with h5 | h5
    · exact h5
    · rw [colourDist_eq_zero h5.symm] at h3
      omega

end Sys2Proof.Machine
end

