-- ==== Sys2Proof/Laws/Scan.lean ====
section
/-! SUPPORT. The quantizer's scan as one loop over pixel numbers `n = y*W + x` (rules R44, R45, R94): what a pixel step
can touch, and what holds of WORK and IDX after any number of steps. -/

namespace Sys2Proof.Machine

/-! ### Addresses -/

theorem pixAddr_eq (g : Geometry) (x y ch : Nat) : g.pixAddr x y ch = g.idxAddr x y * g.c + ch := rfl

theorem idxAddr_lt {g : Geometry} {x y : Nat} (hx : x < g.w) (hy : y < g.h) : g.idxAddr x y < g.h * g.w := by
  unfold Geometry.idxAddr
  calc y * g.w + x < y * g.w + g.w := by omega
    _ = (y + 1) * g.w := by rw [Nat.succ_mul]
    _ ≤ g.h * g.w := Nat.mul_le_mul_right _ hy

theorem idxAddr_mod {g : Geometry} {x y : Nat} (hx : x < g.w) : g.idxAddr x y % g.w = x := by
  unfold Geometry.idxAddr
  rw [Nat.mul_comm, Nat.mul_add_mod, Nat.mod_eq_of_lt hx]

theorem idxAddr_div {g : Geometry} {x y : Nat} (hx : x < g.w) : g.idxAddr x y / g.w = y := by
  unfold Geometry.idxAddr
  rw [Nat.mul_comm, Nat.mul_add_div (by omega), Nat.div_eq_of_lt hx, Nat.add_zero]

theorem idxAddr_mod_div (g : Geometry) (n : Nat) : g.idxAddr (n % g.w) (n / g.w) = n := by
  unfold Geometry.idxAddr
  rw [Nat.mul_comm]
  exact Nat.div_add_mod n g.w

theorem pixels_eq (g : Geometry) : g.pixels = g.h * g.w := Nat.mul_comm _ _

theorem rasterBytes_eq (g : Geometry) : g.rasterBytes = g.pixels * g.c := rfl

/-- A byte number of a pixel, taken apart. -/
theorem byte_div {c n ch : Nat} (h : ch < c) : (n * c + ch) / c = n := by
  rw [Nat.mul_comm, Nat.mul_add_div (by omega), Nat.div_eq_of_lt h, Nat.add_zero]

theorem byte_mod {c n ch : Nat} (h : ch < c) : (n * c + ch) % c = ch := by
  rw [Nat.mul_comm, Nat.mul_add_mod, Nat.mod_eq_of_lt h]

theorem byte_inj {c n m a b : Nat} (ha : a < c) (hb : b < c) (h : n * c + a = m * c + b) : n = m ∧ a = b := by
  have h1 := byte_div (n := n) ha
  have h2 := byte_mod (n := n) ha
  rw [h, byte_div hb] at h1
  rw [h, byte_mod hb] at h2
  exact ⟨h1.symm, h2.symm⟩

theorem byte_lt {c n k ch : Nat} (hn : n < k) (hc : ch < c) : n * c + ch < k * c := by
  calc n * c + ch < n * c + c := by omega
    _ = (n + 1) * c := by rw [Nat.succ_mul]
    _ ≤ k * c := Nat.mul_le_mul_right _ hn

theorem colourAt_congr {f g : Nat → Byte} {a : Nat} (h : ∀ i, i < 3 → f (a + i) = g (a + i)) : colourAt f a = colourAt g a := by
  unfold colourAt
  have h0 := h 0 (by omega)
  rw [Nat.add_zero] at h0
  rw [h0, h 1 (by omega), h 2 (by omega)]

/-! ### What a pixel step writes -/

/-- Where a tap sends its share. -/
def Tap.target (t : Tap) (g : Geometry) (x y ch : Nat) : Nat :=
  g.pixAddr ((x : Int) + t.dx).toNat ((y : Int) + t.dy).toNat ch

theorem Tap.inside_iff (t : Tap) (g : Geometry) (x y : Nat) :
    t.inside g x y = true ↔ 0 ≤ (x : Int) + t.dx ∧ (x : Int) + t.dx < g.w ∧ 0 ≤ (y : Int) + t.dy
      ∧ (y : Int) + t.dy < g.h := by
  simp [Tap.inside, and_assoc]

theorem diffuseTap_outside {R : Config.Rounding} {g : Geometry} {x y ch : Nat} {e : Int} {t : Tap} {m : Memory Byte}
    (h : ¬ t.inside g x y = true) : diffuseTap R g x y ch e t m = m := by
  unfold diffuseTap
  rw [if_neg h]

theorem diffuseTap_inside {R : Config.Rounding} {g : Geometry} {x y ch : Nat} {e : Int} {t : Tap} {m : Memory Byte}
    (h : t.inside g x y = true) : diffuseTap R g x y ch e t m
      = Memory.write m (t.target g x y ch)
          (BitVec.ofNat 8 (R.diffuse (workRead m (t.target g x y ch)).toNat e t.num t.den)) := by
  unfold diffuseTap
  rw [if_pos h]
  rfl

/-- A property of WORK that every write to a colour byte of the raster keeps is kept by a pixel step. -/
theorem diffuseChannel_keeps {R : Config.Rounding} {kernel : List Tap} {g : Geometry} {x y ch : Nat} {e : Int}
    (Q : Memory Byte → Prop)
    (hQ : ∀ t ∈ kernel, t.inside g x y = true → ∀ m v, Q m → Q (Memory.write m (t.target g x y ch) v))
    (m : Memory Byte) (h : Q m) : Q (diffuseChannel R kernel g x y ch e m) := by
  unfold diffuseChannel
  induction kernel generalizing m with
  | nil => exact h
  | cons t ts ih =>
    rw [List.foldl_cons]
    refine ih (fun t ht => hQ t (List.mem_cons_of_mem _ ht)) _ ?_
    by_cases hi : t.inside g x y = true
    · rw [diffuseTap_inside hi]
      exact hQ t List.mem_cons_self hi m _ h
    · rw [diffuseTap_outside hi]
      exact h

/-- The three diffusions of a pixel step. -/
def diffuseColour (R : Config.Rounding) (kernel : List Tap) (g : Geometry) (x y : Nat) (old new : Colour)
    (m : Memory Byte) : Memory Byte :=
  diffuseChannel R kernel g x y 2 (channelError old.b new.b)
    (diffuseChannel R kernel g x y 1 (channelError old.g new.g)
      (diffuseChannel R kernel g x y 0 (channelError old.r new.r) m))

/-- The colour a pixel step finds at `(x, y)`. -/
def oldColour (g : Geometry) (x y : Nat) (sc : Scan) : Colour := colourAt (workRead sc.work) (g.pixAddr x y 0)

theorem pixelStep_work (R : Config.Rounding) (kernel : List Tap) (pal : List Colour) (g : Geometry) (x y : Nat)
    (sc : Scan) : (pixelStep R kernel pal g x y sc).work
      = diffuseColour R kernel g x y (oldColour g x y sc) (paletteAt pal (nearest pal (oldColour g x y sc)))
          (writeColour sc.work (g.pixAddr x y 0) (paletteAt pal (nearest pal (oldColour g x y sc)))) := rfl

theorem pixelStep_idx (R : Config.Rounding) (kernel : List Tap) (pal : List Colour) (g : Geometry) (x y : Nat)
    (sc : Scan) : (pixelStep R kernel pal g x y sc).idx
      = Memory.write sc.idx (g.idxAddr x y) (BitVec.ofNat 8 (nearest pal (oldColour g x y sc))) := rfl

theorem diffuseColour_keeps {R : Config.Rounding} {kernel : List Tap} {g : Geometry} {x y : Nat} {old new : Colour}
    (Q : Memory Byte → Prop)
    (hQ : ∀ t ∈ kernel, t.inside g x y = true → ∀ ch, ch < 3 → ∀ m v, Q m → Q (Memory.write m (t.target g x y ch) v))
    (m : Memory Byte) (h : Q m) : Q (diffuseColour R kernel g x y old new m) :=
  diffuseChannel_keeps Q (fun t ht hi => hQ t ht hi 2 (by omega)) _
    (diffuseChannel_keeps Q (fun t ht hi => hQ t ht hi 1 (by omega)) _
      (diffuseChannel_keeps Q (fun t ht hi => hQ t ht hi 0 (by omega)) _ h))

theorem writeColour_keeps {g : Geometry} {x y : Nat} {c : Colour} (Q : Memory Byte → Prop)
    (hQ : ∀ ch, ch < 3 → ∀ m v, Q m → Q (Memory.write m (g.pixAddr x y ch) v))
    (m : Memory Byte) (h : Q m) : Q (writeColour m (g.pixAddr x y 0) c) :=
  hQ 2 (by omega) _ _ (hQ 1 (by omega) _ _ (hQ 0 (by omega) _ _ h))

theorem tap_target_lt {t : Tap} {g : Geometry} {x y : Nat} (h : t.inside g x y = true) :
    ((x : Int) + t.dx).toNat < g.w ∧ ((y : Int) + t.dy).toNat < g.h := by
  rw [Tap.inside_iff] at h
  omega

/-- A property of WORK that every write to a colour byte of the raster keeps is kept by a pixel step. -/
theorem pixelStep_keeps {R : Config.Rounding} {kernel : List Tap} {pal : List Colour} {g : Geometry} {x y : Nat}
    (hx : x < g.w) (hy : y < g.h) (Q : Memory Byte → Prop)
    (hQ : ∀ n ch, n < g.pixels → ch < 3 → ∀ m v, Q m → Q (Memory.write m (n * g.c + ch) v))
    (sc : Scan) (h : Q sc.work) : Q (pixelStep R kernel pal g x y sc).work := by
  rw [pixelStep_work]
  refine diffuseColour_keeps Q (fun t ht hi ch hch m v hm => ?_) _ (writeColour_keeps Q (fun ch hch m v hm => ?_) _ h)
  · have hl := tap_target_lt hi
    exact hQ _ ch (by rw [pixels_eq]; exact idxAddr_lt hl.1 hl.2) hch m v hm
  · exact hQ _ ch (by rw [pixels_eq]; exact idxAddr_lt hx hy) hch m v hm

/-! ### The scan -/

/-- The scan after its first `n` pixel steps. -/
def scanTo (R : Config.Rounding) (kernel : List Tap) (pal : List Colour) (g : Geometry) (sc : Scan) (n : Nat) : Scan :=
  forRange n (fun n sc => pixelStep R kernel pal g (n % g.w) (n / g.w) sc) sc

theorem scanTo_zero (R : Config.Rounding) (kernel : List Tap) (pal : List Colour) (g : Geometry) (sc : Scan) :
    scanTo R kernel pal g sc 0 = sc := rfl

theorem scanTo_succ (R : Config.Rounding) (kernel : List Tap) (pal : List Colour) (g : Geometry) (sc : Scan) (n : Nat) :
    scanTo R kernel pal g sc (n + 1)
      = pixelStep R kernel pal g (n % g.w) (n / g.w) (scanTo R kernel pal g sc n) := rfl

theorem scanPixels_eq (R : Config.Rounding) (kernel : List Tap) (pal : List Colour) {g : Geometry} (hw : 0 < g.w)
    (sc : Scan) : scanPixels R kernel pal g sc = scanTo R kernel pal g sc g.pixels := by
  unfold scanPixels scanTo
  rw [forRange_nested g.h hw (fun x y sc => pixelStep R kernel pal g x y sc), pixels_eq]

theorem pixel_mod_lt {g : Geometry} {n : Nat} (h : n < g.pixels) : n % g.w < g.w := by
  refine Nat.mod_lt _ (Nat.pos_of_ne_zero (fun h0 => ?_))
  rw [pixels_eq, h0, Nat.mul_zero] at h
  omega

theorem pixel_div_lt {g : Geometry} {n : Nat} (h : n < g.pixels) : n / g.w < g.h := by
  have hw : 0 < g.w := by
    have := pixel_mod_lt h
    omega
  rw [Nat.div_lt_iff_lt_mul hw]
  rwa [pixels_eq] at h

/-- A property of WORK that every write to a colour byte of the raster keeps is kept by the scan. -/
theorem scanTo_keeps {R : Config.Rounding} {kernel : List Tap} {pal : List Colour} {g : Geometry} (Q : Memory Byte → Prop)
    (hQ : ∀ n ch, n < g.pixels → ch < 3 → ∀ m v, Q m → Q (Memory.write m (n * g.c + ch) v))
    (sc : Scan) (h : Q sc.work) {n : Nat} (hn : n ≤ g.pixels) : Q (scanTo R kernel pal g sc n).work := by
  induction n with
  | zero => exact h
  | succ n ih =>
    rw [scanTo_succ]
    exact pixelStep_keeps (pixel_mod_lt hn) (pixel_div_lt hn) Q hQ _ (ih (by omega))

/-- A property of IDX that every write to an index of the raster keeps is kept by the scan. -/
theorem scanTo_keeps_idx {R : Config.Rounding} {kernel : List Tap} {pal : List Colour} {g : Geometry}
    (Q : Memory Byte → Prop) (hQ : ∀ n, n < g.pixels → ∀ m v, Q m → Q (Memory.write m n v))
    (sc : Scan) (h : Q sc.idx) {n : Nat} (hn : n ≤ g.pixels) : Q (scanTo R kernel pal g sc n).idx := by
  induction n with
  | zero => exact h
  | succ n ih =>
    rw [scanTo_succ, pixelStep_idx, idxAddr_mod_div]
    exact hQ n hn _ _ (ih (by omega))

/-- A byte that is no colour byte of the raster (alpha, or above the raster) keeps its value. -/
theorem scanTo_other {R : Config.Rounding} {kernel : List Tap} {pal : List Colour} {g : Geometry} (sc : Scan) {n a : Nat}
    (hn : n ≤ g.pixels) (h : ∀ k ch, k < g.pixels → ch < 3 → k * g.c + ch ≠ a) :
    workRead (scanTo R kernel pal g sc n).work a = workRead sc.work a :=
  scanTo_keeps (fun m => workRead m a = workRead sc.work a)
    (fun k ch hk hch m v hm => (Memory.read_write_other _ m v (h k ch hk hch)).trans hm) sc rfl hn

/-- The index the scan writes at pixel `k`, once it has passed it. -/
theorem scanTo_lookup_idx {R : Config.Rounding} {kernel : List Tap} {pal : List Colour} {g : Geometry} (sc : Scan)
    (n k : Nat) : Memory.lookup (scanTo R kernel pal g sc n).idx k
      = if k < n then some (BitVec.ofNat 8 (nearest pal (colourAt (workRead (scanTo R kernel pal g sc k).work) (k * g.c))))
        else Memory.lookup sc.idx k := by
  induction n with
  | zero => rfl
  | succ n ih =>
    rw [scanTo_succ, pixelStep_idx, idxAddr_mod_div, Memory.lookup_write, ih]
    by_cases hk : n = k
    · subst hk
      rw [if_pos rfl, if_pos (by omega), oldColour, pixAddr_eq, idxAddr_mod_div, Nat.add_zero]
    · rw [if_neg hk]
      by_cases h2 : k < n
      · rw [if_pos h2, if_pos (by omega)]
      · rw [if_neg h2, if_neg (by omega)]

/-! ### Kernels that point forward -/

/-- Every neighbour of a kernel comes later in the scan. -/
def forwardKernel (kernel : List Tap) : Prop := ∀ t ∈ kernel, 0 < t.dy ∨ (t.dy = 0 ∧ 0 < t.dx)

theorem forward_nil : forwardKernel [] := nofun

theorem forward_floydSteinberg : forwardKernel floydSteinbergKernel := by
  unfold forwardKernel
  decide

theorem forward_atkinson : forwardKernel atkinsonKernel := by
  unfold forwardKernel
  decide

theorem forward_target {t : Tap} {g : Geometry} {x y : Nat} (ht : 0 < t.dy ∨ (t.dy = 0 ∧ 0 < t.dx))
    (hx : x < g.w) (h : t.inside g x y = true) :
    g.idxAddr x y < g.idxAddr ((x : Int) + t.dx).toNat ((y : Int) + t.dy).toNat := by
  rw [Tap.inside_iff] at h
  unfold Geometry.idxAddr
  rcases ht with hdy | ⟨hdy, hdx⟩
  · have h1 : (y + 1) * g.w ≤ ((y : Int) + t.dy).toNat * g.w := Nat.mul_le_mul_right _ (by omega)
    rw [Nat.succ_mul] at h1
    omega
  · have h1 : ((y : Int) + t.dy).toNat = y := by omega
    rw [h1]
    omega

/-- A pixel step leaves the bytes of every earlier pixel alone. -/
theorem pixelStep_earlier {R : Config.Rounding} {kernel : List Tap} (hk : forwardKernel kernel) {pal : List Colour}
    {g : Geometry} {x y : Nat} (hx : x < g.w) (hc : 3 ≤ g.c) (sc : Scan) {k ch : Nat} (hkn : k < g.idxAddr x y)
    (hch : ch < g.c) :
    workRead (pixelStep R kernel pal g x y sc).work (k * g.c + ch) = workRead sc.work (k * g.c + ch) := by
  rw [pixelStep_work]
  refine diffuseColour_keeps (fun m => workRead m (k * g.c + ch) = workRead sc.work (k * g.c + ch))
    (fun t ht hi ch' hch' m v hm => ?_) _
    (writeColour_keeps (fun m => workRead m (k * g.c + ch) = workRead sc.work (k * g.c + ch))
      (fun ch' hch' m v hm => ?_) _ rfl)
  · refine (Memory.read_write_other _ m v (fun heq => ?_)).trans hm
    have h1 := (byte_inj (by omega) hch ((pixAddr_eq g _ _ ch').symm.trans heq)).1
    have h2 := forward_target (hk t ht) hx hi
    omega
  · refine (Memory.read_write_other _ m v (fun heq => ?_)).trans hm
    have h1 := (byte_inj (by omega) hch ((pixAddr_eq g _ _ ch').symm.trans heq)).1
    omega

theorem writeColour_read {g : Geometry} (m : Memory Byte) (n : Nat) (c : Colour) :
    colourAt (workRead (writeColour m (n * g.c) c)) (n * g.c) = c := by
  simp [colourAt, writeColour, workRead, Memory.read_write]

/-- After its pixel step a pixel holds the palette colour chosen for it. -/
theorem pixelStep_own {R : Config.Rounding} {kernel : List Tap} (hk : forwardKernel kernel) {pal : List Colour}
    {g : Geometry} {x y : Nat} (hx : x < g.w) (hc : 3 ≤ g.c) (sc : Scan) :
    colourAt (workRead (pixelStep R kernel pal g x y sc).work) (g.idxAddr x y * g.c)
      = paletteAt pal (nearest pal (oldColour g x y sc)) := by
  rw [pixelStep_work]
  refine diffuseColour_keeps (fun m => colourAt (workRead m) (g.idxAddr x y * g.c) = _)
    (fun t ht hi ch hch m v hm => ?_) _ (writeColour_read _ _ _)
  rw [← hm]
  refine colourAt_congr (fun i hi' => Memory.read_write_other _ m v (fun heq => ?_))
  have h1 := (byte_inj (by omega) (by omega) ((pixAddr_eq g _ _ ch).symm.trans heq)).1
  have h2 := forward_target (hk t ht) hx hi
  omega

/-- What the scan leaves at a pixel it has passed: the palette colour of its index. -/
theorem scanTo_colour {R : Config.Rounding} {kernel : List Tap} (hk : forwardKernel kernel) {pal : List Colour}
    {g : Geometry} (hc : 3 ≤ g.c) (sc : Scan) {n k : Nat} (hkn : k < n) (hn : n ≤ g.pixels) :
    colourAt (workRead (scanTo R kernel pal g sc n).work) (k * g.c)
      = paletteAt pal (nearest pal (colourAt (workRead (scanTo R kernel pal g sc k).work) (k * g.c))) := by
  induction n with
  | zero => omega
  | succ n ih =>
    rw [scanTo_succ]
    have hx := pixel_mod_lt hn
    by_cases h : k = n
    · subst h
      have := pixelStep_own (R := R) hk (pal := pal) (y := k / g.w) hx hc (scanTo R kernel pal g sc k)
      rw [idxAddr_mod_div] at this
      rw [this, oldColour, pixAddr_eq, idxAddr_mod_div, Nat.add_zero]
    · rw [← ih (by omega) (by omega)]
      exact colourAt_congr (fun i hi => pixelStep_earlier hk hx hc _ (by rw [idxAddr_mod_div]; omega) (by omega))

/-! ### The initial copy -/

theorem sourceBytes_length (s : State) : (sourceBytes s).length = s.geometry.rasterBytes := by simp [sourceBytes]

theorem copySource_inside (s : State) {a : Nat} (h : a < s.geometry.rasterBytes) :
    workRead (copySource s) a = srcRead s.src a := by
  unfold workRead copySource
  rw [Memory.read_writeBlock_zero _ _ _ _ (by rw [sourceBytes_length]; exact h)]
  simp [sourceBytes]

theorem copySource_outside (s : State) {a : Nat} (h : s.geometry.rasterBytes ≤ a) :
    workRead (copySource s) a = workRead s.work a := by
  unfold workRead copySource
  exact Memory.read_writeBlock_outside _ _ _ _ _ (.inr (by rw [sourceBytes_length]; omega))

theorem copySource_colour (s : State) (hc : 3 ≤ s.geometry.c) {n : Nat} (h : n < s.geometry.pixels) :
    colourAt (workRead (copySource s)) (n * s.geometry.c) = colourAt (srcRead s.src) (n * s.geometry.c) := by
  refine colourAt_congr (fun i hi => copySource_inside s ?_)
  rw [rasterBytes_eq]
  exact byte_lt h (by omega)

end Sys2Proof.Machine
end

