-- ==== Sys2Proof/Laws/Diffusion.lean ====
section
/-! SUPPORT. Error diffusion seen from the pixel that receives it (rules R95 to R99): the value of a channel after any
number of pixel steps is its value before the scan with the shares of the passed pixels added one after another. -/

namespace Sys2Proof.Machine

/-! ### Rounding -/

theorem diffuse_le (v : Nat) (e : Int) (num den : Nat) : diffuse v e num den ≤ 255 := by
  unfold diffuse
  simp only
  split <;> omega

theorem diffuse_toNat (v : Nat) (e : Int) (num den : Nat) :
    (BitVec.ofNat 8 (diffuse v e num den)).toNat = diffuse v e num den := by
  have := diffuse_le v e num den
  rw [BitVec.toNat_ofNat]
  omega

/-- No error, no change (rule R107). -/
theorem diffuse_zero {v num den : Nat} (hv : v ≤ 255) (hd : 0 < den) : diffuse v 0 num den = v := by
  unfold diffuse
  simp only [mul_zero, add_zero]
  have h0 : (0 : Int) ≤ (den : Int) * v := by positivity
  rw [if_neg (by omega), Int.mul_ediv_cancel_left _ (by omega)]
  omega

/-! ### One pixel step -/

/-- Channel `ch` of a colour (rule R44). -/
def chanOf (c : Colour) (ch : Nat) : Byte := if ch = 0 then c.r else if ch = 1 then c.g else c.b

theorem chanOf_colourAt (f : Nat → Byte) (a : Nat) {ch : Nat} (h : ch < 3) : chanOf (colourAt f a) ch = f (a + ch) := by
  have : ch = 0 ∨ ch = 1 ∨ ch = 2 := by omega
  rcases this with rfl | rfl | rfl <;> rfl

/-- The shares that pixel `(x, y)` sends to pixel `(u, v)`: one `Diffuse` for each tap that points there. -/
def sentShares (kernel : List Tap) (x y u v : Nat) (e : Int) (val : Nat) : Nat :=
  kernel.foldl (fun val t => if (x : Int) + t.dx = u ∧ (y : Int) + t.dy = v then diffuse val e t.num t.den else val) val

theorem diffuseChannel_receives {kernel : List Tap} {g : Geometry} {x y u v ch : Nat} {e : Int} (hu : u < g.w) (hv : v < g.h)
    (hc : ch < g.c) (m : Memory Byte) :
    (workRead (diffuseChannel rounding kernel g x y ch e m) (g.pixAddr u v ch)).toNat
      = sentShares kernel x y u v e (workRead m (g.pixAddr u v ch)).toNat := by
  unfold diffuseChannel sentShares
  induction kernel generalizing m with
  | nil => rfl
  | cons t ts ih =>
    rw [List.foldl_cons, List.foldl_cons, ih]
    congr 1
    by_cases hi : t.inside g x y = true
    · have hl := tap_target_lt hi
      rw [diffuseTap_inside hi]
      rw [Tap.inside_iff] at hi
      by_cases hh : (x : Int) + t.dx = u ∧ (y : Int) + t.dy = v
      · have ht : t.target g x y ch = g.pixAddr u v ch := by
          unfold Tap.target
          rw [hh.1, hh.2]
          rfl
        rw [if_pos hh, ht, workRead, Memory.read_write_same]
        exact diffuse_toNat _ _ _ _
      · rw [if_neg hh]
        refine congrArg BitVec.toNat (Memory.read_write_other _ m _ (fun heq => ?_))
        have h1 := (byte_inj hc hc ((pixAddr_eq g _ _ ch).symm.trans (heq.trans (pixAddr_eq g u v ch)))).1
        have h2 := congrArg (· % g.w) h1
        have h3 := congrArg (· / g.w) h1
        simp only [idxAddr_mod hl.1, idxAddr_mod hu] at h2
        simp only [idxAddr_div hl.1, idxAddr_div hu] at h3
        omega
    · rw [diffuseTap_outside hi, if_neg]
      rw [Tap.inside_iff] at hi
      omega

theorem diffuseChannel_otherChannel {R : Config.Rounding} {kernel : List Tap} {g : Geometry} {x y u v ch ch' : Nat} {e : Int}
    (hc : ch < g.c) (hc' : ch' < g.c) (h : ch ≠ ch') (m : Memory Byte) :
    workRead (diffuseChannel R kernel g x y ch' e m) (g.pixAddr u v ch) = workRead m (g.pixAddr u v ch) :=
  diffuseChannel_keeps (fun m' => workRead m' (g.pixAddr u v ch) = workRead m (g.pixAddr u v ch))
    (fun _ _ _ m' b hm => (Memory.read_write_other _ m' b (fun heq => h
      (byte_inj hc' hc ((pixAddr_eq g _ _ ch').symm.trans (heq.trans (pixAddr_eq g u v ch)))).2.symm)).trans hm) m rfl

/-- What a pixel step does to channel `ch` of another pixel `(u, v)`. -/
theorem pixelStep_receives {kernel : List Tap} {pal : List Colour} {g : Geometry} {x y u v ch : Nat} (hc3 : 3 ≤ g.c)
    (hu : u < g.w) (hv : v < g.h) (hch : ch < 3) (hne : g.idxAddr x y ≠ g.idxAddr u v) (sc : Scan) :
    (workRead (pixelStep rounding kernel pal g x y sc).work (g.pixAddr u v ch)).toNat
      = sentShares kernel x y u v
          (channelError (chanOf (oldColour g x y sc) ch) (chanOf (paletteAt pal (nearest pal (oldColour g x y sc))) ch))
          (workRead sc.work (g.pixAddr u v ch)).toNat := by
  rw [pixelStep_work]
  generalize paletteAt pal (nearest pal (oldColour g x y sc)) = new
  generalize oldColour g x y sc = old
  have hw : workRead (writeColour sc.work (g.pixAddr x y 0) new) (g.pixAddr u v ch)
      = workRead sc.work (g.pixAddr u v ch) :=
    writeColour_keeps (fun m => workRead m (g.pixAddr u v ch) = workRead sc.work (g.pixAddr u v ch))
      (fun i hi m b hm => (Memory.read_write_other _ m b (fun heq => hne
        (byte_inj (c := g.c) (by omega) (by omega) ((pixAddr_eq g x y i).symm.trans (heq.trans (pixAddr_eq g u v ch)))).1)).trans hm) _ rfl
  have hcases : ch = 0 ∨ ch = 1 ∨ ch = 2 := by omega
  unfold diffuseColour
  have h0 : 0 < g.c := by omega
  have h1 : 1 < g.c := by omega
  have h2 : 2 < g.c := by omega
  rcases hcases with rfl | rfl | rfl
  · rw [diffuseChannel_otherChannel h0 h2 (by omega), diffuseChannel_otherChannel h0 h1 (by omega),
      diffuseChannel_receives hu hv h0, hw]
    rfl
  · rw [diffuseChannel_otherChannel h1 h2 (by omega), diffuseChannel_receives hu hv h1,
      diffuseChannel_otherChannel h1 h0 (by omega), hw]
    rfl
  · rw [diffuseChannel_receives hu hv h2, diffuseChannel_otherChannel h2 h1 (by omega),
      diffuseChannel_otherChannel h2 h0 (by omega), hw]
    rfl

/-! ### Folds over a kernel -/

/-- A fold in which no element acts. -/
theorem foldl_noop {α β : Type} (P : α → Prop) [DecidablePred P] (D : β → α → β) (L : List α) (h : ∀ a ∈ L, ¬ P a) (v : β) :
    L.foldl (fun v a => if P a then D v a else v) v = v := by
  induction L generalizing v with
  | nil => rfl
  | cons a L ih =>
    rw [List.foldl_cons, if_neg (h a List.mem_cons_self)]
    exact ih (fun b hb => h b (List.mem_cons_of_mem _ hb)) v

/-- With at most one acting element the order of a fold does not matter. -/
theorem foldl_reverse_of_unique {α β : Type} (P : α → Prop) [DecidablePred P] (D : β → α → β) (L : List α)
    (h : L.Pairwise (fun a b => ¬ (P a ∧ P b))) (v : β) :
    L.reverse.foldl (fun v a => if P a then D v a else v) v = L.foldl (fun v a => if P a then D v a else v) v := by
  induction L generalizing v with
  | nil => rfl
  | cons a L ih =>
    rw [List.pairwise_cons] at h
    rw [List.reverse_cons, List.foldl_append, ih h.2, List.foldl_cons, List.foldl_cons, List.foldl_nil]
    by_cases ha : P a
    · have hn : ∀ b ∈ L, ¬ P b := fun b hb hpb => h.1 b hb ⟨ha, hpb⟩
      rw [foldl_noop P D L hn, foldl_noop P D L hn]
    · rw [if_neg ha, if_neg ha]

/-- Elements in rising order of their keys: those below `n`, then the one at `n`, are those below `n + 1`. -/
theorem foldl_key_succ {α β : Type} (P : α → Prop) [DecidablePred P] (key : α → Nat) (D : β → α → β) (n : Nat) (L : List α)
    (h : L.Pairwise (fun a b => P a → P b → key a < key b)) (v : β) :
    L.foldl (fun v a => if P a ∧ key a < n + 1 then D v a else v) v
      = L.foldl (fun v a => if P a ∧ key a = n then D v a else v)
          (L.foldl (fun v a => if P a ∧ key a < n then D v a else v) v) := by
  induction L generalizing v with
  | nil => rfl
  | cons a L ih =>
    rw [List.pairwise_cons] at h
    rw [List.foldl_cons, List.foldl_cons, List.foldl_cons, ih h.2]
    by_cases ha : P a
    · rcases Nat.lt_trichotomy (key a) n with hk | hk | hk
      · have e1 : P a ∧ key a < n + 1 := ⟨ha, by omega⟩
        have e2 : ¬ (P a ∧ key a = n) := by omega
        have e3 : P a ∧ key a < n := ⟨ha, hk⟩
        rw [if_pos e1, if_neg e2, if_pos e3]
      · have e1 : P a ∧ key a < n + 1 := ⟨ha, by omega⟩
        have e2 : P a ∧ key a = n := ⟨ha, hk⟩
        have e3 : ¬ (P a ∧ key a < n) := by omega
        have hn : ∀ b ∈ L, ¬ (P b ∧ key b < n) := by
          intro b hb hpb
          have := h.1 b hb ha hpb.1
          omega
        rw [if_pos e1, if_pos e2, if_neg e3, foldl_noop _ D L hn, foldl_noop _ D L hn]
      · have e1 : ¬ (P a ∧ key a < n + 1) := by omega
        have e2 : ¬ (P a ∧ key a = n) := by omega
        have e3 : ¬ (P a ∧ key a < n) := by omega
        rw [if_neg e1, if_neg e2, if_neg e3]
    · have e1 : ¬ (P a ∧ key a < n + 1) := fun hh => ha hh.1
      have e2 : ¬ (P a ∧ key a = n) := fun hh => ha hh.1
      have e3 : ¬ (P a ∧ key a < n) := fun hh => ha hh.1
      rw [if_neg e1, if_neg e2, if_neg e3]

/-! ### The scan, seen from a pixel -/

/-- Whether the pixel that sends a share to `(x, y)` by tap `t` lies in the raster. -/
abbrev Tap.sourceInside (t : Tap) (g : Geometry) (x y : Nat) : Prop :=
  0 ≤ (x : Int) - t.dx ∧ (x : Int) - t.dx < g.w ∧ 0 ≤ (y : Int) - t.dy ∧ (y : Int) - t.dy < g.h

/-- The number of that pixel. -/
def Tap.source (t : Tap) (g : Geometry) (x y : Nat) : Nat := g.idxAddr ((x : Int) - t.dx).toNat ((y : Int) - t.dy).toNat

/-- The rows of a kernel come in scan order of the neighbours they point to. -/
def orderedKernel (kernel : List Tap) : Prop := kernel.Pairwise (fun a b => a.dy < b.dy ∨ (a.dy = b.dy ∧ a.dx < b.dx))

theorem ordered_floydSteinberg : orderedKernel floydSteinbergKernel := by
  unfold orderedKernel
  decide

theorem ordered_atkinson : orderedKernel atkinsonKernel := by
  unfold orderedKernel
  decide

theorem source_lt_of_ordered {a b : Tap} {g : Geometry} {x y : Nat} (h : a.dy < b.dy ∨ (a.dy = b.dy ∧ a.dx < b.dx))
    (ha : a.sourceInside g x y) (hb : b.sourceInside g x y) : b.source g x y < a.source g x y := by
  unfold Tap.sourceInside at ha hb
  unfold Tap.source Geometry.idxAddr
  rcases h with h | ⟨h, h'⟩
  · have h1 : (((y : Int) - b.dy).toNat + 1) * g.w ≤ ((y : Int) - a.dy).toNat * g.w := Nat.mul_le_mul_right _ (by omega)
    rw [Nat.succ_mul] at h1
    omega
  · rw [h]
    omega

/-- The shares pixel `(x, y)` has received from the first `n` pixels, `err` giving the error of a pixel by its number. -/
def receivedShares (kernel : List Tap) (g : Geometry) (x y : Nat) (err : Nat → Int) (n val : Nat) : Nat :=
  kernel.reverse.foldl (fun val t => if t.sourceInside g x y ∧ t.source g x y < n
    then diffuse val (err (t.source g x y)) t.num t.den else val) val

/-- The quantization error of channel `ch` of pixel number `n` in a scan. -/
def scanError (kernel : List Tap) (pal : List Colour) (g : Geometry) (sc : Scan) (ch n : Nat) : Int :=
  channelError (chanOf (colourAt (workRead (scanTo rounding kernel pal g sc n).work) (n * g.c)) ch)
    (chanOf (paletteAt pal (nearest pal (colourAt (workRead (scanTo rounding kernel pal g sc n).work) (n * g.c)))) ch)

/-- A channel of a pixel the scan has not passed: its first value and the shares of the passed pixels, in scan order. -/
theorem scanTo_received {kernel : List Tap} (ho : orderedKernel kernel) {pal : List Colour} {g : Geometry} (hc3 : 3 ≤ g.c)
    (sc : Scan) {x y ch : Nat} (hx : x < g.w) (hy : y < g.h) (hch : ch < 3) {n : Nat} (hn : n ≤ g.idxAddr x y) :
    (workRead (scanTo rounding kernel pal g sc n).work (g.pixAddr x y ch)).toNat
      = receivedShares kernel g x y (scanError kernel pal g sc ch) n (workRead sc.work (g.pixAddr x y ch)).toNat := by
  induction n with
  | zero =>
    unfold receivedShares
    rw [foldl_noop (fun t : Tap => t.sourceInside g x y ∧ t.source g x y < 0) _ _ (fun t _ h => by omega)]
    rfl
  | succ n ih =>
    have hp : g.idxAddr x y < g.pixels := by
      rw [pixels_eq]
      exact idxAddr_lt hx hy
    have hnp : n < g.pixels := by omega
    have hx' := pixel_mod_lt hnp
    have hy' := pixel_div_lt hnp
    rw [scanTo_succ, pixelStep_receives hc3 hx hy hch (by rw [idxAddr_mod_div]; omega), ih (by omega)]
    have herr : channelError (chanOf (oldColour g (n % g.w) (n / g.w) (scanTo rounding kernel pal g sc n)) ch)
        (chanOf (paletteAt pal (nearest pal (oldColour g (n % g.w) (n / g.w) (scanTo rounding kernel pal g sc n)))) ch)
        = scanError kernel pal g sc ch n := by
      unfold oldColour scanError
      rw [pixAddr_eq, idxAddr_mod_div, Nat.add_zero]
    rw [herr]
    unfold receivedShares
    have hpw : kernel.reverse.Pairwise (fun a b => a.sourceInside g x y → b.sourceInside g x y →
        a.source g x y < b.source g x y) := by
      rw [List.pairwise_reverse]
      exact ho.imp (fun h ha hb => source_lt_of_ordered h hb ha)
    rw [foldl_key_succ (fun t : Tap => t.sourceInside g x y) (fun t => t.source g x y)
      (fun val t => diffuse val (scanError kernel pal g sc ch (t.source g x y)) t.num t.den) n _ hpw]
    generalize kernel.reverse.foldl _ _ = v
    have huniq : kernel.Pairwise (fun a b => ¬ ((((n % g.w : Nat) : Int) + a.dx = x ∧ ((n / g.w : Nat) : Int) + a.dy = y)
        ∧ (((n % g.w : Nat) : Int) + b.dx = x ∧ ((n / g.w : Nat) : Int) + b.dy = y))) :=
      ho.imp (fun h hh => by omega)
    unfold sentShares
    rw [← foldl_reverse_of_unique (fun t : Tap => ((n % g.w : Nat) : Int) + t.dx = x ∧ ((n / g.w : Nat) : Int) + t.dy = y)
      (fun val t => diffuse val (scanError kernel pal g sc ch n) t.num t.den) kernel huniq]
    congr 1
    funext val t
    have hiff : ((n % g.w : Nat) : Int) + t.dx = x ∧ ((n / g.w : Nat) : Int) + t.dy = y
        ↔ t.sourceInside g x y ∧ t.source g x y = n := by
      unfold Tap.sourceInside Tap.source
      have hr : (0 : Int) ≤ ((n % g.w : Nat) : Int) := Int.natCast_nonneg _
      have hq : (0 : Int) ≤ ((n / g.w : Nat) : Int) := Int.natCast_nonneg _
      constructor
      · rintro ⟨h1, h2⟩
        refine ⟨by omega, ?_⟩
        have e1 : ((x : Int) - t.dx).toNat = n % g.w := by omega
        have e2 : ((y : Int) - t.dy).toNat = n / g.w := by omega
        rw [e1, e2, idxAddr_mod_div]
      · rintro ⟨⟨h1, h2, h3, h4⟩, h5⟩
        have hlt : ((x : Int) - t.dx).toNat < g.w := by omega
        have e1 := idxAddr_mod (g := g) (y := ((y : Int) - t.dy).toNat) hlt
        have e2 := idxAddr_div (g := g) (y := ((y : Int) - t.dy).toNat) hlt
        rw [h5] at e1 e2
        omega
    by_cases hh : t.sourceInside g x y ∧ t.source g x y = n
    · rw [if_pos (hiff.mpr hh), if_pos hh, hh.2]
    · rw [if_neg (fun h => hh (hiff.mp h)), if_neg hh]

end Sys2Proof.Machine
end

