-- ==== Sys2Proof/Laws/Quantizer.lean ====
section
/-! SUPPORT. What a quantizer pass leaves in WORK and IDX (rules R101 to R107): pixel by pixel, with the empty kernel, when
every pixel is a palette colour, and for two passes over the same input. -/

namespace Sys2Proof.Machine

/-! ### The palette -/

theorem palette_length (s : State) : s.palette.length = s.palCount := by simp [State.palette]

theorem palette_getElem (s : State) {k : Nat} (h : k < s.palCount) : s.palette[k]? = some (palRead s.pal k) := by
  simp [State.palette, h]

theorem palette_ne_nil {s : State} (h : 1 ≤ s.palCount) : s.palette ≠ [] := by
  intro h0
  have := palette_length s
  rw [h0] at this
  simp at this
  omega

theorem paletteAt_palette (s : State) {k : Nat} (h : k < s.palCount) : paletteAt s.palette k = palRead s.pal k :=
  paletteAt_of_get (palette_getElem s h)

theorem nearest_palette_lt {s : State} (h : 1 ≤ s.palCount) (c : Colour) : nearest s.palette c < s.palCount := by
  rw [← palette_length]
  exact nearest_lt (palette_ne_nil h) c

theorem mem_palette {s : State} {k : Nat} (h : k < s.palCount) : palRead s.pal k ∈ s.palette :=
  List.mem_of_getElem? (palette_getElem s h)

/-- Two palettes with the same entries are the same list. -/
theorem palette_congr {s s' : State} (hn : s.palLen = s'.palLen)
    (h : ∀ k, k < s.palCount → palRead s.pal k = palRead s'.pal k) : s.palette = s'.palette := by
  unfold State.palette
  have hc : s'.palCount = s.palCount := by unfold State.palCount; rw [hn]
  rw [hc]
  exact List.map_congr_left (fun k hk => h k (List.mem_range.mp hk))

theorem nearest_toNat {pal : List Colour} (h : pal ≠ []) (hl : pal.length ≤ 256) (c : Colour) :
    (BitVec.ofNat 8 (nearest pal c)).toNat = nearest pal c := by
  have := nearest_lt h c
  rw [BitVec.toNat_ofNat]
  omega

theorem legal_c {g : Geometry} (h : g.legal = true) : 3 ≤ g.c := by
  rw [Geometry.legal_iff] at h
  omega

theorem legal_w {g : Geometry} (h : g.legal = true) : 0 < g.w := by
  rw [Geometry.legal_iff] at h
  omega

/-! ### A pass, pixel by pixel -/

/-- What WORK holds before pixel number `n` is processed. -/
def passOld (R : Config.Rounding) (kernel : List Tap) (s : State) (n : Nat) : Colour :=
  colourAt (workRead (scanTo R kernel s.palette s.geometry { work := copySource s, idx := s.idx } n).work)
    (n * s.geometry.c)

theorem quantizePass_eq (R : Config.Rounding) (kernel : List Tap) {s : State} (h : s.geometry.legal = true) :
    quantizePass R kernel s
      = scanTo R kernel s.palette s.geometry { work := copySource s, idx := s.idx } s.geometry.pixels :=
  scanPixels_eq R kernel s.palette (legal_w h) _

theorem quantizePass_index {R : Config.Rounding} {kernel : List Tap} {s : State} (h : s.geometry.legal = true) {n : Nat}
    (hn : n < s.geometry.pixels) : Memory.lookup (quantizePass R kernel s).idx n
      = some (BitVec.ofNat 8 (nearest s.palette (passOld R kernel s n))) := by
  rw [quantizePass_eq R kernel h, scanTo_lookup_idx, if_pos hn]
  rfl

theorem quantizePass_colour {R : Config.Rounding} {kernel : List Tap} (hk : forwardKernel kernel) {s : State}
    (h : s.geometry.legal = true) {n : Nat} (hn : n < s.geometry.pixels) :
    colourAt (workRead (quantizePass R kernel s).work) (n * s.geometry.c)
      = paletteAt s.palette (nearest s.palette (passOld R kernel s n)) := by
  rw [quantizePass_eq R kernel h]
  exact scanTo_colour hk (legal_c h) _ hn (le_refl _)

theorem quantizePass_idx_outside {R : Config.Rounding} {kernel : List Tap} {s : State} (h : s.geometry.legal = true)
    {a : Nat} (ha : s.geometry.pixels ≤ a) :
    Memory.lookup (quantizePass R kernel s).idx a = Memory.lookup s.idx a := by
  rw [quantizePass_eq R kernel h, scanTo_lookup_idx, if_neg (by omega)]

/-- Alpha bytes (rule R100) and bytes above the raster: what the initial copy left. -/
theorem quantizePass_other {R : Config.Rounding} {kernel : List Tap} {s : State} (h : s.geometry.legal = true) {a : Nat}
    (ha : ∀ k ch, k < s.geometry.pixels → ch < 3 → k * s.geometry.c + ch ≠ a) :
    workRead (quantizePass R kernel s).work a = workRead (copySource s) a := by
  rw [quantizePass_eq R kernel h]
  exact scanTo_other _ (le_refl _) ha

theorem quantizePass_outside {R : Config.Rounding} {kernel : List Tap} {s : State} (h : s.geometry.legal = true) {a : Nat}
    (ha : s.geometry.rasterBytes ≤ a) : workRead (quantizePass R kernel s).work a = workRead s.work a := by
  rw [quantizePass_other h, copySource_outside s ha]
  intro k ch hk hch heq
  have hlt := byte_lt (c := s.geometry.c) hk (ch := ch) (by have := legal_c h; omega)
  rw [rasterBytes_eq] at ha
  omega

theorem quantizePass_alpha {R : Config.Rounding} {kernel : List Tap} {s : State} (h : s.geometry.legal = true)
    {n ch : Nat} (hn : n < s.geometry.pixels) (h3 : 3 ≤ ch) (hc : ch < s.geometry.c) :
    workRead (quantizePass R kernel s).work (n * s.geometry.c + ch) = srcRead s.src (n * s.geometry.c + ch) := by
  rw [quantizePass_other h, copySource_inside s]
  · rw [rasterBytes_eq]
    exact byte_lt hn hc
  · intro k i hk hi heq
    have := (byte_inj (by omega) hc heq).2
    omega

/-! ### The empty kernel -/

theorem pixelStep_nil_other (R : Config.Rounding) (pal : List Colour) {g : Geometry} (x y : Nat) (sc : Scan) {a : Nat}
    (h : ∀ ch, ch < 3 → g.pixAddr x y ch ≠ a) : workRead (pixelStep R [] pal g x y sc).work a = workRead sc.work a :=
  writeColour_keeps (fun m => workRead m a = workRead sc.work a)
    (fun ch hch m v hm => (Memory.read_write_other _ m v (h ch hch)).trans hm) sc.work rfl

theorem scanTo_nil_later (R : Config.Rounding) (pal : List Colour) {g : Geometry} (hc : 3 ≤ g.c) (sc : Scan) {n k : Nat}
    (hnk : n ≤ k) : colourAt (workRead (scanTo R [] pal g sc n).work) (k * g.c) = colourAt (workRead sc.work) (k * g.c) := by
  induction n with
  | zero => rfl
  | succ n ih =>
    rw [← ih (by omega), scanTo_succ]
    refine colourAt_congr (fun i hi => pixelStep_nil_other R pal _ _ _ (fun ch hch heq => ?_))
    rw [pixAddr_eq, idxAddr_mod_div] at heq
    have := (byte_inj (by omega) (by omega) heq).1
    omega

/-- With the empty kernel every pixel is quantized from its SRC colour (rule R101). -/
theorem passOld_nil (R : Config.Rounding) {s : State} (h : s.geometry.legal = true) {n : Nat}
    (hn : n < s.geometry.pixels) : passOld R [] s n = colourAt (srcRead s.src) (n * s.geometry.c) :=
  (scanTo_nil_later R s.palette (legal_c h) _ (le_refl n)).trans (copySource_colour s (legal_c h) hn)

/-! ### No error, no change -/

theorem diffuseChannel_zero {R : Config.Rounding} {kernel : List Tap} {g : Geometry} {x y ch : Nat}
    (hR : ∀ t ∈ kernel, ∀ v, v ≤ 255 → R.diffuse v 0 t.num t.den = v) (m : Memory Byte) (a : Nat) :
    workRead (diffuseChannel R kernel g x y ch 0 m) a = workRead m a := by
  unfold diffuseChannel
  induction kernel generalizing m with
  | nil => rfl
  | cons t ts ih =>
    rw [List.foldl_cons, ih (fun t ht => hR t (List.mem_cons_of_mem _ ht))]
    by_cases hi : t.inside g x y = true
    · rw [diffuseTap_inside hi, hR t List.mem_cons_self _ (by have := (workRead m (t.target g x y ch)).isLt; omega)]
      unfold workRead
      rw [Memory.read_write]
      split
      · rename_i heq
        rw [← heq, BitVec.ofNat_toNat, BitVec.setWidth_eq]
      · rfl
    · rw [diffuseTap_outside hi]

theorem writeColour_same (m : Memory Byte) (a b : Nat) :
    workRead (writeColour m a (colourAt (workRead m) a)) b = workRead m b := by
  unfold writeColour colourAt workRead
  rw [Memory.read_write, Memory.read_write, Memory.read_write]
  split_ifs <;> simp_all

/-- If every pixel is a palette colour, the scan changes no byte of WORK (rule R107). -/
theorem scanTo_zeroError {R : Config.Rounding} {kernel : List Tap} {pal : List Colour} {g : Geometry} (sc : Scan)
    (hR : ∀ t ∈ kernel, ∀ v, v ≤ 255 → R.diffuse v 0 t.num t.den = v)
    (hp : ∀ k, k < g.pixels → colourAt (workRead sc.work) (k * g.c) ∈ pal) {n : Nat} (hn : n ≤ g.pixels) (a : Nat) :
    workRead (scanTo R kernel pal g sc n).work a = workRead sc.work a := by
  induction n generalizing a with
  | zero => rfl
  | succ n ih =>
    have hold : oldColour g (n % g.w) (n / g.w) (scanTo R kernel pal g sc n) = colourAt (workRead sc.work) (n * g.c) := by
      unfold oldColour
      rw [pixAddr_eq, idxAddr_mod_div, Nat.add_zero]
      exact colourAt_congr (fun i _ => ih (by omega) _)
    have hnew := paletteAt_nearest_of_mem (hp n hn)
    rw [scanTo_succ, pixelStep_work, hold, hnew]
    unfold diffuseColour channelError
    rw [sub_self, sub_self, sub_self, diffuseChannel_zero hR, diffuseChannel_zero hR, diffuseChannel_zero hR, ← hold]
    unfold oldColour
    rw [writeColour_same, ih (by omega)]

/-- In a pass over palette colours every pixel is quantized from its SRC colour, whatever the kernel. -/
theorem passOld_zeroError {R : Config.Rounding} {kernel : List Tap} {s : State} (h : s.geometry.legal = true)
    (hR : ∀ t ∈ kernel, ∀ v, v ≤ 255 → R.diffuse v 0 t.num t.den = v)
    (hp : ∀ k, k < s.geometry.pixels → colourAt (srcRead s.src) (k * s.geometry.c) ∈ s.palette) {n : Nat}
    (hn : n < s.geometry.pixels) : passOld R kernel s n = colourAt (srcRead s.src) (n * s.geometry.c) := by
  rw [← copySource_colour s (legal_c h) hn]
  refine colourAt_congr (fun i _ => scanTo_zeroError _ hR (fun k hk => ?_) (le_of_lt hn) _)
  rw [copySource_colour s (legal_c h) hk]
  exact hp k hk

theorem quantizePass_zeroError {R : Config.Rounding} {kernel : List Tap} {s : State} (h : s.geometry.legal = true)
    (hR : ∀ t ∈ kernel, ∀ v, v ≤ 255 → R.diffuse v 0 t.num t.den = v)
    (hp : ∀ k, k < s.geometry.pixels → colourAt (srcRead s.src) (k * s.geometry.c) ∈ s.palette) (a : Nat) :
    workRead (quantizePass R kernel s).work a = workRead (copySource s) a := by
  rw [quantizePass_eq R kernel h]
  refine scanTo_zeroError _ hR (fun k hk => ?_) (le_refl _) a
  rw [copySource_colour s (legal_c h) hk]
  exact hp k hk

/-! ### Two passes over the same input -/

/-- Two memories that read the same below `n`. -/
def agreeBelow (n : Nat) (m m' : Memory Byte) : Prop := ∀ a, a < n → workRead m a = workRead m' a

theorem agreeBelow_write {n : Nat} {m m' : Memory Byte} (a : Nat) (v : Byte) (h : agreeBelow n m m') :
    agreeBelow n (Memory.write m a v) (Memory.write m' a v) := by
  intro b hb
  unfold workRead
  rw [Memory.read_write, Memory.read_write]
  split
  · rfl
  · exact h b hb

theorem diffuseChannel_agree {R : Config.Rounding} {kernel : List Tap} {g : Geometry} {x y ch : Nat} {e : Int}
    (hc : ch < g.c) {m m' : Memory Byte} (h : agreeBelow g.rasterBytes m m') :
    agreeBelow g.rasterBytes (diffuseChannel R kernel g x y ch e m) (diffuseChannel R kernel g x y ch e m') := by
  unfold diffuseChannel
  induction kernel generalizing m m' with
  | nil => exact h
  | cons t ts ih =>
    rw [List.foldl_cons, List.foldl_cons]
    refine ih ?_
    by_cases hi : t.inside g x y = true
    · rw [diffuseTap_inside hi, diffuseTap_inside hi, h (t.target g x y ch)]
      · exact agreeBelow_write _ _ h
      · have hl := tap_target_lt hi
        rw [rasterBytes_eq, pixels_eq]
        exact byte_lt (idxAddr_lt hl.1 hl.2) hc
    · rw [diffuseTap_outside hi, diffuseTap_outside hi]
      exact h

/-- The scan reads nothing of WORK outside the raster and nothing of IDX. -/
theorem scanTo_agree {R : Config.Rounding} {kernel : List Tap} {pal : List Colour} {g : Geometry} (hc : 3 ≤ g.c)
    {sc sc' : Scan} (h : agreeBelow g.rasterBytes sc.work sc'.work) {n : Nat} (hn : n ≤ g.pixels) :
    agreeBelow g.rasterBytes (scanTo R kernel pal g sc n).work (scanTo R kernel pal g sc' n).work := by
  induction n with
  | zero => exact h
  | succ n ih =>
    have h' := ih (by omega)
    have hold : oldColour g (n % g.w) (n / g.w) (scanTo R kernel pal g sc n)
        = oldColour g (n % g.w) (n / g.w) (scanTo R kernel pal g sc' n) := by
      unfold oldColour
      rw [pixAddr_eq, idxAddr_mod_div, Nat.add_zero]
      refine colourAt_congr (fun i hi => h' _ ?_)
      rw [rasterBytes_eq]
      exact byte_lt hn (by omega)
    rw [scanTo_succ, scanTo_succ, pixelStep_work, pixelStep_work, hold]
    unfold diffuseColour
    refine diffuseChannel_agree (by omega) (diffuseChannel_agree (by omega) (diffuseChannel_agree (by omega) ?_))
    unfold writeColour
    exact agreeBelow_write _ _ (agreeBelow_write _ _ (agreeBelow_write _ _ h'))

theorem copySource_agree {s s' : State} (hg : s.geometry = s'.geometry)
    (h : ∀ a, a < s.geometry.rasterBytes → srcRead s.src a = srcRead s'.src a) :
    agreeBelow s.geometry.rasterBytes (copySource s) (copySource s') := by
  intro a ha
  rw [copySource_inside s ha, copySource_inside s' (by rw [← hg]; exact ha)]
  exact h a ha

/-- A pass is a function of the geometry, the SRC raster and the palette (rule R31). -/
theorem quantizePass_agree {R : Config.Rounding} {kernel : List Tap} {s s' : State} (hl : s.geometry.legal = true)
    (hg : s.geometry = s'.geometry) (hp : s.palette = s'.palette)
    (h : ∀ a, a < s.geometry.rasterBytes → srcRead s.src a = srcRead s'.src a) :
    agreeBelow s.geometry.rasterBytes (quantizePass R kernel s).work (quantizePass R kernel s').work
      ∧ ∀ n, n < s.geometry.pixels →
          Memory.lookup (quantizePass R kernel s).idx n = Memory.lookup (quantizePass R kernel s').idx n := by
  have hl' : s'.geometry.legal = true := by rw [← hg]; exact hl
  have hcopy := copySource_agree hg h
  constructor
  · rw [quantizePass_eq R kernel hl, quantizePass_eq R kernel hl', ← hg, ← hp]
    exact scanTo_agree (legal_c hl) hcopy (le_refl _)
  · intro n hn
    rw [quantizePass_index hl hn, quantizePass_index hl' (by rw [← hg]; exact hn)]
    unfold passOld
    rw [← hg, ← hp]
    have hscan := scanTo_agree (R := R) (kernel := kernel) (pal := s.palette) (legal_c hl)
      (sc := { work := copySource s, idx := s.idx }) (sc' := { work := copySource s', idx := s'.idx }) hcopy (le_of_lt hn)
    have heq := colourAt_congr (a := n * s.geometry.c) (fun i hi => hscan (n * s.geometry.c + i) (by
      rw [rasterBytes_eq]
      exact byte_lt hn (by have := legal_c hl; omega)))
    rw [heq]

end Sys2Proof.Machine
end

