-- ==== Sys2Proof/Laws/Encoder.lean ====
section
/-! SUPPORT. What a BMP file holds, place by place (rules R120 to R133): its length, the headers, the colour table, the
stored rows and the fields packed into a row. -/

namespace Sys2Proof.Machine

/-! ### Packed fields -/

/-- One field OR-ed into a byte: the field there, every field `b` bits or more away as before. -/
theorem field_or {b sh sh' m v : Nat} (hv : v < 2 ^ b) (h : sh = sh' ∨ sh + b ≤ sh' ∨ sh' + b ≤ sh) :
    (m ||| v <<< sh) / 2 ^ sh' % 2 ^ b = if sh = sh' then (m / 2 ^ sh' % 2 ^ b) ||| v else m / 2 ^ sh' % 2 ^ b := by
  have hlow : ∀ i, b ≤ i → v.testBit i = false := by
    intro i hi
    exact Nat.testBit_lt_two_pow (Nat.lt_of_lt_of_le hv (Nat.pow_le_pow_right (by omega) hi))
  apply Nat.eq_of_testBit_eq
  intro i
  rw [← Nat.shiftRight_eq_div_pow, ← Nat.shiftRight_eq_div_pow]
  by_cases hs : sh = sh'
  · subst hs
    rw [if_pos rfl]
    simp only [Nat.testBit_mod_two_pow, Nat.testBit_shiftRight, Nat.testBit_or, Nat.testBit_shiftLeft]
    by_cases hi : i < b
    · simp [hi]
    · simp [hi, hlow i (by omega)]
  · rw [if_neg hs]
    simp only [Nat.testBit_mod_two_pow, Nat.testBit_shiftRight, Nat.testBit_or, Nat.testBit_shiftLeft]
    by_cases hi : i < b
    · rcases h with h | h | h
      · exact absurd h hs
      · rw [hlow (sh' + i - sh) (by omega)]
        simp
      · have hn : ¬ sh ≤ sh' + i := by omega
        simp [hn]
    · simp [hi]

/-- A byte of a row, 0 beyond its end. -/
def rowByte (row : List Byte) (j : Nat) : Nat := ((row[j]?).getD 0).toNat

theorem orInto_length (i v : Nat) (row : List Byte) : (orInto i v row).length = row.length := by simp [orInto]

theorem rowByte_orInto {i v : Nat} {row : List Byte} (hv : v < 256) (hi : i < row.length) (j : Nat) :
    rowByte (orInto i v row) j = if i = j then rowByte row j ||| v else rowByte row j := by
  unfold rowByte orInto
  rw [List.getElem?_modify]
  by_cases h : i = j
  · subst h
    rw [if_pos rfl, List.getElem?_eq_getElem hi]
    simp [Nat.mod_eq_of_lt hv]
  · simp [h]

/-- A row packed with fields of `b` bits, `per` to a byte, the first in the highest bits (rules R129 to R131). -/
theorem packed_fields {b per n : Nat} {f sh : Nat → Nat} {row : List Byte} (hb : b * per = 8)
    (hsh : ∀ x, sh x = 8 - b - b * (x % per)) (hf : ∀ x, x < n → f x < 2 ^ b) (hn : n ≤ per * row.length)
    (h0 : ∀ j, rowByte row j = 0) {x : Nat} :
    rowByte (forRange n (fun x row => orInto (x / per) (f x <<< sh x) row) row) (x / per) / 2 ^ sh x % 2 ^ b
      = if x < n then f x else 0 := by
  have hper : 0 < per := by
    rcases Nat.eq_zero_or_pos per with h | h
    · rw [h] at hb
      omega
    · exact h
  have hmod : ∀ x, b * (x % per) + b ≤ 8 := by
    intro x
    rw [← hb, ← Nat.mul_succ]
    exact Nat.mul_le_mul_left _ (Nat.mod_lt _ hper)
  have key : ∀ k, k ≤ n →
      (forRange k (fun x row => orInto (x / per) (f x <<< sh x) row) row).length = row.length
      ∧ ∀ x, rowByte (forRange k (fun x row => orInto (x / per) (f x <<< sh x) row) row) (x / per) / 2 ^ sh x % 2 ^ b
          = if x < k then f x else 0 := by
    intro k hk
    induction k with
    | zero => exact ⟨rfl, fun x => by simp [h0]⟩
    | succ k ih =>
      obtain ⟨hlen, hfield⟩ := ih (by omega)
      rw [forRange_succ]
      refine ⟨(orInto_length _ _ _).trans hlen, fun x => ?_⟩
      have hv : f k <<< sh k < 256 := by
        rw [Nat.shiftLeft_eq, hsh]
        calc f k * 2 ^ (8 - b - b * (k % per)) < 2 ^ b * 2 ^ (8 - b - b * (k % per)) :=
              Nat.mul_lt_mul_of_pos_right (hf k (by omega)) (Nat.two_pow_pos _)
          _ = 2 ^ (b + (8 - b - b * (k % per))) := (Nat.pow_add _ _ _).symm
          _ ≤ 2 ^ 8 := Nat.pow_le_pow_right (by omega) (by have := hmod k; omega)
      have hi : k / per < (forRange k (fun x row => orInto (x / per) (f x <<< sh x) row) row).length := by
        rw [hlen, Nat.div_lt_iff_lt_mul hper, Nat.mul_comm]
        omega
      rw [rowByte_orInto hv hi]
      by_cases hd : k / per = x / per
      · rw [if_pos hd]
        by_cases hkx : k = x
        · subst hkx
          rw [field_or (hf k (by omega)) (.inl rfl), if_pos rfl, hfield, if_neg (by omega), if_pos (by omega), Nat.zero_or]
        · have hm : k % per ≠ x % per := by
            intro hm
            apply hkx
            rw [← Nat.div_add_mod k per, ← Nat.div_add_mod x per, hd, hm]
          have hne : sh k + b ≤ sh x ∨ sh x + b ≤ sh k := by
            have h1 := hmod k
            have h2 := hmod x
            rw [hsh, hsh]
            rcases Nat.lt_or_gt_of_ne hm with h | h
            · have h3 : b * (k % per) + b ≤ b * (x % per) := by
                rw [← Nat.mul_succ]
                exact Nat.mul_le_mul_left _ h
              right
              omega
            · have h3 : b * (x % per) + b ≤ b * (k % per) := by
                rw [← Nat.mul_succ]
                exact Nat.mul_le_mul_left _ h
              left
              omega
          have hbpos : 0 < b := by
            rcases Nat.eq_zero_or_pos b with h | h
            · rw [h] at hb
              omega
            · exact h
          rw [field_or (hf k (by omega)) (.inr hne), if_neg (by omega), hfield]
          by_cases hlt : x < k
          · rw [if_pos hlt, if_pos (by omega)]
          · rw [if_neg hlt, if_neg (by omega)]
      · have hkx : k ≠ x := fun h => hd (by rw [h])
        rw [if_neg hd, hfield]
        by_cases hlt : x < k
        · rw [if_pos hlt, if_pos (by omega)]
        · rw [if_neg hlt, if_neg (by omega)]
  exact (key n (le_refl n)).2 x

theorem rowByte_zeros (n j : Nat) : rowByte (List.replicate n 0) j = 0 := by
  unfold rowByte
  rw [List.getElem?_replicate]
  split <;> rfl

/-- A row of one byte per pixel (rule R132). -/
theorem packed_bytes {n : Nat} {f : Nat → Nat} {row : List Byte} (hn : n ≤ row.length) (hf : ∀ x, x < n → f x < 256)
    (h0 : ∀ j, rowByte row j = 0) (x : Nat) :
    rowByte (forRange n (fun x row => row.set x (BitVec.ofNat 8 (f x))) row) x = if x < n then f x else 0 := by
  have key : ∀ k, k ≤ n → (forRange k (fun x row => row.set x (BitVec.ofNat 8 (f x))) row).length = row.length
      ∧ ∀ x, rowByte (forRange k (fun x row => row.set x (BitVec.ofNat 8 (f x))) row) x = if x < k then f x else 0 := by
    intro k hk
    induction k with
    | zero => exact ⟨rfl, fun x => by simp [h0]⟩
    | succ k ih =>
      obtain ⟨hlen, hbyte⟩ := ih (by omega)
      rw [forRange_succ]
      refine ⟨by rw [List.length_set, hlen], fun x => ?_⟩
      have hb := hbyte x
      unfold rowByte at hb ⊢
      rw [List.getElem?_set]
      by_cases hkx : k = x
      · subst hkx
        have hv := hf k (by omega)
        rw [if_pos rfl, if_pos (by omega), if_pos (by omega)]
        simp only [Option.getD_some, BitVec.toNat_ofNat]
        omega
      · rw [if_neg hkx, hb]
        by_cases hlt : x < k
        · rw [if_pos hlt, if_pos (by omega)]
        · rw [if_neg hlt, if_neg (by omega)]
  exact (key n (le_refl n)).2 x

/-- A row of three bytes per pixel (rule R133). -/
theorem packed_triples {n : Nat} {f : Nat → Colour} {row : List Byte} (hn : 3 * n ≤ row.length) :
    (∀ x, x < n →
      (forRange n (fun x row => ((row.set (3 * x) (f x).b).set (3 * x + 1) (f x).g).set (3 * x + 2) (f x).r) row)[3 * x]?
        = some (f x).b
      ∧ (forRange n (fun x row => ((row.set (3 * x) (f x).b).set (3 * x + 1) (f x).g).set (3 * x + 2) (f x).r) row)[3 * x + 1]?
        = some (f x).g
      ∧ (forRange n (fun x row => ((row.set (3 * x) (f x).b).set (3 * x + 1) (f x).g).set (3 * x + 2) (f x).r) row)[3 * x + 2]?
        = some (f x).r)
    ∧ ∀ j, 3 * n ≤ j →
      (forRange n (fun x row => ((row.set (3 * x) (f x).b).set (3 * x + 1) (f x).g).set (3 * x + 2) (f x).r) row)[j]? = row[j]? := by
  have key : ∀ k, k ≤ n →
      (forRange k (fun x row => ((row.set (3 * x) (f x).b).set (3 * x + 1) (f x).g).set (3 * x + 2) (f x).r) row).length
        = row.length := by
    intro k hk
    induction k with
    | zero => rfl
    | succ k ih => rw [forRange_succ]; simp only [List.length_set]; exact ih (by omega)
  induction n with
  | zero => exact ⟨fun x hx => by omega, fun j _ => rfl⟩
  | succ k ih =>
    obtain ⟨h1, h2⟩ := ih (by omega) (fun i hi => key i (by omega))
    have hlen := key k (by omega)
    rw [forRange_succ]
    generalize forRange k _ row = u at h1 h2 hlen ⊢
    constructor
    · intro x hx
      simp only [List.getElem?_set, List.length_set]
      by_cases hkx : k = x
      · subst hkx
        refine ⟨?_, ?_, ?_⟩
        · rw [if_neg (by omega), if_neg (by omega), if_pos rfl, if_pos (by omega)]
        · rw [if_neg (by omega), if_pos rfl, if_pos (by omega)]
        · rw [if_pos rfl, if_pos (by omega)]
      · obtain ⟨a, b, c⟩ := h1 x (by omega)
        refine ⟨?_, ?_, ?_⟩
        · rw [if_neg (by omega), if_neg (by omega), if_neg (by omega), a]
        · rw [if_neg (by omega), if_neg (by omega), if_neg (by omega), b]
        · rw [if_neg (by omega), if_neg (by omega), if_neg (by omega), c]
    · intro j hj
      simp only [List.getElem?_set, List.length_set]
      rw [if_neg (by omega), if_neg (by omega), if_neg (by omega)]
      exact h2 j (by omega)

/-! ### Lengths and places -/

theorem forRange_length {f : Nat → List Byte → List Byte} (hf : ∀ x row, (f x row).length = row.length) (n : Nat)
    (row : List Byte) : (forRange n f row).length = row.length :=
  forRange_induct (fun _ r => r.length = row.length) rfl (fun i _ u hu => (hf i u).trans hu)

theorem packRowOf_length (bpp : Nat) (p : PixelSource) (s : State) (y : Nat) (row : List Byte) :
    (packRowOf bpp p s y row).length = row.length := by
  refine packRowOf_cases (fun f => (f p s y row).length = row.length) bpp ?_ ?_ ?_ ?_ ?_
  · exact forRange_length (fun _ _ => orInto_length _ _ _) _ _
  · exact forRange_length (fun _ _ => orInto_length _ _ _) _ _
  · exact forRange_length (fun _ _ => orInto_length _ _ _) _ _
  · exact forRange_length (fun _ _ => List.length_set) _ _
  · exact forRange_length (fun _ _ => by simp) _ _

theorem storedRow_length (bpp : Nat) (p : PixelSource) (s : State) (r : Nat) :
    (storedRow bpp p s r).length = strideBytes s.geometry.w bpp := by
  unfold storedRow
  rw [packRowOf_length, List.length_replicate]

/-- Pieces of one length `k`, one after another. -/
theorem flatMap_length {f : Nat → List Byte} {k : Nat} (hf : ∀ i, (f i).length = k) (n : Nat) :
    ((List.range n).flatMap f).length = n * k := by
  induction n with
  | zero => simp
  | succ n ih =>
    rw [List.range_succ, List.flatMap_append, List.length_append, ih, Nat.succ_mul]
    simp [hf]

theorem flatMap_getElem {f : Nat → List Byte} {k : Nat} (hf : ∀ i, (f i).length = k) {n i j : Nat} (hi : i < n)
    (hj : j < k) : ((List.range n).flatMap f)[i * k + j]? = (f i)[j]? := by
  induction n with
  | zero => omega
  | succ n ih =>
    have hl := flatMap_length hf n
    rw [List.range_succ, List.flatMap_append]
    by_cases h : i = n
    · subst h
      rw [List.getElem?_append_right (by omega), hl]
      simp
    · have hlt : i * k + j < n * k := byte_lt (by omega) hj
      rw [List.getElem?_append_left (by omega)]
      exact ih (by omega)

theorem tableSlot_length (s : State) (i : Nat) : (tableSlot s i).length = 4 := by
  unfold tableSlot
  split <;> rfl

theorem headers_length (bpp : Nat) (s : State) : (fileHeader s.geometry bpp ++ infoHeader bpp s).length = 54 := rfl

theorem colourTable_length (bpp : Nat) (s : State) : (colourTable bpp s).length = tableBytes bpp := by
  unfold colourTable tableBytes
  split
  · rw [flatMap_length (tableSlot_length s), Nat.mul_comm]
  · rfl

theorem pixelArray_length (bpp : Nat) (p : PixelSource) (s : State) :
    (pixelArray bpp p s).length = imageBytes s.geometry bpp := by
  unfold pixelArray
  rw [flatMap_length (storedRow_length bpp p s), Nat.mul_comm]
  rfl

/-- The file has SIZE bytes (rule R122). -/
theorem bmpFile_length (bpp : Nat) (p : PixelSource) (s : State) : (bmpFile bpp p s).length = fileBytes s.geometry bpp := by
  unfold bmpFile
  rw [List.length_append, List.length_append, headers_length, colourTable_length, pixelArray_length]
  rfl

theorem bmpFile_header {bpp : Nat} {p : PixelSource} {s : State} {a : Nat} (h : a < 54) :
    (bmpFile bpp p s)[a]? = (fileHeader s.geometry bpp ++ infoHeader bpp s)[a]? := by
  unfold bmpFile
  rw [List.append_assoc (fileHeader s.geometry bpp ++ infoHeader bpp s), List.getElem?_append_left (by rw [headers_length]; exact h)]

theorem bmpFile_table {bpp : Nat} {p : PixelSource} {s : State} (hb : bpp < 24) {k i : Nat} (hk : k < 2 ^ bpp) (hi : i < 4) :
    (bmpFile bpp p s)[54 + 4 * k + i]? = (tableSlot s k)[i]? := by
  have hl : k * 4 + i < tableBytes bpp := by
    unfold tableBytes
    rw [if_pos hb]
    omega
  unfold bmpFile
  rw [List.append_assoc (fileHeader s.geometry bpp ++ infoHeader bpp s),
    List.getElem?_append_right (by rw [headers_length]; omega), headers_length,
    List.getElem?_append_left (by rw [colourTable_length]; omega)]
  have he : 54 + 4 * k + i - 54 = k * 4 + i := by omega
  unfold colourTable
  rw [he, if_pos hb, flatMap_getElem (tableSlot_length s) hk hi]

theorem bmpFile_row {bpp : Nat} {p : PixelSource} {s : State} {r j : Nat} (hr : r < s.geometry.h)
    (hj : j < strideBytes s.geometry.w bpp) :
    (bmpFile bpp p s)[pixelOffset bpp + r * strideBytes s.geometry.w bpp + j]? = (storedRow bpp p s r)[j]? := by
  have hl : (fileHeader s.geometry bpp ++ infoHeader bpp s ++ colourTable bpp s).length = pixelOffset bpp := by
    rw [List.length_append, headers_length, colourTable_length]
    rfl
  unfold bmpFile
  rw [List.getElem?_append_right (by rw [hl]; omega), hl]
  have he : pixelOffset bpp + r * strideBytes s.geometry.w bpp + j - pixelOffset bpp
      = r * strideBytes s.geometry.w bpp + j := by omega
  rw [he]
  exact flatMap_getElem (storedRow_length bpp p s) hr hj

/-- The file as it stands in OUT. -/
theorem outRead_file {m : Memory Byte} {file : List Byte} {a : Nat} {v : Byte} (h : file[a]? = some v) :
    outRead (Memory.writeBlock m 0 file) a = v := by
  obtain ⟨hl, hv⟩ := List.getElem?_eq_some_iff.mp h
  unfold outRead
  rw [Memory.read_writeBlock_zero _ _ _ _ hl, hv]

theorem outRead_beyond {m : Memory Byte} {file : List Byte} {a : Nat} (h : file.length ≤ a) :
    outRead (Memory.writeBlock m 0 file) a = outRead m a :=
  Memory.read_writeBlock_outside _ _ _ _ _ (.inr (by omega))

/-- A byte of a stored row as it stands in OUT. -/
theorem outRead_row {m : Memory Byte} {bpp : Nat} {p : PixelSource} {s : State} {r j : Nat} (hr : r < s.geometry.h)
    (hj : j < strideBytes s.geometry.w bpp) :
    (outRead (Memory.writeBlock m 0 (bmpFile bpp p s)) (pixelOffset bpp + r * strideBytes s.geometry.w bpp + j)).toNat
      = rowByte (storedRow bpp p s r) j := by
  have hl : j < (storedRow bpp p s r).length := by rw [storedRow_length]; exact hj
  have h := bmpFile_row (bpp := bpp) (p := p) (s := s) hr hj
  rw [List.getElem?_eq_getElem hl] at h
  rw [outRead_file h]
  unfold rowByte
  rw [List.getElem?_eq_getElem hl]
  rfl

/-! ### Sizes -/

theorem stride_covers (w bpp : Nat) : w * bpp ≤ 8 * strideBytes w bpp := by
  unfold strideBytes
  omega

/-- The file of every depth fits OUT (rule R5). -/
theorem fileBytes_le {g : Geometry} (h : g.legal = true) {bpp : Nat}
    (hb : bpp = 1 ∨ bpp = 2 ∨ bpp = 4 ∨ bpp = 8 ∨ bpp = 24) : fileBytes g bpp ≤ Config.outCap := by
  rw [Geometry.legal_iff] at h
  have hw : strideBytes g.w bpp ≤ (4096 * bpp + 31) / 32 * 4 := by
    unfold strideBytes
    exact Nat.mul_le_mul_right _ (Nat.div_le_div_right (by have := Nat.mul_le_mul_right bpp h.2.1; omega))
  have hi : imageBytes g bpp ≤ (4096 * bpp + 31) / 32 * 4 * 4096 := Nat.mul_le_mul hw h.2.2.2.1
  have hc : Config.outCap = 50331702 := by decide
  rw [hc]
  unfold fileBytes pixelOffset tableBytes
  rcases hb with rfl | rfl | rfl | rfl | rfl <;> simp at hi ⊢ <;> omega

/-- The four bytes of a little-endian field, put together again (rules R7, R42). -/
theorem le32_bytes (v : Word) : (v.extractLsb' 0 8).toNat + 256 * (v.extractLsb' 8 8).toNat
    + 65536 * ((v.extractLsb' 16 8).toNat + 256 * (v.extractLsb' 24 8).toNat) = v.toNat := by
  have := v.isLt
  simp only [BitVec.extractLsb'_toNat, Nat.shiftRight_eq_div_pow]
  omega

theorem le16_bytes (v : BitVec 16) : (v.extractLsb' 0 8).toNat + 256 * (v.extractLsb' 8 8).toNat = v.toNat := by
  have := v.isLt
  simp only [BitVec.extractLsb'_toNat, Nat.shiftRight_eq_div_pow]
  omega

/-! ### What a file depends on -/

theorem packRowOf_congr {bpp : Nat} {p p' : PixelSource} {s s' : State} {y : Nat} (hw : s.geometry.w = s'.geometry.w)
    (hi : bpp < 24 → ∀ x, x < s.geometry.w → indexOf p s x y = indexOf p' s' x y)
    (hc : 24 ≤ bpp → ∀ x, x < s.geometry.w → rgbOf p s x y = rgbOf p' s' x y)
    (hb : bpp = 1 ∨ bpp = 2 ∨ bpp = 4 ∨ bpp = 8 ∨ bpp = 24) (row : List Byte) :
    packRowOf bpp p s y row = packRowOf bpp p' s' y row := by
  rcases hb with rfl | rfl | rfl | rfl | rfl
  · show packRow1 p s y row = packRow1 p' s' y row
    unfold packRow1
    rw [← hw]
    exact forRange_congr _ (fun x hx u => by rw [hi (by omega) x hx])
  · show packRow2 p s y row = packRow2 p' s' y row
    unfold packRow2
    rw [← hw]
    exact forRange_congr _ (fun x hx u => by rw [hi (by omega) x hx])
  · show packRow4 p s y row = packRow4 p' s' y row
    unfold packRow4
    rw [← hw]
    exact forRange_congr _ (fun x hx u => by rw [hi (by omega) x hx])
  · show packRow8 p s y row = packRow8 p' s' y row
    unfold packRow8
    rw [← hw]
    exact forRange_congr _ (fun x hx u => by rw [hi (by omega) x hx])
  · show packRow24 p s y row = packRow24 p' s' y row
    unfold packRow24
    rw [← hw]
    exact forRange_congr _ (fun x hx u => by rw [hc (by omega) x hx])

theorem rowOf_lt {s : State} {r : Nat} (h : r < s.geometry.h) : rowOf s r < s.geometry.h := by
  unfold rowOf
  split <;> omega

/-- A file is a function of width, height, orientation, the pixels' indices or colours and, at an indexed depth, the
palette (rule R137). -/
theorem bmpFile_congr {bpp : Nat} {p p' : PixelSource} {s s' : State} (hw : s.geometry.w = s'.geometry.w)
    (hh : s.geometry.h = s'.geometry.h) (ho : s.topDown = s'.topDown)
    (hp : bpp < 24 → s.palCount = s'.palCount ∧ ∀ k, k < s.palCount → palRead s.pal k = palRead s'.pal k)
    (hi : bpp < 24 → ∀ x y, x < s.geometry.w → y < s.geometry.h → indexOf p s x y = indexOf p' s' x y)
    (hc : 24 ≤ bpp → ∀ x y, x < s.geometry.w → y < s.geometry.h → rgbOf p s x y = rgbOf p' s' x y)
    (hb : bpp = 1 ∨ bpp = 2 ∨ bpp = 4 ∨ bpp = 8 ∨ bpp = 24) : bmpFile bpp p s = bmpFile bpp p' s' := by
  have himg : imageBytes s.geometry bpp = imageBytes s'.geometry bpp := by unfold imageBytes; rw [hw, hh]
  have hsize : fileBytes s.geometry bpp = fileBytes s'.geometry bpp := by unfold fileBytes; rw [himg]
  have hused : coloursUsed bpp s = coloursUsed bpp s' := by
    unfold coloursUsed
    split
    · rename_i h
      exact (hp h).1
    · rfl
  have hheight : heightField s = heightField s' := by unfold heightField; rw [ho, hh]
  have h1 : fileHeader s.geometry bpp = fileHeader s'.geometry bpp := by unfold fileHeader; rw [hsize]
  have h2 : infoHeader bpp s = infoHeader bpp s' := by unfold infoHeader; rw [hw, hheight, himg, hused]
  have h3 : colourTable bpp s = colourTable bpp s' := by
    unfold colourTable
    split
    · rename_i h
      obtain ⟨hn, hpal⟩ := hp h
      have : tableSlot s = tableSlot s' := by
        funext i
        unfold tableSlot
        rw [← hn]
        split
        · rename_i hlt
          rw [hpal i hlt]
        · rfl
      rw [this]
    · rfl
  have h4 : pixelArray bpp p s = pixelArray bpp p' s' := by
    have hrows : ∀ r ∈ List.range s.geometry.h, storedRow bpp p s r = storedRow bpp p' s' r := by
      intro r hr
      have hlt := rowOf_lt (List.mem_range.mp hr)
      have hrow : rowOf s r = rowOf s' r := by unfold rowOf; rw [ho, hh]
      unfold storedRow
      rw [← hrow, ← hw]
      exact packRowOf_congr hw (fun h x hx => hi h x _ hx hlt) (fun h x hx => hc h x _ hx hlt) hb _
    unfold pixelArray
    rw [← hh, List.flatMap, List.flatMap, List.map_congr_left hrows]
  unfold bmpFile
  rw [h1, h2, h3, h4]

/-! ### The header fields -/

/-- `n` bytes of the two headers from offset `a`. -/
def headerField (bpp : Nat) (s : State) (a n : Nat) : List Byte :=
  ((fileHeader s.geometry bpp ++ infoHeader bpp s).drop a).take n

theorem header_magic (bpp : Nat) (s : State) : headerField bpp s 0 2 = [0x42, 0x4D] := rfl
theorem header_fileSize (bpp : Nat) (s : State) :
    headerField bpp s 2 4 = le32 (BitVec.ofNat 32 (fileBytes s.geometry bpp)) := rfl
theorem header_reserved (bpp : Nat) (s : State) : headerField bpp s 6 4 = le32 0 := rfl
theorem header_offset (bpp : Nat) (s : State) : headerField bpp s 10 4 = le32 (BitVec.ofNat 32 (pixelOffset bpp)) := rfl
theorem header_infoSize (bpp : Nat) (s : State) : headerField bpp s 14 4 = le32 40 := rfl
theorem header_width (bpp : Nat) (s : State) : headerField bpp s 18 4 = le32 (BitVec.ofNat 32 s.geometry.w) := rfl
theorem header_height (bpp : Nat) (s : State) : headerField bpp s 22 4 = le32 (heightField s) := rfl
theorem header_planes (bpp : Nat) (s : State) : headerField bpp s 26 2 = le16 1 := rfl
theorem header_depth (bpp : Nat) (s : State) : headerField bpp s 28 2 = le16 (BitVec.ofNat 16 bpp) := rfl
theorem header_compression (bpp : Nat) (s : State) : headerField bpp s 30 4 = le32 0 := rfl
theorem header_imageSize (bpp : Nat) (s : State) :
    headerField bpp s 34 4 = le32 (BitVec.ofNat 32 (imageBytes s.geometry bpp)) := rfl
theorem header_xResolution (bpp : Nat) (s : State) : headerField bpp s 38 4 = le32 0 := rfl
theorem header_yResolution (bpp : Nat) (s : State) : headerField bpp s 42 4 = le32 0 := rfl
theorem header_coloursUsed (bpp : Nat) (s : State) : headerField bpp s 46 4 = le32 (BitVec.ofNat 32 (coloursUsed bpp s)) := rfl
theorem header_coloursImportant (bpp : Nat) (s : State) :
    headerField bpp s 50 4 = le32 (BitVec.ofNat 32 (coloursUsed bpp s)) := rfl

/-- A byte of a header field as it stands in OUT. -/
theorem outRead_header {m : Memory Byte} {bpp : Nat} {p : PixelSource} {s : State} {a n i : Nat} {v : Byte}
    (ha : a + i < 54) (h : (headerField bpp s a n)[i]? = some v) :
    outRead (Memory.writeBlock m 0 (bmpFile bpp p s)) (a + i) = v := by
  unfold headerField at h
  rw [List.getElem?_take] at h
  split at h
  · rw [List.getElem?_drop] at h
    exact outRead_file ((bmpFile_header ha).trans h)
  · cases h

/-- A 32-bit header field as it stands in OUT. -/
theorem outRead_header32 {m : Memory Byte} {bpp : Nat} {p : PixelSource} {s : State} {a : Nat} {v : Word}
    (ha : a + 3 < 54) (h : headerField bpp s a 4 = le32 v) :
    (outRead (Memory.writeBlock m 0 (bmpFile bpp p s)) a).toNat
      + 256 * (outRead (Memory.writeBlock m 0 (bmpFile bpp p s)) (a + 1)).toNat
      + 65536 * ((outRead (Memory.writeBlock m 0 (bmpFile bpp p s)) (a + 2)).toNat
          + 256 * (outRead (Memory.writeBlock m 0 (bmpFile bpp p s)) (a + 2 + 1)).toNat) = v.toNat := by
  rw [← le32_bytes v]
  have h0 := outRead_header (m := m) (p := p) (i := 0) (a := a) (n := 4) (v := v.extractLsb' 0 8) (by omega) (by rw [h]; rfl)
  rw [Nat.add_zero] at h0
  rw [h0, outRead_header (n := 4) (v := v.extractLsb' 8 8) (by omega) (by rw [h]; rfl),
    outRead_header (n := 4) (v := v.extractLsb' 16 8) (by omega) (by rw [h]; rfl), Nat.add_assoc a 2 1,
    outRead_header (n := 4) (v := v.extractLsb' 24 8) (by omega) (by rw [h]; rfl)]

/-- A 16-bit header field as it stands in OUT. -/
theorem outRead_header16 {m : Memory Byte} {bpp : Nat} {p : PixelSource} {s : State} {a : Nat} {v : BitVec 16}
    (ha : a + 1 < 54) (h : headerField bpp s a 2 = le16 v) :
    (outRead (Memory.writeBlock m 0 (bmpFile bpp p s)) a).toNat
      + 256 * (outRead (Memory.writeBlock m 0 (bmpFile bpp p s)) (a + 1)).toNat = v.toNat := by
  rw [← le16_bytes v]
  have h0 := outRead_header (m := m) (p := p) (i := 0) (a := a) (n := 2) (v := v.extractLsb' 0 8) (by omega) (by rw [h]; rfl)
  rw [Nat.add_zero] at h0
  rw [h0, outRead_header (n := 2) (v := v.extractLsb' 8 8) (by omega) (by rw [h]; rfl)]

end Sys2Proof.Machine
end

