-- ==== Sys2Proof/Laws/PerInstr.lean ====
section
/-! SUPPORT. Statements made instruction by instruction. The family `EncodeFields` says which OPC, SUB and IMM the word of a
command carries (rules R60 to R65, R68). -/

namespace Sys2Proof.Laws

theorem opcOf_toNat (w : Word) : (opcOf w).toNat = w.toNat % 16 := by
  simp [opcOf, BitVec.extractLsb'_toNat]

theorem subOf_toNat (w : Word) : (subOf w).toNat = w.toNat / 16 % 16 := by
  simp [subOf, BitVec.extractLsb'_toNat, Nat.shiftRight_eq_div_pow]

theorem immOf_toNat (w : Word) : (immOf w).toNat = w.toNat / 256 := by
  have h := w.isLt
  simp only [immOf, BitVec.extractLsb'_toNat, Nat.shiftRight_eq_div_pow]
  rw [Nat.mod_eq_of_lt (by omega)]

theorem commandWord_toNat (imm : BitVec 24) (sub opc : BitVec 4) :
    (commandWord imm sub opc).toNat = imm.toNat * 256 + sub.toNat * 16 + opc.toNat := by
  have h1 : (commandWord imm sub opc).toNat = (imm.toNat <<< 4 ||| sub.toNat) <<< 4 ||| opc.toNat := by
    simp only [commandWord, BitVec.toNat_append]
  rw [h1, ← Nat.shiftLeft_add_eq_or_of_lt sub.isLt, ← Nat.shiftLeft_add_eq_or_of_lt opc.isLt,
    Nat.shiftLeft_eq, Nat.shiftLeft_eq]
  omega

theorem opcOf_commandWord (imm : BitVec 24) (sub opc : BitVec 4) : opcOf (commandWord imm sub opc) = opc := by
  apply BitVec.eq_of_toNat_eq
  rw [opcOf_toNat, commandWord_toNat]
  have := opc.isLt
  omega

theorem subOf_commandWord (imm : BitVec 24) (sub opc : BitVec 4) : subOf (commandWord imm sub opc) = sub := by
  apply BitVec.eq_of_toNat_eq
  rw [subOf_toNat, commandWord_toNat]
  have := opc.isLt
  have := sub.isLt
  omega

theorem immOf_commandWord (imm : BitVec 24) (sub opc : BitVec 4) : immOf (commandWord imm sub opc) = imm := by
  apply BitVec.eq_of_toNat_eq
  rw [immOf_toNat, commandWord_toNat]
  have := opc.isLt
  have := sub.isLt
  omega

/-- Every word is the word of its three fields. -/
theorem commandWord_fields (w : Word) : commandWord (immOf w) (subOf w) (opcOf w) = w := by
  apply BitVec.eq_of_toNat_eq
  rw [commandWord_toNat, immOf_toNat, subOf_toNat, opcOf_toNat]
  omega

theorem pixelSourceOf_code (p : PixelSource) : pixelSourceOf (pixelSourceCode p) = some p := by
  cases p <;> decide

/-- Decoding a word that is written by its fields (rules R62 to R66). -/
theorem decode_commandWord (imm : BitVec 24) (sub opc : BitVec 4) : decode (commandWord imm sub opc)
    = if opc = 1 then (if sub = 0 then .ok (.palgray imm) else .error .paletteSub)
      else if opc = 2 then decodeQuantizer sub imm
      else if opc = 3 then decodeEncoder sub imm
      else .error .reservedOpcode := by
  unfold decode
  rw [opcOf_commandWord, subOf_commandWord, immOf_commandWord]

/-- The OPC, SUB and IMM fields of a command's word. -/
def EncodeFields.Statement : Instr → Prop
  | .palgray n => opcOf (encode (.palgray n)) = 1 ∧ subOf (encode (.palgray n)) = 0 ∧ immOf (encode (.palgray n)) = n
  | .qnone => opcOf (encode .qnone) = 2 ∧ subOf (encode .qnone) = 0 ∧ immOf (encode .qnone) = 0
  | .qfs => opcOf (encode .qfs) = 2 ∧ subOf (encode .qfs) = 1 ∧ immOf (encode .qfs) = 0
  | .qatk => opcOf (encode .qatk) = 2 ∧ subOf (encode .qatk) = 2 ∧ immOf (encode .qatk) = 0
  | .qpass => opcOf (encode .qpass) = 2 ∧ subOf (encode .qpass) = 3 ∧ immOf (encode .qpass) = 0
  | .enc1 p => opcOf (encode (.enc1 p)) = 3 ∧ subOf (encode (.enc1 p)) = pixelSourceCode p ∧ immOf (encode (.enc1 p)) = 1
  | .enc2 p => opcOf (encode (.enc2 p)) = 3 ∧ subOf (encode (.enc2 p)) = pixelSourceCode p ∧ immOf (encode (.enc2 p)) = 2
  | .enc4 p => opcOf (encode (.enc4 p)) = 3 ∧ subOf (encode (.enc4 p)) = pixelSourceCode p ∧ immOf (encode (.enc4 p)) = 4
  | .enc8 p => opcOf (encode (.enc8 p)) = 3 ∧ subOf (encode (.enc8 p)) = pixelSourceCode p ∧ immOf (encode (.enc8 p)) = 8
  | .enc24 p =>
    opcOf (encode (.enc24 p)) = 3 ∧ subOf (encode (.enc24 p)) = pixelSourceCode p ∧ immOf (encode (.enc24 p)) = 24
  | .enc bpp p =>
    opcOf (encode (.enc bpp p)) = 3 ∧ subOf (encode (.enc bpp p)) = pixelSourceCode p ∧ immOf (encode (.enc bpp p)) = bpp

/-- The fields of any command word built from fields. -/
theorem fields_commandWord (imm : BitVec 24) (sub opc : BitVec 4) :
    opcOf (commandWord imm sub opc) = opc ∧ subOf (commandWord imm sub opc) = sub
      ∧ immOf (commandWord imm sub opc) = imm :=
  ⟨opcOf_commandWord imm sub opc, subOf_commandWord imm sub opc, immOf_commandWord imm sub opc⟩

theorem EncodeFields.palgray (n : BitVec 24) : EncodeFields.Statement (.palgray n) := fields_commandWord n 0 1
theorem EncodeFields.qnone : EncodeFields.Statement .qnone := fields_commandWord 0 0 2
theorem EncodeFields.qfs : EncodeFields.Statement .qfs := fields_commandWord 0 1 2
theorem EncodeFields.qatk : EncodeFields.Statement .qatk := fields_commandWord 0 2 2
theorem EncodeFields.qpass : EncodeFields.Statement .qpass := fields_commandWord 0 3 2
theorem EncodeFields.enc1 (p : PixelSource) : EncodeFields.Statement (.enc1 p) := fields_commandWord 1 (pixelSourceCode p) 3
theorem EncodeFields.enc2 (p : PixelSource) : EncodeFields.Statement (.enc2 p) := fields_commandWord 2 (pixelSourceCode p) 3
theorem EncodeFields.enc4 (p : PixelSource) : EncodeFields.Statement (.enc4 p) := fields_commandWord 4 (pixelSourceCode p) 3
theorem EncodeFields.enc8 (p : PixelSource) : EncodeFields.Statement (.enc8 p) := fields_commandWord 8 (pixelSourceCode p) 3
theorem EncodeFields.enc24 (p : PixelSource) : EncodeFields.Statement (.enc24 p) := fields_commandWord 24 (pixelSourceCode p) 3
theorem EncodeFields.enc (bpp : BitVec 24) (p : PixelSource) : EncodeFields.Statement (.enc bpp p) :=
  fields_commandWord bpp (pixelSourceCode p) 3

end Sys2Proof.Laws
end

