-- ==== Sys2Proof/Laws/Windows.lean ====
section
/-! SUPPORT. The memories after each operation that writes them: canonical form, capacity and written windows, the parts of
`Inv` (rules R5, R13, R47). -/

namespace Sys2Proof.Machine

/-! ### Quantizer -/

theorem rasterBytes_le {g : Geometry} (h : g.legal = true) : g.rasterBytes ≤ Config.srcCap := by
  rw [Geometry.legal_iff] at h
  have h1 : g.w * g.h ≤ 4096 * 4096 := Nat.mul_le_mul h.2.1 h.2.2.2.1
  have h2 : g.w * g.h * g.c ≤ 4096 * 4096 * 4 := Nat.mul_le_mul h1 (by omega)
  exact h2

theorem pixels_le {g : Geometry} (h : g.legal = true) : g.pixels ≤ Config.idxCap := by
  rw [Geometry.legal_iff] at h
  exact Nat.mul_le_mul h.2.1 h.2.2.2.1

theorem copySource_wf {s : State} (h : Memory.wf s.work = true) : Memory.wf (copySource s) = true := Memory.wf_writeBlock _ _ h

theorem copySource_within {s : State} (hl : s.geometry.legal = true) (h : Memory.within s.work Config.srcCap) :
    Memory.within (copySource s) Config.srcCap :=
  Memory.within_writeBlock _ h (by rw [sourceBytes_length, Nat.zero_add]; exact rasterBytes_le hl)

theorem copySource_listed (s : State) : Memory.listedBelow (copySource s) s.geometry.rasterBytes := by
  have := Memory.listedBelow_writeBlock s.work (sourceBytes s)
  rwa [sourceBytes_length] at this

theorem quantizePass_wf {R : Config.Rounding} {kernel : List Tap} {s : State} (hl : s.geometry.legal = true)
    (h : Memory.wf s.work = true) : Memory.wf (quantizePass R kernel s).work = true := by
  rw [quantizePass_eq R kernel hl]
  exact scanTo_keeps (fun m => Memory.wf m = true) (fun _ _ _ _ m v hm => Memory.wf_write _ v hm) _ (copySource_wf h) (le_refl _)

theorem quantizePass_wf_idx {R : Config.Rounding} {kernel : List Tap} {s : State} (hl : s.geometry.legal = true)
    (h : Memory.wf s.idx = true) : Memory.wf (quantizePass R kernel s).idx = true := by
  rw [quantizePass_eq R kernel hl]
  exact scanTo_keeps_idx (fun m => Memory.wf m = true) (fun _ _ m v hm => Memory.wf_write _ v hm) _ h (le_refl _)

theorem quantizePass_within {R : Config.Rounding} {kernel : List Tap} {s : State} (hl : s.geometry.legal = true)
    (h : Memory.within s.work Config.srcCap) : Memory.within (quantizePass R kernel s).work Config.srcCap := by
  rw [quantizePass_eq R kernel hl]
  refine scanTo_keeps (fun m => Memory.within m Config.srcCap) (fun n ch hn hch m v hm => ?_) _
    (copySource_within hl h) (le_refl _)
  refine Memory.within_write v hm (Nat.lt_of_lt_of_le ?_ (rasterBytes_le hl))
  rw [rasterBytes_eq]
  exact byte_lt hn (by have := legal_c hl; omega)

theorem quantizePass_within_idx {R : Config.Rounding} {kernel : List Tap} {s : State} (hl : s.geometry.legal = true)
    (h : Memory.within s.idx Config.idxCap) : Memory.within (quantizePass R kernel s).idx Config.idxCap := by
  rw [quantizePass_eq R kernel hl]
  exact scanTo_keeps_idx (fun m => Memory.within m Config.idxCap)
    (fun n hn m v hm => Memory.within_write v hm (Nat.lt_of_lt_of_le hn (pixels_le hl))) _ h (le_refl _)

theorem quantizePass_listed {R : Config.Rounding} {kernel : List Tap} {s : State} (hl : s.geometry.legal = true) :
    Memory.listedBelow (quantizePass R kernel s).work s.geometry.rasterBytes := by
  rw [quantizePass_eq R kernel hl]
  exact scanTo_keeps (fun m => Memory.listedBelow m s.geometry.rasterBytes)
    (fun _ _ _ _ m v hm => Memory.listedBelow_write _ v hm) _ (copySource_listed s) (le_refl _)

/-! ### Palette and encoder -/

theorem grayRamp_length (R : Config.Rounding) (n : Nat) : (grayRamp R n).length = n := by simp [grayRamp]

theorem file_within {m : Memory Byte} {bpp : Nat} {p : PixelSource} {s : State} (hl : s.geometry.legal = true)
    (hb : bpp = 1 ∨ bpp = 2 ∨ bpp = 4 ∨ bpp = 8 ∨ bpp = 24) (h : Memory.within m Config.outCap) :
    Memory.within (Memory.writeBlock m 0 (bmpFile bpp p s)) Config.outCap :=
  Memory.within_writeBlock _ h (by rw [bmpFile_length, Nat.zero_add]; exact fileBytes_le hl hb)

theorem file_listed (m : Memory Byte) (bpp : Nat) (p : PixelSource) (s : State) :
    Memory.listedBelow (Memory.writeBlock m 0 (bmpFile bpp p s)) (fileBytes s.geometry bpp) := by
  have := Memory.listedBelow_writeBlock m (bmpFile bpp p s)
  rwa [bmpFile_length] at this

/-- OUT holds the file that was written to it. -/
theorem file_bytes (m : Memory Byte) {bpp : Nat} {p : PixelSource} {s : State} {a : Nat} (h : a < fileBytes s.geometry bpp) :
    (bmpFile bpp p s)[a]? = some (outRead (Memory.writeBlock m 0 (bmpFile bpp p s)) a) := by
  have hl : a < (bmpFile bpp p s).length := by rw [bmpFile_length]; exact h
  rw [outRead_file (List.getElem?_eq_getElem hl), List.getElem?_eq_getElem hl]

/-! ### Pushes -/

theorem bumpCount_toNat (n : Word) : (bumpCount n).toNat = min (n.toNat + 1) (2 ^ 32 - 1) := by
  unfold bumpCount
  have := n.isLt
  split
  · rw [BitVec.toNat_add]
    simp
    omega
  · omega

/-- A window that grows by the element just written. -/
theorem Memory.listedBelow_push {α : Type} {m : Memory α} {n : Nat} (v : α) (h : Memory.listedBelow m n) :
    Memory.listedBelow (Memory.write m n v) (n + 1) := by
  intro a ha
  rw [Memory.lookup_write]
  split
  · rfl
  · exact h a (by omega)

theorem Memory.listedBelow_mono {α : Type} {m : Memory α} {n k : Nat} (h : Memory.listedBelow m n) (hk : k ≤ n) :
    Memory.listedBelow m k := fun a ha => h a (by omega)

theorem Memory.listedBelow_zero {α : Type} (m : Memory α) : Memory.listedBelow m 0 := fun a ha => by omega

end Sys2Proof.Machine
end

