-- ==== Sys2Proof/Tests/Slice0.lean ====
section
/-! SUPPORT. The model's own tests: ill-formed terms refused, words written out from the spec decoded and encoded, one step
per command against the spec's vectors (`95_test_vectors.md`), and for every statement with hypotheses a witness that
meets them. -/

namespace Sys2Proof.Tests

open Sys2Proof.Machine Sys2Proof.Claims

/-! ### WellFormed -/

theorem test_wf_refuses_enc24_indexed : Instr.wf (.enc24 .idx) = false := by decide
theorem test_wf_refuses_named_depths : Instr.wf (.enc 1 .src) = false ∧ Instr.wf (.enc 2 .work) = false
    ∧ Instr.wf (.enc 4 .idx) = false ∧ Instr.wf (.enc 8 .src) = false ∧ Instr.wf (.enc 24 .work) = false := by decide
theorem test_wf_accepts_other_depths : Instr.wf (.enc 16 .src) = true ∧ Instr.wf (.enc 0 .work) = true
    ∧ Instr.wf (.enc 16777215 .idx) = true := by decide

/-! ### Decoding: the words of rules R63, R65 and R68 and of V-W -/

theorem test_decode_palette : decode 0x00000201 = .ok (.palgray 2) ∧ decode 0x00010001 = .ok (.palgray 256)
    ∧ decode 0xFFFFFF01 = .ok (.palgray 16777215) ∧ decode 0x00000211 = .error .paletteSub := by decide

theorem test_decode_quantizer : decode 0x00000002 = .ok .qnone ∧ decode 0x00000012 = .ok .qfs
    ∧ decode 0x00000022 = .ok .qatk ∧ decode 0x00000032 = .ok .qpass ∧ decode 0x00000042 = .error .quantizerSub
    ∧ decode 0x000000F2 = .error .quantizerSub ∧ decode 0x00000102 = .error .quantizerImm := by decide

theorem test_decode_encoder_src : decode 0x00000103 = .ok (.enc1 .src) ∧ decode 0x00000203 = .ok (.enc2 .src)
    ∧ decode 0x00000403 = .ok (.enc4 .src) ∧ decode 0x00000803 = .ok (.enc8 .src)
    ∧ decode 0x00001803 = .ok (.enc24 .src) := by decide

theorem test_decode_encoder_work : decode 0x00000113 = .ok (.enc1 .work) ∧ decode 0x00000213 = .ok (.enc2 .work)
    ∧ decode 0x00000413 = .ok (.enc4 .work) ∧ decode 0x00000813 = .ok (.enc8 .work)
    ∧ decode 0x00001813 = .ok (.enc24 .work) := by decide

theorem test_decode_encoder_idx : decode 0x00000123 = .ok (.enc1 .idx) ∧ decode 0x00000223 = .ok (.enc2 .idx)
    ∧ decode 0x00000423 = .ok (.enc4 .idx) ∧ decode 0x00000823 = .ok (.enc8 .idx)
    ∧ decode 0x00001823 = .error .indexedTruecolour := by decide

theorem test_decode_other_depths : decode 0x00000003 = .ok (.enc 0 .src) ∧ decode 0x00001003 = .ok (.enc 16 .src)
    ∧ decode 0x00002023 = .ok (.enc 32 .idx) ∧ decode 0xFFFFFF13 = .ok (.enc 16777215 .work) := by decide

theorem test_decode_illegal : decode 0x00000000 = .error .reservedOpcode ∧ decode 0x00000004 = .error .reservedOpcode
    ∧ decode 0xFFFFFFFF = .error .reservedOpcode ∧ decode 0x00000833 = .error .encoderSource
    ∧ decode 0x00001033 = .error .encoderSource := by decide

theorem test_encode_words : encode (.palgray 256) = 0x00010001 ∧ encode .qnone = 0x00000002 ∧ encode .qfs = 0x00000012
    ∧ encode .qatk = 0x00000022 ∧ encode .qpass = 0x00000032 ∧ encode (.enc1 .work) = 0x00000113
    ∧ encode (.enc2 .idx) = 0x00000223 ∧ encode (.enc4 .src) = 0x00000403 ∧ encode (.enc8 .idx) = 0x00000823
    ∧ encode (.enc24 .work) = 0x00001813 ∧ encode (.enc 32 .idx) = 0x00002023 := by decide

theorem test_decodeTableWord : decodeTableWord 32 0x12 = some .qfs ∧ decodeTableWord 8 0xFFFF02 = some .qnone
    ∧ decodeTableWord 32 0 = none := by decide

/-! ### States of the tests -/

/-- The state a command leaves. -/
def after (i : Instr) (s : State) : State :=
  match exec i s with
  | .next t => t
  | .fault _ => s
  | .refused _ => s

theorem exec_after (i : Instr) (s : State) : exec i s = .next (after i s) := by
  obtain ⟨t, h⟩ := exec_total i s
  unfold after
  rw [h]

def gray (v : Byte) : Colour := { r := v, g := v, b := v }

/-- A gray raster of three channels. -/
def grays (vs : List Byte) : Memory Byte := Memory.block 0 (vs.flatMap (fun v => [v, v, v]))

/-- A block with a geometry, a palette and a source raster loaded. -/
def loaded (w h c : Word) (pal : List Colour) (src : Memory Byte) : State :=
  { State.reset with
    width := w
    height := h
    channels := c
    pal := Memory.block 0 pal
    palLen := BitVec.ofNat 32 pal.length
    src := src
    srcLen := BitVec.ofNat 32 src.length }

/-- The start state of V-X and V-Q12: W = 2, H = 1, C = 3, SRC_LEN = 6, PAL_LEN = 2, WORK and IDX valid. -/
def base : State :=
  { loaded 2 1 3 [gray 0, gray 255] (grays [10, 200]) with
    workValid := true
    idxValid := true
    work := grays [0, 255]
    idx := Memory.block 0 [0, 1] }

/-- A block whose IDX plane holds the given indices. -/
def indexed (w h : Word) (pal : List Colour) (ks : List Byte) : State :=
  { loaded w h 3 pal [] with
    workValid := true
    idxValid := true
    idx := Memory.block 0 ks }

def errorOf (s : State) : Option CmdError :=
  match s.phase with
  | .error e => some e
  | .idle => none
  | .busy _ => none
  | .done => none

/-- `n` bytes of OUT from `a`. -/
def outBytes (s : State) (a n : Nat) : List Byte := (List.range n).map (fun i => outRead s.out (a + i))

def workBytes (s : State) (n : Nat) : List Byte := (List.range n).map (workRead s.work)

def idxBytes (s : State) (n : Nat) : List Byte := (List.range n).map (idxRead s.idx)

/-! ### Commands, against the spec's vectors -/

/-- V-P5: ties are rounded up. -/
theorem test_palgray_7 : ((List.range 7).map (palRead (after (.palgray 7) State.reset).pal))
    = [gray 0, gray 43, gray 85, gray 128, gray 170, gray 213, gray 255] := by decide

/-- V-P9 and V-P10. -/
theorem test_palgray_errors : errorOf (after (.palgray 1) State.reset) = some .invalidPaletteSize
    ∧ errorOf (after (.palgray 257) State.reset) = some .invalidPaletteSize := by decide

/-- V-Q2. -/
theorem test_qnone : workBytes (after .qnone (loaded 2 1 3 [gray 0, gray 85, gray 170, gray 255] (grays [10, 200]))) 6
      = [0, 0, 0, 170, 170, 170]
    ∧ idxBytes (after .qnone (loaded 2 1 3 [gray 0, gray 85, gray 170, gray 255] (grays [10, 200]))) 2 = [0, 2] := by decide

/-- V-S6 and V-N9: a tie goes to the lower index. -/
theorem test_nearest_tie : nearest [gray 0, gray 10] (gray 5) = 0 ∧ nearest [gray 10, gray 0] (gray 5) = 0
    ∧ nearest [gray 0, gray 10, gray 10] (gray 9) = 1 := by decide

/-- V-Q4 (a): the error of the last column does not wrap to the next row. -/
theorem test_qfs_edge :
    idxBytes (after .qfs (loaded 2 2 3 [gray 0, gray 1, gray 3, gray 5, gray 7, gray 216] (grays [0, 232, 0, 0]))) 4
      = [0, 5, 2, 3] := by decide

/-- V-Q5. -/
theorem test_qfs_trace : idxBytes (after .qfs (loaded 4 2 3 [gray 0, gray 255] (grays [100, 100, 100, 100, 100, 100, 100, 100]))) 8
      = [0, 1, 0, 0, 0, 1, 0, 1] := by decide +kernel

/-- V-D: the floor of the exact sum, clamped. -/
theorem test_diffuse : diffuse 100 (-10) 7 16 = 95 ∧ diffuse 100 10 7 16 = 104 ∧ diffuse 3 (-10) 7 16 = 0
    ∧ diffuse 250 16 7 16 = 255 ∧ diffuse 100 (-10) 3 32 = 99 ∧ diffuse 100 255 3 32 = 123 := by decide

/-- V-Q7: the six Atkinson neighbours, and no other pixel. -/
theorem test_qatk_isolated :
    idxBytes (after .qatk (loaded 4 3 3 [gray 0, gray 3, gray 223] (grays [0, 255, 0, 0, 0, 0, 0, 0, 0, 0, 0, 0]))) 12
      = [0, 2, 1, 1, 1, 1, 1, 0, 0, 1, 0, 0] := by decide +kernel

/-- Program P2: four channels, alpha untouched. -/
theorem test_qatk_alpha :
    workBytes (after .qatk (loaded 3 2 4 [gray 0, { r := 255, g := 0, b := 0 }, gray 255] (Memory.block 0
      [120, 120, 120, 10, 120, 120, 120, 20, 120, 120, 120, 30, 200, 40, 40, 40, 120, 120, 120, 50, 120, 120, 120, 60]))) 24
    = [0, 0, 0, 10, 255, 255, 255, 20, 0, 0, 0, 30, 255, 0, 0, 40, 255, 255, 255, 50, 0, 0, 0, 60] := by decide +kernel

/-- The example of rule R104. -/
theorem test_qpass : workBytes (after .qpass (loaded 1 1 4 [] (Memory.block 0 [10, 20, 30, 40]))) 4 = [10, 20, 30, 40]
    ∧ (after .qpass base).workValid = true ∧ (after .qpass base).idxValid = false := by decide

/-- V-E2: stored row 0 is raster row 1, then raster row 0. -/
theorem test_enc1 : outBytes (after (.enc1 .idx) (indexed 10 2 [gray 0, gray 255]
      [1, 1, 1, 1, 1, 1, 1, 1, 1, 1, 1, 0, 1, 0, 1, 0, 1, 0, 1, 0])) 54 16
    = [0, 0, 0, 0, 255, 255, 255, 0, 0xAA, 0x80, 0, 0, 0xFF, 0xC0, 0, 0] := by decide +kernel

/-- V-E3, the whole file of 74 bytes. -/
theorem test_enc2 : outBytes (after (.enc2 .idx) (indexed 5 1
      [{ r := 255, g := 0, b := 0 }, { r := 0, g := 255, b := 0 }, { r := 0, g := 0, b := 255 }] [0, 1, 2, 1, 0])) 0 74
    = [0x42, 0x4D, 0x4A, 0, 0, 0, 0, 0, 0, 0, 0x46, 0, 0, 0, 0x28, 0, 0, 0, 5, 0, 0, 0, 1, 0, 0, 0, 1, 0, 2, 0]
      ++ [0, 0, 0, 0, 4, 0, 0, 0, 0, 0, 0, 0, 0, 0, 0, 0, 3, 0, 0, 0, 3, 0, 0, 0, 0, 0, 0xFF, 0, 0, 0xFF, 0, 0]
      ++ [0xFF, 0, 0, 0, 0, 0, 0, 0, 0x19, 0, 0, 0] := by decide +kernel

/-- V-E4: the pixel array, bottom-up. -/
theorem test_enc4 : outBytes (after (.enc4 .idx) (indexed 3 2 (grayRamp rounding 16) [1, 2, 3, 15, 0, 9])) 118 8
    = [0xF0, 0x90, 0, 0, 0x12, 0x30, 0, 0] := by decide +kernel

/-- V-E5: the pixel array and OUT_LEN. -/
theorem test_enc8 : outBytes (after (.enc8 .idx) (indexed 3 2 [gray 0, gray 255] [0, 1, 0, 1, 1, 0])) 1078 8
      = [1, 1, 0, 0, 0, 1, 0, 0]
    ∧ (after (.enc8 .idx) (indexed 3 2 [gray 0, gray 255] [0, 1, 0, 1, 1, 0])).outLen = 1086 := by decide +kernel

/-- V-E1 with CFG = 0x3F: height -1, then B, G, R and two padding bytes. -/
theorem test_enc24 :
    outBytes (after (.enc24 .src) { loaded 2 1 3 [] (Memory.block 0 [10, 20, 30, 40, 50, 60]) with cfg := 0x3F }) 22 4
      = [0xFF, 0xFF, 0xFF, 0xFF]
    ∧ outBytes (after (.enc24 .src) { loaded 2 1 3 [] (Memory.block 0 [10, 20, 30, 40, 50, 60]) with cfg := 0x3F }) 54 8
      = [0x1E, 0x14, 0x0A, 0x3C, 0x32, 0x28, 0, 0] := by decide +kernel

/-- Program P4, first line, and V-X, line 3. -/
theorem test_enc_other : errorOf (after (.enc 16 .src) State.reset) = some .unsupportedBitDepth
    ∧ errorOf (after (.enc 3 .idx) base) = some .unsupportedBitDepth := by decide

/-- V-X: the order of the checks. -/
theorem test_error_order : errorOf (after (.enc1 .src) { base with palLen := 0, width := 0 }) = some .paletteSizeMismatch
    ∧ errorOf (after (.enc8 .src) { base with palLen := 0, cfg := 0x2E }) = some .unsupportedBitDepth
    ∧ errorOf (after (.enc1 .src) { base with srcLen := 7 }) = some .invalidRasterSize
    ∧ errorOf (after (.enc1 .idx) { base with idxValid := false }) = some .sourceNotReady
    ∧ errorOf (after .qfs { base with srcLen := 5, palLen := 0 }) = some .invalidRasterSize
    ∧ errorOf (after .qatk { base with palLen := 0 }) = some .invalidPalette
    ∧ errorOf (after .qpass { base with width := 4097 }) = some .parameterOutOfRange := by decide

/-- Program P4: an illegal word leaves the flags alone, STATUS = 0x783 with all three set. -/
theorem test_illegal_word : statusWord ({ base with outValid := true }.setPhase (.error .illegalCommand)) = 0x783 := by decide

/-- V-P14: pushes are kept in order, the word is `0x..RRGGBB`. -/
theorem test_push_palette : palRead (pushColour 0x99112233 State.reset).pal 0 = { r := 0x11, g := 0x22, b := 0x33 }
    ∧ (pushColour 0x99112233 State.reset).palLen = 1 ∧ (bumpCount 0xFFFFFFFF) = 0xFFFFFFFF := by decide

/-! ### Witnesses: concrete states and operands that meet the hypotheses of the statements -/

/-- `base` holds the result of QNONE for its own SRC raster and palette. -/
theorem base_holds : holdsRaster base ∧ holdsIndices base := by
  have hc : firstFailure (quantizerChecks base) = none := by decide
  have hw : ∀ a, a < base.geometry.rasterBytes → workRead base.work a = workRead (quantizePass rounding [] base).work a := by
    decide +kernel
  have hi : ∀ a, a < base.geometry.pixels → idxRead base.idx a = idxRead (quantizePass rounding [] base).idx a := by
    decide +kernel
  exact ⟨⟨base, rfl, .inr ⟨[], .inl rfl, hc, hw⟩⟩, base, [], .inl rfl, rfl, rfl, hc, hw, hi⟩

theorem base_inv : Inv base := by
  have listed : ∀ {α : Type} (m : Memory α) (n : Nat), (∀ a, a < n → (Memory.lookup m a).isSome = true) →
      Memory.listedBelow m n := fun _ _ h => h
  have above : ∀ {α : Type} (m : Memory α) (cap : Nat), (∀ e ∈ m, e.1 < cap) → Memory.within m cap := by
    intro α m cap h a ha
    induction m with
    | nil => rfl
    | cons e m ih =>
      obtain ⟨b, v⟩ := e
      have hb : b < cap := h (b, v) List.mem_cons_self
      rw [Memory.lookup_cons, if_neg (by omega)]
      exact ih (fun e he => h e (List.mem_cons_of_mem _ he))
  refine ⟨by decide, by decide, by decide, by decide, by decide, above _ _ (by decide), above _ _ (by decide),
    above _ _ (by decide), above _ _ (by decide), above _ _ (by decide), listed _ _ (by decide), listed _ _ (by decide),
    fun _ => ⟨by decide, listed _ _ (by decide), base_holds.1⟩,
    fun _ => ⟨rfl, by decide, by decide, fun a ha => ?_, base_holds.2⟩, nofun, nofun⟩
  have h2 : a < 2 := ha
  have hcases : a = 0 ∨ a = 1 := by omega
  rcases hcases with rfl | rfl
  · exact ⟨0, by decide, by decide, by decide, by decide⟩
  · exact ⟨1, by decide, by decide, by decide, by decide⟩

/-- `base` with one event to come. -/
def withEvent (e : Event) (s : State) : State := { s with agenda := [e] }

/-- `base` while QNONE runs. -/
def running : State := { base with phase := .busy 2 }

theorem base_legal : legalGeometry base := by
  unfold legalGeometry
  decide

theorem base_ready : quantizerReady base := ⟨base_legal, by decide, by decide, by decide⟩

/-- The largest geometry, the largest palette. -/
theorem largest_ready : quantizerReady { base with
    width := 4096, height := 4096, channels := 4, srcLen := 67108864, palLen := 256 } := by
  unfold quantizerReady legalGeometry
  decide

theorem base_encoder_ready : encoderReady 1 .src base ∧ encoderReady 1 .idx base ∧ encoderReady 2 .work base
    ∧ encoderReady 4 .src base ∧ encoderReady 8 .idx base ∧ encoderReady 24 .src base ∧ encoderReady 24 .work base := by
  have h : ∀ bpp p, ¬ (bpp = 24 ∧ p = .idx) → depthOn bpp base → (bpp < 24 → 2 ≤ 2 ^ bpp) → encoderReady bpp p base := by
    intro bpp p h1 h2 h3
    refine ⟨h1, h2, fun hb => ⟨by decide, h3 hb⟩, base_legal, fun _ => by decide, fun _ => rfl, fun _ => rfl⟩
  have hd : depthOn 1 base ∧ depthOn 2 base ∧ depthOn 4 base ∧ depthOn 8 base ∧ depthOn 24 base := by
    unfold depthOn
    decide
  obtain ⟨d1, d2, d4, d8, d24⟩ := hd
  exact ⟨h 1 .src (by decide) d1 (by decide), h 1 .idx (by decide) d1 (by decide), h 2 .work (by decide) d2 (by decide),
    h 4 .src (by decide) d4 (by decide), h 8 .idx (by decide) d8 (by decide), h 24 .src (by decide) d24 (by decide),
    h 24 .work (by decide) d24 (by decide)⟩

theorem witness_DecodeOfEncode : Instr.wf (.palgray 16777215) = true ∧ Instr.wf .qatk = true ∧ Instr.wf (.enc8 .idx) = true
    ∧ Instr.wf (.enc24 .work) = true ∧ Instr.wf (.enc 16777215 .idx) = true := by decide

theorem witness_EncodeOfDecode : decode 0xFFFFFF01 = .ok (.palgray 16777215) ∧ decode 0x00001813 = .ok (.enc24 .work)
    ∧ decode 0x00001923 = .ok (.enc 25 .idx) := by decide

/-- One word of each clause of rule R66, at a boundary value, and the two states a word meets. -/
theorem witness_IllegalWordsAreExactlyThoseListed :
    (illegalWord 0x00000000 ∧ illegalWord 0x00000004 ∧ illegalWord 0xFFFFFFFF ∧ illegalWord 0x00000011)
    ∧ (illegalWord 0x00000042 ∧ illegalWord 0x00000102 ∧ illegalWord 0x00000033 ∧ illegalWord 0x00001823)
    ∧ (¬ illegalWord 0x00000032 ∧ ¬ illegalWord 0x00001923)
    ∧ (withEvent (.regWrite 0 0) base).isBusy = false ∧ (withEvent (.regWrite 0 0) base).agenda = .regWrite 0 0 :: []
    ∧ (withEvent .completion { base with phase := .busy 0 }).phase = .busy 0
    ∧ (withEvent (.regWrite 0 0) base).resetAsserted = false
    ∧ (withEvent .completion { base with phase := .busy 0 }).resetAsserted = false := by
  refine ⟨?_, ?_, ?_, rfl, rfl, rfl, rfl, rfl⟩ <;> unfold illegalWord <;> decide

theorem witness_StepRunsTheDecodedCommand : running.resetAsserted = false
    ∧ running.phase = .busy 2 ∧ decode 2 = .ok .qnone ∧ running.agenda = []
    ∧ (withEvent .completion running).phase = .busy 2 ∧ (withEvent .completion running).agenda = .completion :: [] := by
  decide

theorem witness_FetchWordRunsNext : decodeTableWord 32 0x823 = some (.enc8 .idx) := by decide

theorem witness_BusyDropsHostAccesses : (withEvent (.regWrite 3 9) running).resetAsserted = false
    ∧ (withEvent (.regWrite 3 9) running).isBusy = true
    ∧ (withEvent (.regWrite 3 9) running).agenda = .regWrite 3 9 :: []
    ∧ (withEvent (.regRead 1) running).agenda = .regRead 1 :: [] ∧ (withEvent (.regRead 1) running).isBusy = true
    ∧ (withEvent (.memRead .out 0) running).agenda = .memRead .out 0 :: [] := by decide

theorem witness_RunningCommandIsNotDisturbed :
    running.resetAsserted = false ∧ running.isBusy = true
    ∧ ∀ e ∈ [Event.regWrite 0 0x12, .regRead 1, .memRead .work 0], isHostAccess e := by
  refine ⟨rfl, rfl, fun e he => ?_⟩
  simp only [List.mem_cons, List.not_mem_nil, or_false] at he
  rcases he with rfl | rfl | rfl
  · exact .inr (.inl ⟨_, _, rfl⟩)
  · exact .inl ⟨_, rfl⟩
  · exact .inr (.inr ⟨_, _, rfl⟩)

theorem witness_RegisterReadsFollowTheMap : (withEvent (.regRead 10) base).resetAsserted = false
    ∧ (withEvent (.regRead 10) base).isBusy = false
    ∧ (withEvent (.regRead 10) base).agenda = .regRead 10 :: [] ∧ registerNumber base 1 = 0x300
    ∧ registerNumber base 2 = 0x3E ∧ registerNumber base 9 = 2 ∧ registerNumber base 11 = 0 := by decide

theorem witness_CommandPortAcceptsUnlessBusy : (withEvent (.regWrite 0 2) base).resetAsserted = false
    ∧ (withEvent (.regWrite 0 2) base).isBusy = false
    ∧ (withEvent (.regWrite 0 2) base).agenda = .regWrite 0 2 :: [] ∧ (withEvent (.regWrite 0 2) running).isBusy = true
    ∧ (withEvent (.regRead 0) base).agenda = .regRead 0 :: [] := by decide

theorem witness_ConfigurationWrites : (withEvent (.regWrite 2 0xFFFFFFFF) base).resetAsserted = false
    ∧ (withEvent (.regWrite 2 0xFFFFFFFF) base).isBusy = false
    ∧ (withEvent (.regWrite 2 0xFFFFFFFF) base).agenda = .regWrite 2 0xFFFFFFFF :: []
    ∧ (withEvent (.regWrite 3 0) base).agenda = .regWrite 3 0 :: []
    ∧ (withEvent (.regWrite 4 4097) base).agenda = .regWrite 4 4097 :: []
    ∧ (withEvent (.regWrite 5 5) base).agenda = .regWrite 5 5 :: [] := by decide

/-- Below, at and above the capacity, and at the saturation point. -/
theorem witness_SourcePushAppends : (withEvent (.regWrite 6 0x1FF) base).resetAsserted = false
    ∧ (withEvent (.regWrite 6 0x1FF) base).isBusy = false
    ∧ (withEvent (.regWrite 6 0x1FF) base).agenda = .regWrite 6 0x1FF :: []
    ∧ { base with srcLen := 67108863 }.srcLen.toNat < 67108864 ∧ 67108864 ≤ { base with srcLen := 67108864 }.srcLen.toNat
    ∧ { base with srcLen := 4294967295 }.srcLen.toNat = 2 ^ 32 - 1
    ∧ (withEvent (.regRead 6) base).agenda = .regRead 6 :: [] := by decide

theorem witness_PalettePushAppends : (withEvent (.regWrite 8 0xFF112233) base).resetAsserted = false
    ∧ (withEvent (.regWrite 8 0xFF112233) base).isBusy = false
    ∧ (withEvent (.regWrite 8 0xFF112233) base).agenda = .regWrite 8 0xFF112233 :: []
    ∧ { base with palLen := 255 }.palLen.toNat < 256 ∧ 256 ≤ { base with palLen := 256 }.palLen.toNat
    ∧ { base with palLen := 4294967295 }.palLen.toNat = 2 ^ 32 - 1
    ∧ (withEvent (.regRead 8) base).agenda = .regRead 8 :: [] := by decide

theorem witness_LengthWritesClear : (withEvent (.regWrite 7 5) base).resetAsserted = false
    ∧ (withEvent (.regWrite 7 5) base).isBusy = false
    ∧ (withEvent (.regWrite 7 5) base).agenda = .regWrite 7 5 :: []
    ∧ (withEvent (.regWrite 9 0) base).agenda = .regWrite 9 0 :: [] := by decide

theorem witness_ReservedRegistersDoNothing : (withEvent (.regWrite 11 1) base).resetAsserted = false
    ∧ (withEvent (.regWrite 11 1) base).agenda = .regWrite 11 1 :: []
    ∧ (withEvent (.regWrite 1 1) base).agenda = .regWrite 1 1 :: []
    ∧ (withEvent (.regWrite 10 1) base).agenda = .regWrite 10 1 :: []
    ∧ (withEvent (.regRead 11) base).isBusy = false ∧ (withEvent (.regRead 11) base).agenda = .regRead 11 :: [] := by decide

/-- The last address of each window, the first beyond it, and a valid flag that is 0. -/
theorem witness_MemoryReadsFollowTheWindows : (withEvent (.memRead .pal 1) base).resetAsserted = false
    ∧ (withEvent (.memRead .pal 1) base).agenda = .memRead .pal 1 :: []
    ∧ base.isBusy = false ∧ windowHolds .pal 1 base ∧ ¬ windowHolds .pal 2 base ∧ windowHolds .src 5 base
    ∧ ¬ windowHolds .src 6 base ∧ windowHolds .work 5 base ∧ ¬ windowHolds .work 6 base ∧ windowHolds .idx 1 base
    ∧ ¬ windowHolds .idx 2 base ∧ ¬ windowHolds .out 0 base
    ∧ windowHolds .out 65 { base with outValid := true, outLen := 66 }
    ∧ ¬ windowHolds .out 66 { base with outValid := true, outLen := 66 } := by
  unfold windowHolds
  decide

theorem witness_OutsideReadsRevealNothing : (withEvent (.memRead .idx 2) base).agenda = .memRead .idx 2 :: []
    ∧ ¬ windowHolds .idx 2 (withEvent (.memRead .idx 2) base) ∧ (withEvent (.memRead .src 0) running).isBusy = true
    ∧ (withEvent (.memRead .src 0) running).agenda = .memRead .src 0 :: [] := by
  unfold windowHolds
  decide

/-- `base` with its reset input asserted and one event to come: a state no run reaches, which one step mends. -/
def held (e : Event) : State := { base with resetAsserted := true, agenda := [e] }

/-- A success of each group, a failure, and each kind of event. -/
theorem witness_ValidityFlagsFollowTheTable :
    (exec (.palgray 2) base = .next (after (.palgray 2) base) ∧ (after (.palgray 2) base).phase = .done)
    ∧ (exec .qfs base = .next (after .qfs base) ∧ (after .qfs base).phase = .done ∧ isDiffuser .qfs)
    ∧ (exec .qpass base = .next (after .qpass base) ∧ (after .qpass base).phase = .done)
    ∧ (exec (.enc1 .idx) base = .next (after (.enc1 .idx) base) ∧ (after (.enc1 .idx) base).phase = .done
        ∧ isEncoder (.enc1 .idx) 1 .idx)
    ∧ (exec (.enc 3 .idx) base = .next (after (.enc 3 .idx) base) ∧ (after (.enc 3 .idx) base).phase ≠ .done)
    ∧ (withEvent .assertReset base).agenda = .assertReset :: [] ∧ (withEvent (.regWrite 5 3) base).agenda = .regWrite 5 3 :: []
    ∧ (withEvent (.regWrite 8 0) base).agenda = .regWrite 8 0 :: [] ∧ base.isBusy = false ∧ running.isBusy = true
    ∧ (withEvent (.regWrite 2 0) base).agenda = .regWrite 2 0 :: []
    ∧ { base with phase := .busy 0 }.phase = .busy 0 ∧ base.resetAsserted = false ∧ running.resetAsserted = false
    ∧ (withEvent .releaseReset base).agenda = .releaseReset :: [] ∧ (held .completion).resetAsserted = true
    ∧ decode 0 = .error .reservedOpcode :=
  ⟨⟨exec_after _ _, by decide⟩, ⟨exec_after _ _, by decide +kernel, .inr (.inl rfl)⟩, ⟨exec_after _ _, by decide⟩,
    ⟨exec_after _ _, by decide +kernel, .inl ⟨rfl, rfl⟩⟩, ⟨exec_after _ _, by decide⟩, rfl, rfl, rfl, rfl, rfl, rfl, rfl,
    rfl, rfl, rfl, rfl, by decide⟩

theorem witness_ResetValues : (withEvent .assertReset base).agenda = .assertReset :: []
    ∧ step (withEvent .assertReset base) = .next (resetInput true (withEvent .assertReset base |>.setAgenda []))
    ∧ (held (.regWrite 0 2)).resetAsserted = true
    ∧ step (held (.regWrite 0 2)) = .next { State.reset with resetAsserted := true } := ⟨rfl, rfl, rfl, rfl⟩

theorem witness_OnlyResetReturnsToIdle :
    step (withEvent .assertReset running) = .next { State.reset with resetAsserted := true }
    ∧ State.reset.phase = .idle ∧ (withEvent .assertReset running).agenda = .assertReset :: [] := ⟨rfl, rfl, rfl⟩

/-- One event of each clause. -/
theorem witness_AssertedResetHoldsTheState : { held .completion with agenda := [] }.resetAsserted = true
    ∧ { held .completion with agenda := [] }.agenda = [] ∧ (held (.regWrite 3 9)).agenda = .regWrite 3 9 :: []
    ∧ (held .completion).agenda = .completion :: [] ∧ (held .assertReset).agenda = .assertReset :: []
    ∧ (held (.regRead 2)).agenda = .regRead 2 :: [] ∧ (held (.memRead .src 0)).agenda = .memRead .src 0 :: []
    ∧ (held .releaseReset).agenda = .releaseReset :: [] := by decide

/-- Rules R190, R33: a CMD write and a CFG read under the asserted reset input, and a release. -/
theorem test_held_reset : step (held (.regWrite 0 0x201)) = .next { State.reset with resetAsserted := true }
    ∧ step (held (.regRead 2)) = .next { State.reset with resetAsserted := true, replies := [.word 0x3E] }
    ∧ step (held .releaseReset) = .next State.reset := ⟨rfl, rfl, rfl⟩

theorem witness_CommandsRightAfterReset : State.reset.isBusy = false
    ∧ step (withEvent (.regWrite 0 2) State.reset) = .next { State.reset with phase := .busy 2 }
    ∧ State.isBusy { State.reset with phase := .busy 2 } = true ∧ isDiffuser .qatk ∧ isEncoder (.enc8 .work) 8 .work ∧ (8 : Nat) < 24
    ∧ Instr.wf (.enc 16 .src) = true ∧ 2 ≤ (256 : BitVec 24).toNat ∧ (256 : BitVec 24).toNat ≤ 256 :=
  ⟨rfl, rfl, rfl, .inr (.inr rfl), .inr (.inr (.inr (.inl ⟨rfl, rfl⟩))), by decide, by decide, by decide, by decide⟩

theorem witness_ErrorEntryChangesStatusOnly : exec (.enc 16 .src) base = .next (after (.enc 16 .src) base)
    ∧ (after (.enc 16 .src) base).phase = .error .unsupportedBitDepth := ⟨exec_after _ _, by decide⟩

theorem witness_FailedCommandLeavesNoTrace : exec .qnone { base with palLen := 0 } = .next (after .qnone { base with palLen := 0 })
    ∧ (after .qnone { base with palLen := 0 }).phase = .error .invalidPalette := ⟨exec_after _ _, by decide⟩

/-- One state for each clause, at the first value beyond the range or the last inside it. -/
theorem witness_FirstFailingCheckIsReported :
    illegalWord 0x00001823
    ∧ (¬ (2 ≤ (1 : BitVec 24).toNat ∧ (1 : BitVec 24).toNat ≤ 256) ∧ ¬ (2 ≤ (257 : BitVec 24).toNat ∧ (257 : BitVec 24).toNat ≤ 256))
    ∧ (¬ legalGeometry { base with width := 0 } ∧ ¬ legalGeometry { base with height := 4097 }
        ∧ ¬ legalGeometry { base with channels := 5 } ∧ legalGeometry base)
    ∧ (¬ ({ base with palLen := 257 }.palLen.toNat ≤ 256) ∧ { base with srcLen := 7 }.srcLen.toNat ≠ rasterSize base
        ∧ base.srcLen.toNat = rasterSize base ∧ { base with palLen := 0 }.palLen.toNat = 0)
    ∧ (¬ depthOn 8 { base with cfg := 0x2E } ∧ depthOn 1 base ∧ ¬ (1 ≤ (3 : Nat) ∧ (3 : Nat) ≤ 2 ^ 1))
    ∧ (¬ sourceReady .idx { base with idxValid := false } ∧ ¬ sourceReady .src { base with srcLen := 5 })
    ∧ Instr.wf (.enc 0 .idx) = true := by
  refine ⟨?_, by decide, ?_, by decide, ?_, ?_, by decide⟩
  · unfold illegalWord
    decide
  · unfold legalGeometry
    decide
  · unfold depthOn
    decide
  · unfold sourceReady
    decide

theorem witness_PalgrayBuildsTheRamp : 2 ≤ (2 : BitVec 24).toNat ∧ (256 : BitVec 24).toNat ≤ 256
    ∧ ¬ (2 ≤ (1 : BitVec 24).toNat ∧ (1 : BitVec 24).toNat ≤ 256)
    ∧ ¬ (2 ≤ (257 : BitVec 24).toNat ∧ (257 : BitVec 24).toNat ≤ 256) := by decide

theorem witness_GrayRampRisesFromBlackToWhite : 2 ≤ (256 : Nat) ∧ (256 : Nat) ≤ 256 ∧ (254 : Nat) < 255 ∧ (255 : Nat) < 256 := by decide

theorem witness_PaletteChangesOnlyByItsOwnEvents : ∃ t, step (withEvent (.regWrite 8 1) base) = .next t := ⟨_, rfl⟩

theorem witness_NearestIsTheFirstMinimum : [gray 0] ≠ [] ∧ gray 0 ∈ [gray 0, gray 255] := by decide

/-- Both denominators at the ends of the ranges, and a sum of each of the three clauses. -/
theorem witness_DiffuseIsTheClampedFloor : (255 : Nat) ≤ 255 ∧ -255 ≤ (-255 : Int) ∧ (255 : Int) ≤ 255
    ∧ (((16 : Nat) = 16 ∧ (7 : Nat) ≤ 7) ∨ ((16 : Nat) = 32 ∧ (7 : Nat) = 3))
    ∧ (((32 : Nat) = 16 ∧ (3 : Nat) ≤ 7) ∨ ((32 : Nat) = 32 ∧ (3 : Nat) = 3))
    ∧ ((16 : Nat) : Int) * (0 : Nat) + (7 : Nat) * (-1) < 0 ∧ 255 * ((16 : Nat) : Int) ≤ ((16 : Nat) : Int) * (255 : Nat) + (7 : Nat) * 0
    ∧ 0 ≤ ((16 : Nat) : Int) * (0 : Nat) + (7 : Nat) * 0 := by decide

/-- An error that 32 divides and one that it does not, with neighbours at both ends of the range that does not clamp. -/
theorem witness_AtkinsonHandsOnNineSixteenths : ([0, 0, 0, 252, 1, 2] : List Nat).length = 6 ∧ (32 : Int) ∣ 32
    ∧ (∀ v ∈ ([0, 0, 0, 252, 1, 2] : List Nat), 0 ≤ 32 * (v : Int) + 3 * 32 ∧ 32 * (v : Int) + 3 * 32 < 32 * 256)
    ∧ (∀ v ∈ ([1, 1, 1, 255, 1, 2] : List Nat), 0 ≤ 32 * (v : Int) + 3 * (-10) ∧ 32 * (v : Int) + 3 * (-10) < 32 * 256) := by
  decide

theorem witness_QnoneTakesTheNearestColour : quantizerReady base ∧ ¬ quantizerReady { base with palLen := 0 } :=
  ⟨base_ready, fun h => absurd h.2.2.2 (by decide)⟩

theorem witness_QfsDiffusesByFloydSteinberg : quantizerReady base := base_ready

theorem witness_QatkDiffusesByAtkinson : quantizerReady base := base_ready

theorem witness_QuantizedRasterMatchesItsIndices : isDiffuser .qnone ∧ isDiffuser .qfs ∧ isDiffuser .qatk ∧ quantizerReady base :=
  ⟨.inl rfl, .inr (.inl rfl), .inr (.inr rfl), base_ready⟩

theorem witness_QpassCopiesTheSource : legalGeometry base ∧ base.srcLen.toNat = rasterSize base
    ∧ ¬ (legalGeometry { base with width := 0 } ∧ { base with width := 0 }.srcLen.toNat = rasterSize { base with width := 0 }) := by
  unfold legalGeometry
  decide

/-- The state of `QnoneIsIdempotent`: the WORK bytes pushed back as SRC. -/
def pushedBack : State := { after .qnone base with src := (after .qnone base).work }

theorem witness_QnoneIsIdempotent : quantizerReady base ∧ exec .qnone base = .next (after .qnone base)
    ∧ pushedBack = { after .qnone base with src := pushedBack.src }
    ∧ ∀ a, a < rasterSize base → srcRead pushedBack.src a = workRead (after .qnone base).work a := by
  refine ⟨base_ready, exec_after _ _, rfl, ?_⟩
  decide +kernel

/-- Every source pixel a palette colour. -/
def exactBase : State := { base with src := grays [255, 0] }

theorem witness_ZeroErrorGivesTheBytesOfQnone : quantizerReady exactBase
    ∧ (∀ x y, x < exactBase.width.toNat → y < exactBase.height.toNat →
        ∃ k, k < exactBase.palLen.toNat ∧ palRead exactBase.pal k = srcColour exactBase x y)
    ∧ (∀ v num den, v ≤ 255 → 0 < den → rounding.diffuse v 0 num den = v)
    ∧ (∀ tap ∈ floydSteinbergKernel, 0 < tap.den) := by
  refine ⟨⟨base_legal, by decide, by decide, by decide⟩, fun x y hx hy => ?_, fun v num den hv hd => diffuse_zero hv hd, by decide⟩
  have hx2 : x < 2 := hx
  have hy1 : y < 1 := hy
  have hcases : (x = 0 ∧ y = 0) ∨ (x = 1 ∧ y = 0) := by omega
  rcases hcases with ⟨rfl, rfl⟩ | ⟨rfl, rfl⟩
  · exact ⟨1, by decide, by decide⟩
  · exact ⟨0, by decide, by decide⟩

/-- Two blocks with the same input and different WORK, IDX, CFG and flags. -/
theorem witness_QuantizerReadsOnlyItsInputs : isDiffuser .qfs ∧ quantizerReady base
    ∧ quantizerReady { base with work := [], idx := [], cfg := 0, workValid := false } :=
  ⟨.inr (.inl rfl), base_ready, base_ready⟩

theorem witness_EncoderWritesTheHeaders : isEncoder (.enc1 .idx) 1 .idx ∧ encoderReady 1 .idx base
    ∧ isEncoder (.enc24 .work) 24 .work ∧ encoderReady 24 .work base :=
  ⟨.inl ⟨rfl, rfl⟩, base_encoder_ready.2.1, .inr (.inr (.inr (.inr ⟨rfl, rfl⟩))), base_encoder_ready.2.2.2.2.2.2⟩

theorem witness_EncoderWritesTheColourTable : isEncoder (.enc8 .idx) 8 .idx ∧ encoderReady 8 .idx base ∧ (8 : Nat) < 24
    ∧ (1 : Nat) < base.palLen.toNat ∧ base.palLen.toNat ≤ 2 ∧ (255 : Nat) < 2 ^ 8 :=
  ⟨.inr (.inr (.inr (.inl ⟨rfl, rfl⟩))), base_encoder_ready.2.2.2.2.1, by decide, by decide, by decide, by decide⟩

theorem base_indices : indicesInRange .idx base := by
  intro _ a ha
  have h2 : a < 2 := ha
  have hcases : a = 0 ∨ a = 1 := by omega
  rcases hcases with rfl | rfl <;> decide

/-- The last bit position of the first row of `base`, and the first beyond the last pixel. -/
theorem witness_Enc1PacksEightPixelsPerByte : encoderReady 1 .idx base ∧ indicesInRange .idx base
    ∧ (0 : Nat) < base.height.toNat ∧ 31 < 8 * strideOf base 1 ∧ (1 : Nat) < base.width.toNat ∧ ¬ (2 < base.width.toNat) :=
  ⟨base_encoder_ready.2.1, base_indices, by decide, by decide, by decide, by decide⟩

theorem witness_Enc2PacksFourPixelsPerByte : encoderReady 2 .work base ∧ indicesInRange .work base
    ∧ (0 : Nat) < base.height.toNat ∧ 15 < 4 * strideOf base 2 :=
  ⟨base_encoder_ready.2.2.1, nofun, by decide, by decide⟩

theorem witness_Enc4PacksTwoPixelsPerByte : encoderReady 4 .src base ∧ indicesInRange .src base
    ∧ (0 : Nat) < base.height.toNat ∧ 7 < 2 * strideOf base 4 :=
  ⟨base_encoder_ready.2.2.2.1, nofun, by decide, by decide⟩

theorem witness_Enc8StoresOneIndexPerByte : encoderReady 8 .idx base ∧ indicesInRange .idx base
    ∧ (0 : Nat) < base.height.toNat ∧ 3 < strideOf base 8 :=
  ⟨base_encoder_ready.2.2.2.2.1, base_indices, by decide, by decide⟩

theorem witness_Enc24StoresBlueGreenRed : encoderReady 24 .src base ∧ (0 : Nat) < base.height.toNat
    ∧ (1 : Nat) < base.width.toNat ∧ 3 * base.width.toNat ≤ 6 ∧ 7 < strideOf base 24 :=
  ⟨base_encoder_ready.2.2.2.2.2.1, by decide, by decide, by decide, by decide⟩

theorem witness_UnsupportedDepthIsRefusedFirst : (0 : BitVec 24).toNat ≠ 1 ∧ (25 : BitVec 24).toNat ≠ 24
    ∧ isEncoder (.enc8 .src) 8 .src ∧ ¬ ((8 : Nat) = 24 ∧ PixelSource.src = .idx) ∧ ¬ depthOn 8 { base with cfg := 0x2E } := by
  refine ⟨by decide, by decide, .inr (.inr (.inr (.inl ⟨rfl, rfl⟩))), by decide, ?_⟩
  unfold depthOn
  decide

theorem witness_EncodingWorkEqualsEncodingIndices : Inv base ∧ base.idxValid = true := ⟨base_inv, rfl⟩

theorem witness_PassThroughEncodesTheSource : legalGeometry base ∧ base.srcLen.toNat = rasterSize base
    ∧ exec .qpass base = .next (after .qpass base) := ⟨base_legal, by decide, exec_after _ _⟩

/-- Source IDX: two blocks that differ in OUT, the enable bits and SRC_LEN only. -/
theorem witness_FileDependsOnItsInputsOnly : isEncoder (.enc1 .idx) 1 .idx ∧ encoderReady 1 .idx base
    ∧ encoderReady 1 .idx { base with cfg := 0x02, srcLen := 0, out := [(0, 7)] } := by
  refine ⟨.inl ⟨rfl, rfl⟩, base_encoder_ready.2.1, by decide, ?_, fun _ => by decide, base_legal, nofun, nofun, fun _ => rfl⟩
  unfold depthOn
  decide

/-- Sources SRC and WORK at 24 bits: two blocks with the same rasters that differ in OUT, the enable bits, the palette and the
flags of the other sources. -/
theorem witness_FileDependsOnItsInputsOnly_truecolour :
    (isEncoder (.enc24 .src) 24 .src ∧ encoderReady 24 .src base
      ∧ encoderReady 24 .src { base with cfg := 0x20, palLen := 0, workValid := false, out := [(0, 7)] })
    ∧ (isEncoder (.enc24 .work) 24 .work ∧ encoderReady 24 .work base
      ∧ encoderReady 24 .work { base with cfg := 0x20, palLen := 0, srcLen := 0, idxValid := false }) := by
  refine ⟨⟨.inr (.inr (.inr (.inr ⟨rfl, rfl⟩))), base_encoder_ready.2.2.2.2.2.1, by decide, ?_, fun h => absurd h (by decide),
      base_legal, fun _ => by decide, nofun, nofun⟩,
    .inr (.inr (.inr (.inr ⟨rfl, rfl⟩))), base_encoder_ready.2.2.2.2.2.2, by decide, ?_, fun h => absurd h (by decide),
      base_legal, nofun, fun _ => rfl, nofun⟩ <;> unfold depthOn <;> decide

theorem witness_CommandsNeverWriteTheirParameters : exec .qfs base = .next (after .qfs base) := exec_after _ _

theorem witness_EveryStepKeepsTheInvariant : Inv base ∧ ∃ t, step (withEvent (.regWrite 9 0) base) = .next t := ⟨base_inv, _, rfl⟩

end Sys2Proof.Tests
end

/-! ### The invariant is kept by every step

The development goes by the named updates of the state: one lemma for each update says under which condition on the data
written `Inv` is kept, then commands, host accesses and steps are put together from these updates. -/

namespace Sys2Proof.Machine

/-! ### Memories whose window grows by pushes or is written as a block -/

/-- A memory in canonical form, within its capacity, with every element below `n` that fits written: what `Inv` says of PAL
and of SRC (rules R5, R47). -/
structure Memory.Windowed {α : Type} (cap n : Nat) (m : Memory α) : Prop where
  form : Memory.wf m = true
  fits : Memory.within m cap
  listed : Memory.listedBelow m (min n cap)

theorem Inv.palWindowed {s : State} (h : Inv s) : Memory.Windowed Config.palCap s.palLen.toNat s.pal :=
  ⟨h.palForm, h.palFits, h.palWindow⟩

theorem Inv.srcWindowed {s : State} (h : Inv s) : Memory.Windowed Config.srcCap s.srcLen.toNat s.src :=
  ⟨h.srcForm, h.srcFits, h.srcWindow⟩

theorem Memory.Windowed.shrink {α : Type} {cap n k : Nat} {m : Memory α} (h : Memory.Windowed cap n m) (hk : k ≤ n) :
    Memory.Windowed cap k m :=
  ⟨h.form, h.fits, Memory.listedBelow_mono h.listed (min_le_min_right cap hk)⟩

/-- A push (rules R18, R20): below the capacity the element is stored at the length, at the capacity it is dropped, and the
length grows, unless it is saturated. -/
theorem Memory.Windowed.push {α : Type} {cap : Nat} {len : Word} {m : Memory α} (h : Memory.Windowed cap len.toNat m) (v : α) :
    Memory.Windowed cap (bumpCount len).toNat (if len.toNat < cap then Memory.write m len.toNat v else m) := by
  have hlen : (bumpCount len).toNat ≤ len.toNat + 1 := by rw [bumpCount_toNat]; exact min_le_left _ _
  by_cases hc : len.toNat < cap
  · rw [if_pos hc]
    have hl : Memory.listedBelow m len.toNat := by
      have hmin : min len.toNat cap = len.toNat := min_eq_left hc.le
      exact hmin ▸ h.listed
    exact ⟨Memory.wf_write _ v h.form, Memory.within_write v h.fits hc,
      Memory.listedBelow_mono (Memory.listedBelow_push v hl) ((min_le_left _ _).trans hlen)⟩
  · rw [if_neg hc]
    exact ⟨h.form, h.fits, Memory.listedBelow_mono h.listed (by omega)⟩

/-- A block that fits, written from address 0, makes its whole length a window. -/
theorem Memory.Windowed.writeBlock {α : Type} {cap n : Nat} {m : Memory α} {vs : List α} (hform : Memory.wf m = true)
    (hfits : Memory.within m cap) (hcap : vs.length ≤ cap) (hn : n ≤ vs.length) :
    Memory.Windowed cap n (Memory.writeBlock m 0 vs) :=
  ⟨Memory.wf_writeBlock 0 vs hform, Memory.within_writeBlock vs hfits (by omega),
    Memory.listedBelow_mono (Memory.listedBelow_writeBlock m vs) ((min_le_left _ _).trans hn)⟩

/-! ### The state under the reset input -/

/-- The values of rule R33 meet the invariant at either level of the reset input, whatever the model's own fields hold. -/
theorem inv_resetValues (level : Bool) (es : List Event) (rs : List Reply) (n : Nat) :
    Inv { State.reset with resetAsserted := level, agenda := es, replies := rs, freeCount := n } where
  palForm := rfl
  srcForm := rfl
  workForm := rfl
  idxForm := rfl
  outForm := rfl
  palFits _ _ := rfl
  srcFits _ _ := rfl
  workFits _ _ := rfl
  idxFits _ _ := rfl
  outFits _ _ := rfl
  palWindow := Memory.listedBelow_mono (Memory.listedBelow_zero _) (min_le_left 0 _)
  srcWindow := Memory.listedBelow_mono (Memory.listedBelow_zero _) (min_le_left 0 _)
  workWindow := nofun
  idxWindow := nofun
  outWindow := nofun
  resetForm := by rintro rfl; rfl

theorem inv_heldStep (s : State) : Inv (heldStep s) := by
  obtain ⟨level, es, rs, n, hs⟩ := heldStep_cases s
  rw [hs]
  exact inv_resetValues level es rs n

/-! ### What a quantizer pass leaves -/

theorem forwardKernel_of_command {kernel : List Tap}
    (hk : kernel = [] ∨ kernel = floydSteinbergKernel ∨ kernel = atkinsonKernel) : forwardKernel kernel := by
  rcases hk with rfl | rfl | rfl
  · exact forward_nil
  · exact forward_floydSteinberg
  · exact forward_atkinson

/-- Every pixel of a pass has an index below N that is the nearest to its own colour and names the colour left in WORK
(rule R105). -/
theorem quantizeEffect_indexedPixel {s : State} {kernel : List Tap} (hk : forwardKernel kernel)
    (hc : firstFailure (quantizerChecks s) = none) {a : Nat} (ha : a < s.geometry.pixels) :
    indexedPixel (quantizeEffect rounding kernel s) a := by
  obtain ⟨⟨hl, hn⟩, -, hn1⟩ := (quantizerChecks_none s).mp hc
  have hne := palette_ne_nil hn1
  have hk8 := nearest_toNat hne (by rw [palette_length]; exact hn) (passOld rounding kernel s a)
  refine ⟨_, quantizePass_index hl ha, ?_, ?_, ?_⟩
  · rw [hk8]
    exact nearest_palette_lt hn1 _
  · rw [hk8]
    exact quantizePass_colour hk hl ha
  · rw [hk8]
    exact nearest_paletteAt_nearest hne _

/-! ### The named updates, with the reset input released -/

/-- The last clause of `Inv` asks nothing of a state whose reset input is released. -/
theorem resetForm_of_released {s t : State} (hr : s.resetAsserted = false) (ht : t.resetAsserted = s.resetAsserted) :
    t.resetAsserted = true → t = resetInput true t := by
  intro htrue
  rw [ht, hr] at htrue
  cases htrue

section Updates

variable {s : State} (h : Inv s) (hr : s.resetAsserted = false)
include h hr

/-- The invariant does not speak of STATE, CFG and the model's own fields. -/
theorem Inv.setUnconstrained (ph : Phase) (c : BitVec 6) (es : List Event) (rs : List Reply) (n : Nat) :
    Inv { s with phase := ph, cfg := c, agenda := es, replies := rs, freeCount := n } :=
  { h with resetForm := resetForm_of_released hr rfl }

theorem Inv.setPhase (ph : Phase) : Inv (s.setPhase ph) := h.setUnconstrained hr ph _ _ _ _

theorem Inv.setCfg (v : Word) : Inv (s.setCfg v) := h.setUnconstrained hr _ _ _ _ _

theorem Inv.setAgenda (es : List Event) : Inv (s.setAgenda es) := h.setUnconstrained hr _ _ es _ _

theorem Inv.addReply (r : Reply) : Inv (s.addReply r) := h.setUnconstrained hr _ _ _ _ _

theorem Inv.countFree : Inv s.countFree := h.setUnconstrained hr _ _ _ _ _

/-- A new geometry clears WORK_VALID and IDX_VALID (rule R29), so nothing is claimed of the rasters. -/
theorem Inv.setGeometry (wd ht ch : Word) :
    Inv { s with width := wd, height := ht, channels := ch, workValid := false, idxValid := false } :=
  { h with workWindow := nofun, idxWindow := nofun, resetForm := resetForm_of_released hr rfl }

theorem Inv.setSource {m : Memory Byte} {n : Word} (hm : Memory.Windowed Config.srcCap n.toNat m) :
    Inv (s.setSource m n) :=
  { h with
    srcForm := hm.form
    srcFits := hm.fits
    srcWindow := hm.listed
    resetForm := resetForm_of_released hr rfl }

theorem Inv.setPalette {m : Memory Colour} {n : Word} (hm : Memory.Windowed Config.palCap n.toNat m) :
    Inv (s.setPalette m n) :=
  { h with
    palForm := hm.form
    palFits := hm.fits
    palWindow := hm.listed
    idxWindow := nofun
    resetForm := resetForm_of_released hr rfl }

/-! ### The effects of the commands -/

theorem inv_palgrayEffect {n : BitVec 24} (hc : firstFailure (palgrayChecks n.toNat) = none) :
    Inv (s.setPalette (Memory.writeBlock s.pal 0 (grayRamp rounding n.toNat)) (BitVec.ofNat 32 n.toNat)) := by
  obtain ⟨-, hn⟩ := (palgrayChecks_none n.toNat).mp hc
  refine h.setPalette hr (Memory.Windowed.writeBlock h.palForm h.palFits ?_ ?_)
  · rw [grayRamp_length]
    exact hn
  · rw [grayRamp_length, BitVec.toNat_ofNat]
    exact Nat.mod_le _ _

/-- QNONE, QFS and QATK: the present block is the one whose result WORK and IDX hold. -/
theorem inv_quantizeEffect {kernel : List Tap} (hk : kernel = [] ∨ kernel = floydSteinbergKernel ∨ kernel = atkinsonKernel)
    (hc : firstFailure (quantizerChecks s) = none) : Inv (quantizeEffect rounding kernel s) := by
  obtain ⟨⟨hl, hn⟩, -, hn1⟩ := (quantizerChecks_none s).mp hc
  have hraster : holdsRaster (quantizeEffect rounding kernel s) :=
    ⟨s, rfl, .inr ⟨kernel, hk, hc, fun _ _ => rfl⟩⟩
  have hindices : holdsIndices (quantizeEffect rounding kernel s) :=
    ⟨s, kernel, hk, rfl, rfl, hc, fun _ _ => rfl, fun _ _ => rfl⟩
  exact { h with
    workForm := quantizePass_wf hl h.workForm
    idxForm := quantizePass_wf_idx hl h.idxForm
    workFits := quantizePass_within hl h.workFits
    idxFits := quantizePass_within_idx hl h.idxFits
    workWindow := fun _ => ⟨hl, quantizePass_listed hl, hraster⟩
    idxWindow := fun _ =>
      ⟨rfl, hn1, hn, fun _ ha => quantizeEffect_indexedPixel (forwardKernel_of_command hk) hc ha, hindices⟩
    resetForm := resetForm_of_released hr rfl }

/-- QPASS: WORK holds the copy of the present SRC. -/
theorem inv_passEffect (hc : firstFailure (passChecks s) = none) : Inv (s.setPassed (copySource s)) := by
  obtain ⟨hl, -⟩ := (passChecks_none s).mp hc
  have hraster : holdsRaster (s.setPassed (copySource s)) :=
    ⟨s, rfl, .inl ⟨hc, fun _ ha => copySource_inside s ha⟩⟩
  exact { h with
    workForm := copySource_wf h.workForm
    workFits := copySource_within hl h.workFits
    workWindow := fun _ => ⟨hl, copySource_listed s, hraster⟩
    idxWindow := nofun
    resetForm := resetForm_of_released hr rfl }

/-- Encoder commands: the file fits OUT, so OUT_LEN holds its size exactly. -/
theorem inv_encodeEffect {bpp : Nat} {p : PixelSource} (hc : firstFailure (encoderChecks bpp p s) = none) :
    Inv (encodeEffect bpp p s) := by
  obtain ⟨-, hd, -, hl, -⟩ := (encoderChecks_none bpp p s).mp hc
  have hb := depth_cases hd
  have hfits := fileBytes_le hl hb
  have hlen : (encodeEffect bpp p s).outLen.toNat = fileBytes s.geometry bpp :=
    (BitVec.toNat_ofNat _ _).trans (Nat.mod_eq_of_lt (hfits.trans_lt (by decide)))
  have hfile : holdsFile (encodeEffect bpp p s) :=
    ⟨s, bpp, p, hc, hlen, fun _ ha => file_bytes s.out (hlen ▸ ha)⟩
  exact { h with
    outForm := Memory.wf_writeBlock 0 _ h.outForm
    outFits := file_within hl hb h.outFits
    outWindow := fun _ => ⟨hlen ▸ hfits, hlen ▸ file_listed s.out bpp p s, hfile⟩
    resetForm := resetForm_of_released hr rfl }

theorem inv_effectOf {i : Instr} (hc : firstFailure (checksOf i s) = none) : Inv (effectOf i s) := by
  cases i with
  | palgray n => exact inv_palgrayEffect h hr hc
  | qnone => exact inv_quantizeEffect h hr (.inl rfl) hc
  | qfs => exact inv_quantizeEffect h hr (.inr (.inl rfl)) hc
  | qatk => exact inv_quantizeEffect h hr (.inr (.inr rfl)) hc
  | qpass => exact inv_passEffect h hr hc
  | enc1 p => exact inv_encodeEffect h hr hc
  | enc2 p => exact inv_encodeEffect h hr hc
  | enc4 p => exact inv_encodeEffect h hr hc
  | enc8 p => exact inv_encodeEffect h hr hc
  | enc24 p => exact inv_encodeEffect h hr hc
  | enc bpp p => exact inv_encodeEffect h hr hc

/-! ### Commands, host accesses, events -/

theorem exec_keeps_inv {i : Instr} {t : State} (ht : exec i s = .next t) : Inv t := by
  rcases exec_cases ht with ⟨e, -, rfl⟩ | ⟨hc, rfl⟩
  · exact h.setPhase hr _
  · exact (inv_effectOf h hr hc).setPhase ((effectOf_resetAsserted i s).trans hr) _

theorem sequencerMove_keeps_inv {t : State} (ht : sequencerMove s = .next t) : Inv t := by
  rcases sequencerMove_cases ht with ⟨-, rfl⟩ | ⟨w, x, -, -, rfl⟩ | ⟨w, i, -, -, he⟩
  · exact h
  · exact h.setPhase hr _
  · exact exec_keeps_inv h hr he

theorem hostRegRead_keeps_inv (r : Nat) : Inv (hostRegRead r s) := by
  unfold hostRegRead
  split_ifs
  · exact (h.addReply hr _).countFree hr
  · exact (h.addReply hr _).countFree hr
  · exact h.addReply hr _

theorem hostMemRead_keeps_inv (sp : Space) (a : Nat) : Inv (hostMemRead sp a s) := by
  unfold hostMemRead
  split_ifs
  · exact h.addReply hr _
  · exact (h.addReply hr _).countFree hr

theorem hostRegWrite_keeps_inv (r : Nat) (v : Word) : Inv (hostRegWrite r v s) := by
  unfold hostRegWrite
  split
  · exact h
  · split
    · exact h.setPhase hr _
    · exact h.setCfg hr v
    · exact h.setGeometry hr v _ _
    · exact h.setGeometry hr _ v _
    · exact h.setGeometry hr _ _ v
    · exact h.setSource hr (h.srcWindowed.push _)
    · exact h.setSource hr (h.srcWindowed.shrink (Nat.zero_le _))
    · exact h.setPalette hr (h.palWindowed.push _)
    · exact h.setPalette hr (h.palWindowed.shrink (Nat.zero_le _))
    · exact h

theorem runEvent_keeps_inv {e : Event} {t : State} (ht : runEvent e s = .next t) : Inv t := by
  cases e with
  | regRead r =>
    injection ht with ht
    exact ht ▸ hostRegRead_keeps_inv h hr r
  | regWrite r v =>
    injection ht with ht
    exact ht ▸ hostRegWrite_keeps_inv h hr r v
  | memRead sp a =>
    injection ht with ht
    exact ht ▸ hostMemRead_keeps_inv h hr sp a
  | completion => exact sequencerMove_keeps_inv h hr ht
  | assertReset =>
    injection ht with ht
    exact ht ▸ inv_resetValues true s.agenda s.replies s.freeCount
  | releaseReset =>
    injection ht with ht
    exact ht ▸ h

end Updates

theorem step_keeps_inv {s t : State} (h : Inv s) (ht : step s = .next t) : Inv t := by
  rcases step_cases ht with ⟨-, rfl⟩ | ⟨hr, -, hmove⟩ | ⟨hr, e, es, -, hevent⟩
  · exact inv_heldStep s
  · exact sequencerMove_keeps_inv h hr hmove
  · exact runEvent_keeps_inv (h.setAgenda hr es) hr hevent

/-- Settles O56, by the cases of a step: under the reset input every state is that of rule R33, and otherwise the step is one
command or one host access, each made of updates that keep the invariant. -/
theorem everyStepKeepsTheInvariant : Obligations.EveryStepKeepsTheInvariant := by
  unfold Obligations.EveryStepKeepsTheInvariant
  exact fun _ _ => step_keeps_inv

end Sys2Proof.Machine

/-! ### The block as the host sees it

What one host access does, an equation for each register and case (rules R11 to R23, R47, R48, R193); then what a step can do
to STATE and to the validity flags (rules R13, R29, R190). The obligations about registers, flags and reset are read off
these. -/

namespace Sys2Proof.Machine

open Sys2Proof.Claims

/-! ### The step of each event, with the reset input not asserted -/

section LiveSteps

variable {s : State} {es : List Event} (hr : s.resetAsserted = false)
include hr

theorem step_regRead {r : Nat} {t : State} (ha : s.agenda = .regRead r :: es)
    (h : hostRegRead r (s.setAgenda es) = t) : step s = .next t :=
  (step_cons hr ha).trans (congrArg _ h)

theorem step_regWrite {r : Nat} {v : Word} {t : State} (ha : s.agenda = .regWrite r v :: es)
    (h : hostRegWrite r v (s.setAgenda es) = t) : step s = .next t :=
  (step_cons hr ha).trans (congrArg _ h)

theorem step_memRead {sp : Space} {a : Nat} {t : State} (ha : s.agenda = .memRead sp a :: es)
    (h : hostMemRead sp a (s.setAgenda es) = t) : step s = .next t :=
  (step_cons hr ha).trans (congrArg _ h)

theorem step_completion (ha : s.agenda = .completion :: es) : step s = sequencerMove (s.setAgenda es) :=
  step_cons hr ha

end LiveSteps

/-! ### Register reads -/

theorem append_toNat {n m : Nat} (x : BitVec n) (y : BitVec m) : (x ++ y).toNat = x.toNat * 2 ^ m + y.toNat := by
  rw [BitVec.toNat_append, ← Nat.shiftLeft_add_eq_or_of_lt y.isLt, Nat.shiftLeft_eq]

theorem errorCode_toNat (e : CmdError) : (errorCode e).toNat = errorNumber e := by cases e <;> rfl

/-- STATE and ERR together (rule R13). -/
theorem phaseFields_toNat (p : Phase) : (errField p).toNat * 16 + (stateField p).toNat = phaseNumber p := by
  cases p with
  | idle => rfl
  | busy w => rfl
  | done => rfl
  | error e =>
    show (errorCode e).toNat * 16 + 3 = 3 + 16 * errorNumber e
    rw [errorCode_toNat]
    omega

theorem statusWord_toNat (s : State) : (statusWord s).toNat = statusNumber s := by
  unfold statusWord statusNumber
  rw [← phaseFields_toNat]
  simp only [append_toNat, BitVec.toNat_ofBool, BitVec.toNat_ofNat]
  omega

/-- The register map of rule R11. -/
theorem regValue_toNat (s : State) (r : Nat) : (regValue s r).toNat = registerNumber s r := by
  match r with
  | 0 | 3 | 4 | 5 | 6 | 7 | 8 | 9 | 10 => rfl
  | 1 => exact statusWord_toNat s
  | 2 => exact BitVec.toNat_setWidth_of_le (by decide)
  | n + 11 => rfl

theorem hostRegRead_ready {s : State} {r : Nat} (hb : s.isBusy = false) :
    hostRegRead r s = s.addReply (.word (regValue s r)) := by simp [hostRegRead, hb]

/-- A register read of a block that is not BUSY, as a step. -/
theorem step_regRead_ready {s : State} {r : Nat} {es : List Event} (hr : s.resetAsserted = false)
    (hb : s.isBusy = false) (ha : s.agenda = .regRead r :: es) :
    step s = .next { s with agenda := es, replies := .word (regValue s r) :: s.replies } :=
  step_regRead hr ha (hostRegRead_ready hb)

theorem busyStatusWord_state (free : Word) : (busyStatusWord free).toNat % 4 = 1 := by
  unfold busyStatusWord
  rw [append_toNat, BitVec.toNat_ofNat]
  omega

/-- A register read while BUSY: some word, a STATUS read with STATE = 1 (rules R13, R193). -/
theorem hostRegRead_busy {s : State} {r : Nat} (hb : s.isBusy = true) :
    ∃ v : Word, hostRegRead r s = (s.addReply (.word v)).countFree ∧ (r = 1 → v.toNat % 4 = 1) := by
  by_cases h1 : r = 1
  · exact ⟨busyStatusWord (Config.freeWord s.freeCount), by simp [hostRegRead, hb, h1], fun _ => busyStatusWord_state _⟩
  · exact ⟨Config.freeWord s.freeCount, by simp [hostRegRead, hb, h1], fun h => absurd h h1⟩

/-! ### Memory reads -/

theorem inWindow_iff (sp : Space) (a : Nat) (s : State) : inWindow sp a s = true ↔ windowHolds sp a s := by
  cases sp <;> simp only [inWindow, windowHolds, Bool.and_eq_true, decide_eq_true_eq] <;> rfl

/-- A memory read while BUSY or outside the window of its space (rule R48). -/
theorem hostMemRead_free {s : State} {sp : Space} {a : Nat} (h : s.isBusy = true ∨ ¬ windowHolds sp a s) :
    hostMemRead sp a s = (s.addReply (freeReply sp s.freeCount)).countFree := by
  refine if_neg (fun hw => ?_)
  rw [Bool.and_eq_true, Bool.not_eq_true', inWindow_iff] at hw
  obtain ⟨hb, hin⟩ := hw
  rcases h with h | h
  · exact Bool.noConfusion (hb.symm.trans h)
  · exact h hin

/-! ### Register writes -/

theorem hostRegWrite_busy {s : State} {r : Nat} {v : Word} (hb : s.isBusy = true) : hostRegWrite r v s = s := by
  simp [hostRegWrite, hb]

/-- STATUS, OUT_LEN and the reserved registers ignore writes (rules R13, R22, R23). -/
theorem hostRegWrite_ignored {s : State} {r : Nat} {v : Word} (h : 11 ≤ r ∨ r = 1 ∨ r = 10) :
    hostRegWrite r v s = s := by
  rcases h with h | rfl | rfl
  · obtain ⟨n, rfl⟩ := Nat.exists_eq_add_of_le' h
    exact ite_self s
  · exact ite_self s
  · exact ite_self s

section WritesWhenReady

variable {s : State} {v : Word} (hb : s.isBusy = false)
include hb

theorem hostRegWrite_cmd : hostRegWrite 0 v s = acceptCommand v s := by simp [hostRegWrite, hb]
theorem hostRegWrite_cfg : hostRegWrite 2 v s = s.setCfg v := by simp [hostRegWrite, hb]
theorem hostRegWrite_width : hostRegWrite 3 v s = s.setWidth v := by simp [hostRegWrite, hb]
theorem hostRegWrite_height : hostRegWrite 4 v s = s.setHeight v := by simp [hostRegWrite, hb]
theorem hostRegWrite_channels : hostRegWrite 5 v s = s.setChannels v := by simp [hostRegWrite, hb]
theorem hostRegWrite_srcData : hostRegWrite 6 v s = pushSource v s := by simp [hostRegWrite, hb]
theorem hostRegWrite_srcLen : hostRegWrite 7 v s = s.setSource s.src 0 := by simp [hostRegWrite, hb]
theorem hostRegWrite_palData : hostRegWrite 8 v s = pushColour v s := by simp [hostRegWrite, hb]
theorem hostRegWrite_palLen : hostRegWrite 9 v s = s.setPalette s.pal 0 := by simp [hostRegWrite, hb]

end WritesWhenReady

/-! ### What a host read leaves -/

/-- A register read changes only what the host has read and the free-value counter. -/
theorem hostRegRead_hostSide (r : Nat) (s : State) : ∃ rs n, hostRegRead r s = s.setHostSide rs n := by
  cases hb : s.isBusy with
  | false => exact ⟨_, _, hostRegRead_ready hb⟩
  | true =>
    obtain ⟨v, hv, -⟩ := hostRegRead_busy (r := r) hb
    exact ⟨_, _, hv⟩

/-- A memory read changes only what the host has read and the free-value counter. -/
theorem hostMemRead_hostSide (sp : Space) (a : Nat) (s : State) : ∃ rs n, hostMemRead sp a s = s.setHostSide rs n := by
  unfold hostMemRead
  split
  · exact ⟨_, _, rfl⟩
  · exact ⟨_, _, rfl⟩

/-! ### STATE -/

theorem isBusy_of_phase {s : State} {w : Word} (h : s.phase = .busy w) : s.isBusy = true := by simp [State.isBusy, h]

theorem hostRegWrite_phase (r : Nat) (v : Word) (s : State) :
    (hostRegWrite r v s).phase = s.phase ∨ (r = 0 ∧ (hostRegWrite r v s).phase = .busy v) := by
  unfold hostRegWrite
  split
  · exact .inl rfl
  · split
    · exact .inr ⟨rfl, rfl⟩
    all_goals exact .inl rfl

theorem exec_phase {i : Instr} {s t : State} (h : exec i s = .next t) : t.phase = .done ∨ ∃ x, t.phase = .error x := by
  rcases exec_cases h with ⟨x, -, rfl⟩ | ⟨-, rfl⟩
  · exact .inr ⟨x, rfl⟩
  · exact .inl rfl

/-- The phases a step can lead to: the one it started from, BUSY by a CMD write, DONE or ERROR by a completion, and IDLE by
the reset input (rules R12, R70, R190). -/
def phaseMove (s t : State) : Prop :=
  t.phase = s.phase ∨ (∃ w es, s.agenda = .regWrite 0 w :: es ∧ t.phase = .busy w)
    ∨ (t.phase = .done ∨ ∃ x, t.phase = .error x)
    ∨ (t.phase = .idle ∧ (s.resetAsserted = true ∨ ∃ es, s.agenda = .assertReset :: es))

theorem sequencerMove_phase {s t : State} (h : sequencerMove s = .next t) :
    t.phase = s.phase ∨ (t.phase = .done ∨ ∃ x, t.phase = .error x) := by
  rcases sequencerMove_cases h with ⟨-, rfl⟩ | ⟨w, x, -, -, rfl⟩ | ⟨w, i, -, -, he⟩
  · exact .inl rfl
  · exact .inr (.inr ⟨_, rfl⟩)
  · exact .inr (exec_phase he)

theorem runEvent_phaseMove {e : Event} {es : List Event} {s t : State} (ha : s.agenda = e :: es)
    (h : runEvent e (s.setAgenda es) = .next t) : phaseMove s t := by
  cases e with
  | regRead r =>
    obtain ⟨rs, n, hread⟩ := hostRegRead_hostSide r (s.setAgenda es)
    injection h with h
    exact .inl (h ▸ hread ▸ rfl)
  | regWrite r v =>
    injection h with h
    rcases hostRegWrite_phase r v (s.setAgenda es) with hp | ⟨rfl, hp⟩
    · exact .inl (h ▸ hp)
    · exact .inr (.inl ⟨v, es, ha, h ▸ hp⟩)
  | memRead sp a =>
    obtain ⟨rs, n, hread⟩ := hostMemRead_hostSide sp a (s.setAgenda es)
    injection h with h
    exact .inl (h ▸ hread ▸ rfl)
  | completion => exact (sequencerMove_phase h).imp_right (fun hp => .inr (.inl hp))
  | assertReset =>
    injection h with h
    exact .inr (.inr (.inr ⟨h ▸ rfl, .inr ⟨es, ha⟩⟩))
  | releaseReset =>
    injection h with h
    exact .inl (h ▸ rfl)

theorem step_phaseMove {s t : State} (h : step s = .next t) : phaseMove s t := by
  rcases step_cases h with ⟨hr, rfl⟩ | ⟨-, -, hmove⟩ | ⟨-, e, es, ha, hevent⟩
  · obtain ⟨level, es, rs, n, hs⟩ := heldStep_cases s
    exact .inr (.inr (.inr ⟨hs ▸ rfl, .inl hr⟩))
  · exact (sequencerMove_phase hmove).imp_right (fun hp => .inr (.inl hp))
  · exact runEvent_phaseMove ha hevent

/-! ### Under the reset input -/

/-- A step that asserts the reset input, or is made while it is asserted, leads to the values of rule R33. -/
theorem step_resetValues {s t : State} (h : step s = .next t)
    (hc : (∃ es, s.agenda = .assertReset :: es) ∨ s.resetAsserted = true) :
    ∃ level es rs n, t = { State.reset with resetAsserted := level, agenda := es, replies := rs, freeCount := n } := by
  cases hr : s.resetAsserted with
  | true =>
    rw [step_held hr] at h
    injection h with h
    exact h ▸ heldStep_cases s
  | false =>
    obtain ⟨es, ha⟩ := hc.resolve_right (by simp [hr])
    rw [step_cons hr ha] at h
    injection h with h
    exact ⟨true, es, s.replies, s.freeCount, h.symm⟩

/-- No address of any memory is inside its window (rule R33). -/
theorem windows_empty_of_resetValues (sp : Space) (a : Nat) (level : Bool) (es : List Event) (rs : List Reply) (n : Nat) :
    ¬ windowHolds sp a { State.reset with resetAsserted := level, agenda := es, replies := rs, freeCount := n } := by
  cases sp <;> simp [windowHolds, State.reset]

/-! ### Validity flags -/

/-- The three validity flags are those of the state before. -/
def sameFlags (s t : State) : Prop :=
  t.workValid = s.workValid ∧ t.idxValid = s.idxValid ∧ t.outValid = s.outValid

theorem sameFlags_refl (s : State) : sameFlags s s := ⟨rfl, rfl, rfl⟩

theorem hostRegRead_sameFlags (r : Nat) (s : State) : sameFlags s (hostRegRead r s) := by
  obtain ⟨rs, n, h⟩ := hostRegRead_hostSide r s
  exact h ▸ sameFlags_refl s

theorem hostMemRead_sameFlags (sp : Space) (a : Nat) (s : State) : sameFlags s (hostMemRead sp a s) := by
  obtain ⟨rs, n, h⟩ := hostMemRead_hostSide sp a s
  exact h ▸ sameFlags_refl s

/-- A register write changes a flag only at the geometry registers and at the palette (rule R29). -/
theorem hostRegWrite_sameFlags {r : Nat} (h : r ≠ 3 ∧ r ≠ 4 ∧ r ≠ 5 ∧ r ≠ 8 ∧ r ≠ 9) (v : Word) (s : State) :
    sameFlags s (hostRegWrite r v s) := by
  obtain ⟨h3, h4, h5, h8, h9⟩ := h
  unfold hostRegWrite
  split
  · exact sameFlags_refl s
  · split
    case h_3 => exact absurd rfl h3
    case h_4 => exact absurd rfl h4
    case h_5 => exact absurd rfl h5
    case h_8 => exact absurd rfl h8
    case h_9 => exact absurd rfl h9
    all_goals exact ⟨rfl, rfl, rfl⟩

/-- A completion with no command running, or of an illegal word, keeps the flags. -/
theorem sequencerMove_sameFlags {s t : State} (h : sequencerMove s = .next t)
    (hc : s.isBusy = false ∨ ∃ w x, s.phase = .busy w ∧ decode w = .error x) : sameFlags s t := by
  rcases hc with hb | ⟨w, x, hp, hd⟩
  · rw [sequencerMove_still hb] at h
    injection h with h
    exact h ▸ sameFlags_refl s
  · rw [sequencerMove_busy hp, completeCommand_error hd] at h
    injection h with h
    exact h ▸ sameFlags_refl s

/-- Row by row of rule R29: which flags the effect of a command sets, clears and keeps. -/
theorem exec_flags {i : Instr} {s t : State} (h : exec i s = .next t) :
    (t.phase = .done → (∃ n, i = .palgray n) → t.workValid = s.workValid ∧ t.idxValid = false ∧ t.outValid = s.outValid)
    ∧ (t.phase = .done → isDiffuser i → t.workValid = true ∧ t.idxValid = true ∧ t.outValid = s.outValid)
    ∧ (t.phase = .done → i = .qpass → t.workValid = true ∧ t.idxValid = false ∧ t.outValid = s.outValid)
    ∧ (t.phase = .done → (∃ bpp p, isEncoder i bpp p) →
        t.workValid = s.workValid ∧ t.idxValid = s.idxValid ∧ t.outValid = true)
    ∧ (t.phase ≠ .done → sameFlags s t) := by
  rcases exec_cases h with ⟨x, -, rfl⟩ | ⟨-, rfl⟩
  · exact ⟨nofun, nofun, nofun, nofun, fun _ => sameFlags_refl s⟩
  · refine ⟨?_, ?_, ?_, ?_, fun hne => absurd rfl hne⟩
    · rintro - ⟨n, rfl⟩
      exact ⟨rfl, rfl, rfl⟩
    · rintro - (rfl | rfl | rfl) <;> exact ⟨rfl, rfl, rfl⟩
    · rintro - rfl
      exact ⟨rfl, rfl, rfl⟩
    · rintro - ⟨bpp, p, ⟨rfl, -⟩ | ⟨rfl, -⟩ | ⟨rfl, -⟩ | ⟨rfl, -⟩ | ⟨rfl, -⟩⟩ <;> exact ⟨rfl, rfl, rfl⟩

/-- The writes of rule R29: the geometry registers clear WORK_VALID and IDX_VALID, the palette registers IDX_VALID. -/
theorem hostRegWrite_flags {s : State} (hb : s.isBusy = false) (r : Nat) (v : Word) :
    (r = 3 ∨ r = 4 ∨ r = 5 → (hostRegWrite r v s).workValid = false ∧ (hostRegWrite r v s).idxValid = false
        ∧ (hostRegWrite r v s).outValid = s.outValid)
    ∧ (r = 8 ∨ r = 9 → (hostRegWrite r v s).workValid = s.workValid ∧ (hostRegWrite r v s).idxValid = false
        ∧ (hostRegWrite r v s).outValid = s.outValid)
    ∧ (r ≠ 3 ∧ r ≠ 4 ∧ r ≠ 5 ∧ r ≠ 8 ∧ r ≠ 9 → sameFlags s (hostRegWrite r v s)) := by
  refine ⟨?_, ?_, fun h => hostRegWrite_sameFlags h v s⟩
  · rintro (rfl | rfl | rfl)
    · rw [hostRegWrite_width hb]
      exact ⟨rfl, rfl, rfl⟩
    · rw [hostRegWrite_height hb]
      exact ⟨rfl, rfl, rfl⟩
    · rw [hostRegWrite_channels hb]
      exact ⟨rfl, rfl, rfl⟩
  · rintro (rfl | rfl)
    · rw [hostRegWrite_palData hb]
      exact ⟨rfl, rfl, rfl⟩
    · rw [hostRegWrite_palLen hb]
      exact ⟨rfl, rfl, rfl⟩

/-- A host access that is a read, or is made while BUSY, keeps the flags. -/
theorem runEvent_access_sameFlags {e : Event} {s t : State} (h : runEvent e s = .next t) (he : isHostAccess e)
    (hc : s.isBusy = true ∨ ¬ ∃ r v, e = .regWrite r v) : sameFlags s t := by
  rcases he with ⟨r, rfl⟩ | ⟨r, v, rfl⟩ | ⟨sp, a, rfl⟩
  · injection h with h
    exact h ▸ hostRegRead_sameFlags r s
  · have hb : s.isBusy = true := hc.resolve_right (fun hn => hn ⟨r, v, rfl⟩)
    injection h with h
    rw [hostRegWrite_busy hb] at h
    exact h ▸ sameFlags_refl s
  · injection h with h
    exact h ▸ hostMemRead_sameFlags sp a s

/-! ### Pushes -/

theorem lowByte_toNat (v : Word) : (v.extractLsb' 0 8).toNat = v.toNat % 256 := by
  rw [BitVec.extractLsb'_toNat, Nat.shiftRight_zero]

/-- The colour of a word `0x..RRGGBB` in numbers (rules R20, R41). -/
theorem colourOfWord_toNat (v : Word) : (colourOfWord v).r.toNat = v.toNat / 65536 % 256
    ∧ (colourOfWord v).g.toNat = v.toNat / 256 % 256 ∧ (colourOfWord v).b.toNat = v.toNat % 256 := by
  refine ⟨?_, ?_, lowByte_toNat v⟩
  · exact (BitVec.extractLsb'_toNat ..).trans (by rw [Nat.shiftRight_eq_div_pow])
  · exact (BitVec.extractLsb'_toNat ..).trans (by rw [Nat.shiftRight_eq_div_pow])

/-- Below SRC_CAP a push stores the byte at the old length (rule R18). -/
theorem pushSource_read_new (v : Word) {s : State} (h : s.srcLen.toNat < Config.srcCap) :
    srcRead (pushSource v s).src s.srcLen.toNat = v.extractLsb' 0 8 := by
  rw [pushSource, setSource_src, if_pos h]
  exact Memory.read_write_same _ _ _ _

theorem pushSource_read_other (v : Word) {s : State} {a : Nat} (h : a ≠ s.srcLen.toNat) :
    srcRead (pushSource v s).src a = srcRead s.src a := by
  rw [pushSource, setSource_src]
  split
  · exact Memory.read_write_other _ _ _ h.symm
  · rfl

theorem pushSource_full (v : Word) {s : State} (h : Config.srcCap ≤ s.srcLen.toNat) : (pushSource v s).src = s.src :=
  if_neg (Nat.not_lt.mpr h)

/-- Below PAL_CAP a push stores the colour at the old length (rule R20). -/
theorem pushColour_read_new (v : Word) {s : State} (h : s.palLen.toNat < Config.palCap) :
    palRead (pushColour v s).pal s.palLen.toNat = colourOfWord v := by
  rw [pushColour, setPalette_pal, if_pos h]
  exact Memory.read_write_same _ _ _ _

theorem pushColour_read_other (v : Word) {s : State} {i : Nat} (h : i ≠ s.palLen.toNat) :
    palRead (pushColour v s).pal i = palRead s.pal i := by
  rw [pushColour, setPalette_pal]
  split
  · exact Memory.read_write_other _ _ _ h.symm
  · rfl

theorem pushColour_full (v : Word) {s : State} (h : Config.palCap ≤ s.palLen.toNat) : (pushColour v s).pal = s.pal :=
  if_neg (Nat.not_lt.mpr h)

/-! ### Quantizer inputs, in the numbers of the statements -/

theorem legal_iff_legalGeometry (s : State) : s.geometry.legal = true ↔ legalGeometry s := Geometry.legal_iff s.geometry

theorem quantizerChecks_none_iff (s : State) : firstFailure (quantizerChecks s) = none ↔ quantizerReady s := by
  rw [quantizerChecks_none, legal_iff_legalGeometry, and_assoc]
  exact Iff.rfl

/-- QNONE, QFS and QATK are the quantizer pass with their kernel. -/
theorem exec_diffuser {i : Instr} (hi : isDiffuser i) :
    ∃ kernel, ∀ s, exec i s = runCommand (quantizerChecks s) (quantizeEffect rounding kernel s) s := by
  rcases hi with rfl | rfl | rfl
  · exact ⟨[], fun _ => rfl⟩
  · exact ⟨floydSteinbergKernel, fun _ => rfl⟩
  · exact ⟨atkinsonKernel, fun _ => rfl⟩

/-! ### Registers and host accesses: the obligations -/

/-- Settles O9, by the equations of the host accesses while BUSY. -/
theorem busyDropsHostAccesses : Obligations.BusyDropsHostAccesses := by
  unfold Obligations.BusyDropsHostAccesses
  intro s e es hr hb ha
  refine ⟨?_, ?_, ?_⟩
  · rintro ⟨r, v, rfl⟩
    exact step_regWrite hr ha (hostRegWrite_busy hb)
  · rintro (⟨r, rfl⟩ | ⟨sp, a, rfl⟩)
    · obtain ⟨v, hread, -⟩ := hostRegRead_busy (s := s.setAgenda es) (r := r) hb
      exact ⟨_, .word v, step_regRead hr ha hread, rfl⟩
    · exact ⟨_, _, step_memRead hr ha (hostMemRead_free (.inl hb)), rfl⟩
  · rintro rfl
    obtain ⟨v, hread, hv⟩ := hostRegRead_busy (s := s.setAgenda es) (r := 1) hb
    exact ⟨_, v, step_regRead hr ha hread, rfl, hv rfl⟩

/-- Settles O14, by what a push stores, keeps and counts. -/
theorem sourcePushAppends : Obligations.SourcePushAppends := by
  unfold Obligations.SourcePushAppends
  intro s v es hr hb
  refine ⟨fun ha => ⟨_, step_regWrite hr ha (hostRegWrite_srcData hb), rfl, bumpCount_toNat _, fun hlt => ⟨?_, ?_⟩,
    pushSource_full (s := s.setAgenda es) v⟩, step_regRead_ready hr hb⟩
  · exact (congrArg BitVec.toNat (pushSource_read_new (s := s.setAgenda es) v hlt)).trans (lowByte_toNat v)
  · exact fun a ha => pushSource_read_other (s := s.setAgenda es) v ha

/-- Settles O15, by what a push stores, keeps and counts. -/
theorem palettePushAppends : Obligations.PalettePushAppends := by
  unfold Obligations.PalettePushAppends
  intro s v es hr hb
  refine ⟨fun ha => ⟨_, step_regWrite hr ha (hostRegWrite_palData hb), rfl, bumpCount_toNat _, fun hlt => ?_,
    pushColour_full (s := s.setAgenda es) v⟩, step_regRead_ready hr hb⟩
  have hnew : palRead (pushColour v (s.setAgenda es)).pal s.palLen.toNat = colourOfWord v := pushColour_read_new v hlt
  rw [hnew]
  obtain ⟨hred, hgreen, hblue⟩ := colourOfWord_toNat v
  exact ⟨hred, hgreen, hblue, fun i hi => pushColour_read_other (s := s.setAgenda es) v hi⟩

/-- Settles O11, by the value of each register. -/
theorem registerReadsFollowTheMap : Obligations.RegisterReadsFollowTheMap := by
  unfold Obligations.RegisterReadsFollowTheMap
  exact fun s r es hr hb ha => ⟨regValue s r, regValue_toNat s r, step_regRead_ready hr hb ha⟩

/-- Settles O12, by the equations of a CMD write in a block that is not BUSY and in one that is. -/
theorem commandPortAcceptsUnlessBusy : Obligations.CommandPortAcceptsUnlessBusy := by
  unfold Obligations.CommandPortAcceptsUnlessBusy
  intro s es hr
  refine ⟨fun w ha => ⟨fun hb => ?_, fun hb => ?_⟩, fun ha hb => step_regRead_ready hr hb ha⟩
  · exact step_regWrite hr ha (hostRegWrite_cmd hb)
  · exact step_regWrite hr ha (hostRegWrite_busy hb)

/-- Settles O13, by the equation of each of the four registers. -/
theorem configurationWrites : Obligations.ConfigurationWrites := by
  unfold Obligations.ConfigurationWrites
  intro s v es hr hb
  refine ⟨fun ha => ⟨_, step_regWrite hr ha (hostRegWrite_cfg hb), BitVec.extractLsb'_toNat .., rfl⟩,
    fun ha => ?_, fun ha => ?_, fun ha => ?_⟩
  · exact step_regWrite hr ha (hostRegWrite_width hb)
  · exact step_regWrite hr ha (hostRegWrite_height hb)
  · exact step_regWrite hr ha (hostRegWrite_channels hb)

/-- Settles O16, by the equations of the two length registers. -/
theorem lengthWritesClear : Obligations.LengthWritesClear := by
  unfold Obligations.LengthWritesClear
  intro s v es hr hb
  exact ⟨fun ha => step_regWrite hr ha (hostRegWrite_srcLen hb), fun ha => step_regWrite hr ha (hostRegWrite_palLen hb)⟩

/-- Settles O17, by the ignored writes and the reserved numbers of the register map. -/
theorem reservedRegistersDoNothing : Obligations.ReservedRegistersDoNothing := by
  unfold Obligations.ReservedRegistersDoNothing
  intro s r es hr
  refine ⟨fun h v ha => step_regWrite hr ha (hostRegWrite_ignored h), fun h hb ha => ?_⟩
  obtain ⟨n, rfl⟩ := Nat.exists_eq_add_of_le' h
  exact step_regRead_ready hr hb ha

/-! ### Commands: the obligations -/

/-- Settles O5: a completion of a running word is the command it decodes to. -/
theorem stepRunsTheDecodedCommand : Obligations.StepRunsTheDecodedCommand := by
  unfold Obligations.StepRunsTheDecodedCommand
  intro s w i hr hp hd
  constructor
  · intro es ha
    rw [step_completion hr ha, sequencerMove_busy (s := s.setAgenda es) hp, completeCommand_ok hd]
    rfl
  · intro ha
    rw [step_nil hr ha, sequencerMove_busy hp, completeCommand_ok hd]

theorem decode_of_decodeTableWord {nbits w : Nat} {i : Instr} (h : decodeTableWord nbits w = some i) :
    decode (BitVec.ofNat 32 (w % 2 ^ nbits)) = .ok i := by
  unfold decodeTableWord at h
  split at h
  · injection h with h
    rwa [← h]
  · cases h

/-- Settles O6: `withFetchWord` leaves a running word and its completion, as in O5. -/
theorem fetchWordRunsNext : Obligations.FetchWordRunsNext := by
  unfold Obligations.FetchWordRunsNext
  intro s nbits w i h
  exact (stepRunsTheDecodedCommand (s.withFetchWord nbits w) _ i rfl rfl (decode_of_decodeTableWord h)).1 s.agenda rfl

/-- Settles O42, by the agreement of two passes with the same geometry, raster and palette. -/
theorem quantizerReadsOnlyItsInputs : Obligations.QuantizerReadsOnlyItsInputs := by
  unfold Obligations.QuantizerReadsOnlyItsInputs
  intro i s s' hi hs hs' hw hh hc hn hsrc hpal
  obtain ⟨kernel, hexec⟩ := exec_diffuser hi
  have hgeometry : s.geometry = s'.geometry := by simp only [State.geometry, hw, hh, hc]
  obtain ⟨hwork, hidx⟩ := quantizePass_agree (R := rounding) (kernel := kernel) ((legal_iff_legalGeometry s).mpr hs.1)
    hgeometry (palette_congr hn hpal) hsrc
  refine ⟨_, _, (hexec s).trans (runCommand_done ((quantizerChecks_none_iff s).mpr hs)),
    (hexec s').trans (runCommand_done ((quantizerChecks_none_iff s').mpr hs')), hwork, fun a ha => ?_⟩
  exact congrArg (Option.getD · (Config.unwrittenByte .idx a)) (hidx a ha)

/-- Settles O54, by the two outcomes of a command: an error changes STATE, and no effect writes a parameter. -/
theorem commandsNeverWriteTheirParameters : Obligations.CommandsNeverWriteTheirParameters := by
  unfold Obligations.CommandsNeverWriteTheirParameters
  intro i s t h
  rcases exec_cases h with ⟨x, -, rfl⟩ | ⟨-, rfl⟩
  · simp
  · simp

/-! ### Validity flags and reset: the obligations -/

/-- Settles O20: the commands by their effects, the events by what each does to the flags. -/
theorem validityFlagsFollowTheTable : Obligations.ValidityFlagsFollowTheTable := by
  unfold Obligations.ValidityFlagsFollowTheTable
  refine ⟨fun i s t h => exec_flags h, fun e es s t ha h => ⟨fun hreset => ?_, fun hr => ?_⟩⟩
  · obtain ⟨level, es', rs, n, rfl⟩ := step_resetValues h (hreset.imp_left (fun he => ⟨es, by rw [ha, he]⟩))
    exact ⟨rfl, rfl, rfl⟩
  · rw [step_cons hr ha] at h
    refine ⟨?_, runEvent_access_sameFlags (s := s.setAgenda es) h, ?_, ?_⟩
    · rintro r v rfl hb
      injection h with h
      exact h ▸ hostRegWrite_flags (s := s.setAgenda es) hb r v
    · rintro rfl hc
      exact sequencerMove_sameFlags (s := s.setAgenda es) h hc
    · rintro rfl
      injection h with h
      exact h ▸ sameFlags_refl s

/-- Settles O22, by the phases a step can lead to. -/
theorem onlyResetReturnsToIdle : Obligations.OnlyResetReturnsToIdle := by
  unfold Obligations.OnlyResetReturnsToIdle
  constructor
  · intro s t h hidle
    rcases step_phaseMove h with hp | ⟨w, es, -, hp⟩ | (hp | ⟨x, hp⟩) | ⟨-, hreset⟩
    · exact .inl (hp.symm.trans hidle)
    · cases hp.symm.trans hidle
    · cases hp.symm.trans hidle
    · cases hp.symm.trans hidle
    · exact .inr hreset
  · intro s es ha
    cases hr : s.resetAsserted with
    | true => exact step_held_cons hr ha
    | false => exact step_cons hr ha

/-- Settles O21: each of the three kinds of state is that of rule R33. -/
theorem resetValues : Obligations.ResetValues := by
  unfold Obligations.ResetValues
  intro t ht
  obtain ⟨level, es, rs, n, rfl⟩ : ∃ level es rs n,
      t = { State.reset with resetAsserted := level, agenda := es, replies := rs, freeCount := n } := by
    rcases ht with rfl | ⟨s, es, ha, h⟩ | ⟨s, hr, h⟩
    · exact ⟨false, [], [], 0, rfl⟩
    · exact step_resetValues h (.inl ⟨es, ha⟩)
    · exact step_resetValues h (.inr hr)
  exact ⟨rfl, rfl, rfl, rfl, rfl, rfl, rfl, rfl, rfl, fun sp a => windows_empty_of_resetValues sp a level es rs n⟩

/-- Settles O23, by what each event does in the state the asserted input holds. -/
theorem assertedResetHoldsTheState : Obligations.AssertedResetHoldsTheState := by
  unfold Obligations.AssertedResetHoldsTheState
  intro s es hr
  refine ⟨fun ha => ?_, fun e ha he => ?_, fun r ha => ?_, fun sp a ha => ?_, step_held_cons hr⟩
  · rw [step_held hr, heldStep, ha]
    rfl
  · rcases he with ⟨r, v, rfl⟩ | rfl | rfl
    · exact step_held_cons hr ha
    · exact step_held_cons hr ha
    · exact step_held_cons hr ha
  · refine ⟨regValue (resetInput true (s.setAgenda es)) r, regValue_toNat _ _, ?_⟩
    exact step_held_cons hr ha
  · refine ⟨_, (step_held_cons hr ha).trans (congrArg _ (hostMemRead_free (.inr ?_)))⟩
    exact windows_empty_of_resetValues sp a true es s.replies s.freeCount

/-- Settles O55: the reset state is one of those with the values of rule R33. -/
theorem invariantHoldsAfterReset : Obligations.InvariantHoldsAfterReset := inv_resetValues false [] [] 0

/-! ### Commands right after reset -/

/-- Every depth that has a mnemonic is enabled after reset (rules R14, R33). -/
theorem reset_depthEnabled (bpp : Nat) : State.reset.depthEnabled bpp = isNamedDepth bpp := by
  rw [Bool.eq_iff_iff, State.depthEnabled_iff]
  simp [isNamedDepth, State.reset, or_assoc]

theorem isEncoder_checks {i : Instr} {bpp : Nat} {p : PixelSource} (h : isEncoder i bpp p) (s : State) :
    checksOf i s = encoderChecks bpp p s := by
  rcases h with ⟨rfl, rfl⟩ | ⟨rfl, rfl⟩ | ⟨rfl, rfl⟩ | ⟨rfl, rfl⟩ | ⟨rfl, rfl⟩ <;> rfl

theorem isEncoder_namedDepth {i : Instr} {bpp : Nat} {p : PixelSource} (h : isEncoder i bpp p) :
    isNamedDepth bpp = true := by
  rcases h with ⟨-, rfl⟩ | ⟨-, rfl⟩ | ⟨-, rfl⟩ | ⟨-, rfl⟩ | ⟨-, rfl⟩ <;> rfl

theorem reset_geometry_illegal : ¬ State.reset.geometry.legal = true := by decide

/-- Settles O24: the step by the phases it can lead to, each command by its first failing check in the reset state. -/
theorem commandsRightAfterReset : Obligations.CommandsRightAfterReset := by
  unfold Obligations.CommandsRightAfterReset
  refine ⟨rfl, fun s t hb h ht => ?_, fun i hi => ?_, fun i bpp p hi hbpp => ?_, fun p hp => ?_, fun bpp p hwf => ?_,
    fun n h2 h256 => ?_⟩
  · obtain ⟨w, hw⟩ := busy_of_isBusy ht
    rcases step_phaseMove h with hp | ⟨w', es, ha, -⟩ | (hp | ⟨x, hp⟩) | ⟨hp, -⟩
    · cases hb.symm.trans (isBusy_of_phase (hp.symm.trans hw))
    · exact ⟨w', es, ha⟩
    · cases hw.symm.trans hp
    · cases hw.symm.trans hp
    · cases hw.symm.trans hp
  · have hrange : ¬ (State.reset.geometry.legal = true ∧ State.reset.palCount ≤ 256) :=
      fun h => reset_geometry_illegal h.1
    rcases hi with (rfl | rfl | rfl) | rfl
    · exact exec_error (quantizerChecks_range hrange)
    · exact exec_error (quantizerChecks_range hrange)
    · exact exec_error (quantizerChecks_range hrange)
    · exact exec_error (passChecks_range reset_geometry_illegal)
  · refine exec_error ((congrArg _ (isEncoder_checks hi _)).trans (encoderChecks_palette (by omega) ?_ ?_))
    · rw [reset_depthEnabled, isEncoder_namedDepth hi]
    · exact fun h => absurd (h hbpp).1 (by decide)
  · exact exec_error (encoderChecks_range (fun h => hp h.2) rfl (fun h => absurd h (by decide)) reset_geometry_illegal)
  · have hnamed : isNamedDepth bpp.toNat = false := (Bool.not_eq_true' _).mp hwf
    refine exec_error (encoderChecks_depth ?_ ?_)
    · rintro ⟨h24, -⟩
      rw [h24] at hnamed
      cases hnamed
    · rw [reset_depthEnabled, hnamed]
      exact Bool.false_ne_true
  · exact ⟨_, exec_done ((palgrayChecks_none n.toNat).mpr ⟨h2, h256⟩), rfl⟩

end Sys2Proof.Machine

/-! ### Memory reads and the colour table

What a host memory read returns inside and outside the window of its space (rules R41, R47, R48), and the slots of the colour
table as they stand in OUT after an encoder command (rule R125). -/

namespace Sys2Proof.Machine

open Sys2Proof.Claims

/-! ### Reads inside a window -/

/-- The word of a palette entry is the number `0x00RRGGBB` (rule R41). -/
theorem wordOfColour_eq_ofNat (c : Colour) :
    wordOfColour c = BitVec.ofNat 32 (c.r.toNat * 65536 + c.g.toNat * 256 + c.b.toNat) := by
  apply BitVec.eq_of_toNat_eq
  have hr := c.r.isLt
  have hg := c.g.isLt
  have hb := c.b.isLt
  simp only [wordOfColour, append_toNat, BitVec.toNat_ofNat]
  omega

theorem elementReply_eq_storedElement (sp : Space) (a : Nat) (s : State) :
    elementReply sp a s = storedElement sp a s := by
  cases sp with
  | pal => exact congrArg Reply.word (wordOfColour_eq_ofNat _)
  | src => rfl
  | work => rfl
  | idx => rfl
  | out => rfl

/-- A memory read of a block that is not BUSY, inside the window of its space (rule R47). -/
theorem hostMemRead_stored {s : State} {sp : Space} {a : Nat} (hb : s.isBusy = false) (h : windowHolds sp a s) :
    hostMemRead sp a s = s.addReply (storedElement sp a s) := by
  rw [← elementReply_eq_storedElement]
  exact if_pos (by rw [hb, (inWindow_iff sp a s).mpr h]; rfl)

/-- Settles O18, by the equations of a memory read inside the window and of one outside it or while BUSY. -/
theorem memoryReadsFollowTheWindows : Obligations.MemoryReadsFollowTheWindows := by
  unfold Obligations.MemoryReadsFollowTheWindows
  intro s sp a es hr ha
  refine ⟨fun hb hw => ?_, fun h => ⟨freeReply sp s.freeCount, ?_⟩⟩
  · exact step_memRead hr ha (hostMemRead_stored (s := s.setAgenda es) hb hw)
  · exact step_memRead hr ha (hostMemRead_free (s := s.setAgenda es) h)

/-! ### Reads that reveal nothing -/

/-- A memory read outside its window or made while BUSY is answered by a free value, which depends on the space and the
free-value counter only; so it is while the reset input is asserted, when every window is empty (rules R48, R190). -/
theorem step_memRead_free {s : State} {sp : Space} {a : Nat} {es : List Event} (ha : s.agenda = .memRead sp a :: es)
    (h : s.isBusy = true ∨ ¬ windowHolds sp a s) :
    ∃ t, step s = .next t ∧ t.replies = freeReply sp s.freeCount :: s.replies := by
  cases hr : s.resetAsserted with
  | false => exact ⟨_, step_memRead hr ha (hostMemRead_free (s := s.setAgenda es) h), rfl⟩
  | true =>
    have hempty := windows_empty_of_resetValues sp a true es s.replies s.freeCount
    exact ⟨_, (step_held_cons hr ha).trans (congrArg _ (hostMemRead_free (.inr hempty))), rfl⟩

/-- Settles O19: neither the windows nor the free reply depend on the contents of the five memories. -/
theorem outsideReadsRevealNothing : Obligations.OutsideReadsRevealNothing := by
  unfold Obligations.OutsideReadsRevealNothing
  intro s pal src work idx out sp a es ha h
  obtain ⟨t, ht, hreply⟩ := step_memRead_free ha h
  obtain ⟨u, hu, hreply'⟩ :=
    step_memRead_free (s := { s with pal := pal, src := src, work := work, idx := idx, out := out }) ha h
  exact ⟨t, u, ht, hu, hreply.trans hreply'.symm⟩

/-! ### An encoder command whose checks pass -/

theorem encoderChecks_none_iff (bpp : Nat) (p : PixelSource) (s : State) :
    firstFailure (encoderChecks bpp p s) = none ↔ encoderReady bpp p s := by
  rw [encoderChecks_none, State.depthEnabled_iff, legal_iff_legalGeometry, sourceCheck_iff]
  rfl

theorem isEncoder_effect {i : Instr} {bpp : Nat} {p : PixelSource} (h : isEncoder i bpp p) (s : State) :
    effectOf i s = encodeEffect bpp p s := by
  rcases h with ⟨rfl, rfl⟩ | ⟨rfl, rfl⟩ | ⟨rfl, rfl⟩ | ⟨rfl, rfl⟩ | ⟨rfl, rfl⟩ <;> rfl

/-- An encoder command whose checks pass writes the whole file (rules R120, R121). -/
theorem exec_encoder {i : Instr} {bpp : Nat} {p : PixelSource} {s : State} (hi : isEncoder i bpp p)
    (hs : encoderReady bpp p s) : exec i s = .next ((encodeEffect bpp p s).setPhase .done) := by
  rw [← isEncoder_effect hi]
  exact exec_done ((congrArg _ (isEncoder_checks hi s)).trans ((encoderChecks_none_iff bpp p s).mpr hs))

/-! ### The colour table -/

theorem tableSlot_palette {s : State} {k : Nat} (h : k < s.palLen.toNat) :
    tableSlot s k = [(palRead s.pal k).b, (palRead s.pal k).g, (palRead s.pal k).r, 0] := if_pos h

theorem tableSlot_beyond {s : State} {k : Nat} (h : s.palLen.toNat ≤ k) : tableSlot s k = [0, 0, 0, 0] :=
  if_neg (Nat.not_lt.mpr h)

/-- The four bytes of a colour table slot as they stand in OUT. -/
theorem outRead_tableSlot {m : Memory Byte} {bpp : Nat} {p : PixelSource} {s : State} {k : Nat} {b g r z : Byte}
    (hb : bpp < 24) (hk : k < 2 ^ bpp) (h : tableSlot s k = [b, g, r, z]) :
    let out := Memory.writeBlock m 0 (bmpFile bpp p s)
    outRead out (54 + 4 * k) = b ∧ outRead out (54 + 4 * k + 1) = g ∧ outRead out (54 + 4 * k + 2) = r
      ∧ outRead out (54 + 4 * k + 3) = z := by
  have file_byte {i : Nat} (hi : i < 4) : (bmpFile bpp p s)[54 + 4 * k + i]? = [b, g, r, z][i]? :=
    h ▸ bmpFile_table hb hk hi
  exact ⟨outRead_file (file_byte (i := 0) (by decide)), outRead_file (file_byte (i := 1) (by decide)),
    outRead_file (file_byte (i := 2) (by decide)), outRead_file (file_byte (i := 3) (by decide))⟩

/-- Settles O44, by the bytes of a slot below the palette length and of one beyond it. -/
theorem encoderWritesTheColourTable : Obligations.EncoderWritesTheColourTable := by
  unfold Obligations.EncoderWritesTheColourTable
  intro i bpp p s hi hs hb
  refine ⟨_, exec_encoder hi hs, fun k hk => ?_⟩
  rcases Nat.lt_or_ge k s.palLen.toNat with hlt | hge
  · obtain ⟨hblue, hgreen, hred, hzero⟩ := outRead_tableSlot (m := s.out) (p := p) hb hk (tableSlot_palette hlt)
    exact ⟨hzero, fun _ => ⟨hblue, hgreen, hred⟩, fun hge => absurd hlt (Nat.not_lt.mpr hge)⟩
  · obtain ⟨hblue, hgreen, hred, hzero⟩ := outRead_tableSlot (m := s.out) (p := p) hb hk (tableSlot_beyond hge)
    exact ⟨hzero, fun hlt => absurd hlt (Nat.not_lt.mpr hge), fun _ => ⟨hblue, hgreen, hred⟩⟩

end Sys2Proof.Machine

/-! ### Command words

The decoder read row by row of the opcode table, one equation for each OPC (rules R62 to R66); the round trips with the encoder
and the illegal words are read off these equations. -/

namespace Sys2Proof.Machine

open Sys2Proof.Claims Sys2Proof.Laws

/-! ### The decoder, for each OPC -/

theorem decode_paletteWord (imm : BitVec 24) (sub : BitVec 4) : decode (commandWord imm sub 1)
    = if sub = 0 then .ok (.palgray imm) else .error .paletteSub := decode_commandWord imm sub 1

theorem decode_quantizerWord (imm : BitVec 24) (sub : BitVec 4) :
    decode (commandWord imm sub 2) = decodeQuantizer sub imm := decode_commandWord imm sub 2

theorem decode_encoderWord (imm : BitVec 24) (sub : BitVec 4) :
    decode (commandWord imm sub 3) = decodeEncoder sub imm := decode_commandWord imm sub 3

theorem decode_reservedWord (imm : BitVec 24) (sub : BitVec 4) {opc : BitVec 4} (h1 : opc ≠ 1) (h2 : opc ≠ 2)
    (h3 : opc ≠ 3) : decode (commandWord imm sub opc) = .error .reservedOpcode := by
  rw [decode_commandWord, if_neg h1, if_neg h2, if_neg h3]

/-! ### The pixel source and the depth of an encoder word -/

theorem pixelSourceOf_eq_some {sub : BitVec 4} {p : PixelSource} (h : pixelSourceOf sub = some p) :
    sub = pixelSourceCode p := by
  unfold pixelSourceOf at h
  split_ifs at h with h0 h1 h2
  · cases h; exact h0
  · cases h; exact h1
  · cases h; exact h2

theorem decodeEncoder_code (p : PixelSource) (imm : BitVec 24) :
    decodeEncoder (pixelSourceCode p) imm = decodeDepth p imm := by rw [decodeEncoder, pixelSourceOf_code]

/-- A SUB value is the code of a pixel source, or one of the values 3 to 15 (rule R64). -/
theorem encoderSub_cases (sub : BitVec 4) :
    (∃ p, sub = pixelSourceCode p) ∨ (3 ≤ sub.toNat ∧ ∀ imm, decodeEncoder sub imm = .error .encoderSource) := by
  cases h : pixelSourceOf sub with
  | some p => exact .inl ⟨p, pixelSourceOf_eq_some h⟩
  | none =>
    refine .inr ⟨?_, fun imm => by rw [decodeEncoder, h]⟩
    unfold pixelSourceOf at h
    split_ifs at h
    bv_omega

/-- The depths that have a mnemonic of their own (rule R65). -/
theorem isNamedDepth_iff (imm : BitVec 24) :
    isNamedDepth imm.toNat = true ↔ imm = 1 ∨ imm = 2 ∨ imm = 4 ∨ imm = 8 ∨ imm = 24 := by
  simp [isNamedDepth, BitVec.toNat_eq, or_assoc]

theorem decodeDepth_unnamed {imm : BitVec 24} (h : isNamedDepth imm.toNat = false) (p : PixelSource) :
    decodeDepth p imm = .ok (.enc imm p) := by
  rw [← Bool.not_eq_true, isNamedDepth_iff] at h
  simp only [not_or] at h
  obtain ⟨h1, h2, h4, h8, h24⟩ := h
  rw [decodeDepth, if_neg h1, if_neg h2, if_neg h4, if_neg h8, if_neg h24]

/-! ### From a command to its word and back -/

theorem decode_sourceWord (p : PixelSource) (imm : BitVec 24) :
    decode (commandWord imm (pixelSourceCode p) 3) = decodeDepth p imm :=
  (decode_encoderWord imm _).trans (decodeEncoder_code p imm)

theorem decode_encode {i : Instr} (h : i.wf = true) : decode (encode i) = .ok i := by
  cases i with
  | palgray n => exact decode_paletteWord n 0
  | qnone => exact decode_quantizerWord 0 0
  | qfs => exact decode_quantizerWord 0 1
  | qatk => exact decode_quantizerWord 0 2
  | qpass => exact decode_quantizerWord 0 3
  | enc1 p => exact decode_sourceWord p 1
  | enc2 p => exact decode_sourceWord p 2
  | enc4 p => exact decode_sourceWord p 4
  | enc8 p => exact decode_sourceWord p 8
  | enc24 p => exact (decode_sourceWord p 24).trans (if_neg (bne_iff_ne.mp h))
  | enc bpp p => exact (decode_sourceWord p bpp).trans (decodeDepth_unnamed ((Bool.not_eq_true' _).mp h) p)

theorem encode_of_decodeQuantizer {sub : BitVec 4} {imm : BitVec 24} {i : Instr} (h : decodeQuantizer sub imm = .ok i) :
    encode i = commandWord imm sub 2 ∧ i.wf = true := by
  unfold decodeQuantizer at h
  split_ifs at h with himm h0 h1 h2 h3
  all_goals
    cases h
    cases not_not.mp himm
    subst sub
    exact ⟨rfl, rfl⟩

theorem encode_of_decodeDepth {p : PixelSource} {imm : BitVec 24} {i : Instr} (h : decodeDepth p imm = .ok i) :
    encode i = commandWord imm (pixelSourceCode p) 3 ∧ i.wf = true := by
  cases hn : isNamedDepth imm.toNat with
  | false =>
    cases (decodeDepth_unnamed hn p).symm.trans h
    exact ⟨rfl, (Bool.not_eq_true' _).mpr hn⟩
  | true =>
    rcases (isNamedDepth_iff imm).mp hn with rfl | rfl | rfl | rfl | rfl
    case inr.inr.inr.inr => cases p <;> cases h <;> exact ⟨rfl, rfl⟩
    all_goals
      cases h
      exact ⟨rfl, rfl⟩

theorem encode_of_decode {w : Word} {i : Instr} (h : decode w = .ok i) : encode i = w ∧ i.wf = true := by
  rw [← commandWord_fields w] at h ⊢
  generalize immOf w = imm, subOf w = sub, opcOf w = opc at h ⊢
  by_cases h1 : opc = 1
  · subst h1
    rw [decode_paletteWord] at h
    split_ifs at h with h0
    cases h
    subst h0
    exact ⟨rfl, rfl⟩
  by_cases h2 : opc = 2
  · subst h2
    exact encode_of_decodeQuantizer ((decode_quantizerWord imm sub).symm.trans h)
  by_cases h3 : opc = 3
  · subst h3
    rw [decode_encoderWord] at h
    rcases encoderSub_cases sub with ⟨p, rfl⟩ | ⟨-, herr⟩
    · exact encode_of_decodeDepth ((decodeEncoder_code p imm).symm.trans h)
    · cases (herr imm).symm.trans h
  · cases (decode_reservedWord imm sub h1 h2 h3).symm.trans h

/-- Settles O1, command by command, by the row of its OPC. -/
theorem decodeOfEncode : Obligations.DecodeOfEncode := by
  unfold Obligations.DecodeOfEncode
  exact fun _ => decode_encode

/-- Settles O2, by the row of the word's OPC: every command a row answers encodes to the fields it was read from. -/
theorem encodeOfDecode : Obligations.EncodeOfDecode := by
  unfold Obligations.EncodeOfDecode
  exact fun _ _ => encode_of_decode

/-! ### Illegal words -/

/-- Rule R66 of a word written by its fields. -/
theorem illegalWord_commandWord (imm : BitVec 24) (sub opc : BitVec 4) : illegalWord (commandWord imm sub opc)
    ↔ opc.toNat = 0 ∨ 4 ≤ opc.toNat ∨ (opc.toNat = 1 ∧ sub.toNat ≠ 0) ∨ (opc.toNat = 2 ∧ 4 ≤ sub.toNat)
      ∨ (opc.toNat = 2 ∧ imm.toNat ≠ 0) ∨ (opc.toNat = 3 ∧ 3 ≤ sub.toNat)
      ∨ (opc.toNat = 3 ∧ sub.toNat = 2 ∧ imm.toNat = 24) := by
  rw [illegalWord, ← opcOf_toNat, ← subOf_toNat, ← immOf_toNat, opcOf_commandWord, subOf_commandWord, immOf_commandWord]

theorem decodeQuantizer_error_iff (sub : BitVec 4) (imm : BitVec 24) :
    (∃ e, decodeQuantizer sub imm = .error e) ↔ 4 ≤ sub.toNat ∨ imm.toNat ≠ 0 := by
  unfold decodeQuantizer
  split_ifs with himm h0 h1 h2 h3
  · exact iff_of_true ⟨_, rfl⟩ (.inr (by bv_omega))
  · exact iff_of_false nofun (by bv_omega)
  · exact iff_of_false nofun (by bv_omega)
  · exact iff_of_false nofun (by bv_omega)
  · exact iff_of_false nofun (by bv_omega)
  · exact iff_of_true ⟨_, rfl⟩ (.inl (by bv_omega))

theorem decodeDepth_error_iff (p : PixelSource) (imm : BitVec 24) :
    (∃ e, decodeDepth p imm = .error e) ↔ p = .idx ∧ imm = 24 := by
  cases hn : isNamedDepth imm.toNat with
  | false =>
    rw [decodeDepth_unnamed hn]
    refine iff_of_false nofun ?_
    rintro ⟨-, rfl⟩
    cases hn
  | true =>
    rcases (isNamedDepth_iff imm).mp hn with rfl | rfl | rfl | rfl | rfl
    case inr.inr.inr.inr => cases p <;> simp [decodeDepth]
    all_goals exact iff_of_false nofun (by simp)

theorem decodeEncoder_error_iff (sub : BitVec 4) (imm : BitVec 24) :
    (∃ e, decodeEncoder sub imm = .error e) ↔ 3 ≤ sub.toNat ∨ (sub.toNat = 2 ∧ imm.toNat = 24) := by
  rcases encoderSub_cases sub with ⟨p, rfl⟩ | ⟨hsub, herr⟩
  · rw [decodeEncoder_code, decodeDepth_error_iff, BitVec.toNat_eq]
    cases p <;> simp [pixelSourceCode]
  · exact iff_of_true ⟨_, herr imm⟩ (.inl hsub)

theorem decode_error_iff (w : Word) : (∃ e, decode w = .error e) ↔ illegalWord w := by
  rw [← commandWord_fields w]
  generalize immOf w = imm, subOf w = sub, opcOf w = opc
  rw [illegalWord_commandWord]
  by_cases h1 : opc = 1
  · subst h1
    rw [decode_paletteWord]
    split_ifs with h0
    · exact iff_of_false nofun (by bv_omega)
    · exact iff_of_true ⟨_, rfl⟩ (.inr (.inr (.inl ⟨rfl, by bv_omega⟩)))
  by_cases h2 : opc = 2
  · subst h2
    rw [decode_quantizerWord, decodeQuantizer_error_iff]
    simp
  by_cases h3 : opc = 3
  · subst h3
    rw [decode_encoderWord, decodeEncoder_error_iff]
    simp
  · rw [decode_reservedWord imm sub h1 h2 h3]
    exact iff_of_true ⟨_, rfl⟩ (by bv_omega)

/-- Settles O3: the refused words by the row of their OPC, and the two steps by the equations of a CMD write and of the
completion of a word that does not decode. -/
theorem illegalWordsAreExactlyThoseListed : Obligations.IllegalWordsAreExactlyThoseListed := by
  unfold Obligations.IllegalWordsAreExactlyThoseListed
  intro w
  refine ⟨decode_error_iff w, fun hw s es hr => ⟨fun hb ha => ?_, fun hp ha => ?_⟩⟩
  · exact step_regWrite hr ha (hostRegWrite_cmd hb)
  · obtain ⟨x, hx⟩ := (decode_error_iff w).mpr hw
    rw [step_completion hr ha, sequencerMove_busy (s := s.setAgenda es) hp, completeCommand_error hx]
    rfl

/-- Settles O4, by running the decoder on each of the fourteen words. -/
theorem sampleWordsDecode : Obligations.SampleWordsDecode := by
  unfold Obligations.SampleWordsDecode
  decide

end Sys2Proof.Machine

/-! ### Runs of steps

What becomes of the events still to come: a step takes one of them, and with none left it leaves no command running (rules R70,
R198); host accesses made while BUSY pass over the running command (rule R193). -/

namespace Sys2Proof.Machine

open Sys2Proof.Claims

/-! ### A started command finishes -/

/-- Settles O7: a step is a command, a host access or a change of the reset input, and each answers a next state. -/
theorem everyStepAnswersANextState : Obligations.EveryStepAnswersANextState := by
  unfold Obligations.EveryStepAnswersANextState
  exact step_total

/-- A step takes the first event. -/
theorem step_agenda {s t : State} (h : step s = .next t) : t.agenda = s.agenda.tail := by
  rcases step_cases h with ⟨-, rfl⟩ | ⟨-, ha, hmove⟩ | ⟨-, e, es, ha, hevent⟩
  · exact heldStep_agenda s
  · rw [sequencerMove_agenda hmove, ha, List.tail_nil]
  · rw [runEvent_agenda hevent, ha]
    rfl

/-- A step with no event left leaves no command running. -/
theorem step_nil_isBusy {s t : State} (ha : s.agenda = []) (h : step s = .next t) : t.isBusy = false := by
  rcases step_cases h with ⟨-, rfl⟩ | ⟨-, -, hmove⟩ | ⟨-, e, es, hcons, -⟩
  · exact heldStep_isBusy s
  · exact sequencerMove_isBusy hmove
  · cases ha.symm.trans hcons

theorem run_past_agenda (n : Nat) {s : State} (ha : s.agenda.length = n) :
    ∃ t, Host.Core.run Sys2Proof.core (n + 1) s = .next t ∧ t.isBusy = false := by
  induction n generalizing s with
  | zero =>
    obtain ⟨t, ht⟩ := step_total s
    exact ⟨t, core_run_succ 0 ht, step_nil_isBusy (List.eq_nil_of_length_eq_zero ha) ht⟩
  | succ n ih =>
    obtain ⟨t, ht⟩ := step_total s
    rw [core_run_succ _ ht]
    exact ih (by rw [step_agenda ht, List.length_tail, ha, Nat.add_sub_cancel])

/-- Settles O8, by induction on the number of events still to come. -/
theorem startedCommandFinishes : Obligations.StartedCommandFinishes := by
  unfold Obligations.StartedCommandFinishes
  exact fun s => run_past_agenda _ rfl

/-! ### Host accesses while BUSY -/

theorem step_setAgenda_cons {s : State} (e : Event) (es : List Event) (hr : s.resetAsserted = false) :
    step (s.setAgenda (e :: es)) = runEvent e (s.setAgenda es) := step_cons (s := s.setAgenda (e :: es)) hr rfl

/-- A host access made while BUSY changes only the model's record of the host's reads (rule R193). -/
theorem step_busyAccess {s : State} {e : Event} (es : List Event) (hr : s.resetAsserted = false) (hb : s.isBusy = true)
    (he : isHostAccess e) : ∃ rs n, step (s.setAgenda (e :: es)) = .next ((s.setHostSide rs n).setAgenda es) := by
  rw [step_setAgenda_cons e es hr]
  rcases he with ⟨r, rfl⟩ | ⟨r, v, rfl⟩ | ⟨sp, a, rfl⟩
  · obtain ⟨rs, n, hread⟩ := hostRegRead_hostSide r (s.setAgenda es)
    exact ⟨rs, n, congrArg _ hread⟩
  · exact ⟨s.replies, s.freeCount, congrArg _ (hostRegWrite_busy (s := s.setAgenda es) hb)⟩
  · obtain ⟨rs, n, hread⟩ := hostMemRead_hostSide sp a (s.setAgenda es)
    exact ⟨rs, n, congrArg _ hread⟩

theorem run_busyAccesses (k : Nat) (rest : List Event) {es : List Event} (hes : ∀ e ∈ es, isHostAccess e) {s : State}
    (hr : s.resetAsserted = false) (hb : s.isBusy = true) :
    ∃ rs n, Host.Core.run Sys2Proof.core (es.length + k) (s.setAgenda (es ++ rest))
      = Host.Core.run Sys2Proof.core k ((s.setHostSide rs n).setAgenda rest) := by
  induction es generalizing s with
  | nil => exact ⟨s.replies, s.freeCount, by rw [List.length_nil, Nat.zero_add]; rfl⟩
  | cons e es ih =>
    obtain ⟨he, hes⟩ := List.forall_mem_cons.mp hes
    obtain ⟨rs, n, hstep⟩ := step_busyAccess (es ++ rest) hr hb he
    obtain ⟨rs', n', hrun⟩ := ih hes (s := s.setHostSide rs n) hr hb
    refine ⟨rs', n', ?_⟩
    rw [List.length_cons, Nat.add_right_comm]
    exact (core_run_succ _ hstep).trans hrun

/-- Settles O10, by induction on the accesses: they only add to what the host has read, at which no command looks. -/
theorem runningCommandIsNotDisturbed : Obligations.RunningCommandIsNotDisturbed := by
  unfold Obligations.RunningCommandIsNotDisturbed
  intro s es hr hb hes
  obtain ⟨rs, n, hrun⟩ := run_busyAccesses 1 [.completion] hes hr hb
  obtain ⟨u, hu⟩ := sequencerMove_total (s.setAgenda [])
  have halone : step (s.setAgenda [.completion]) = .next u := (step_setAgenda_cons _ _ hr).trans hu
  have hafter : step ((s.setHostSide rs n).setAgenda [.completion]) = .next (u.setHostSide rs n) :=
    (step_setAgenda_cons (s := s.setHostSide rs n) _ _ hr).trans (sequencerMove_setHostSide rs n hu)
  exact ⟨u.setHostSide rs n, u, hrun.trans (core_run_succ 0 hafter), halone, rfl⟩

end Sys2Proof.Machine

/-! ### The palette

The stops of the gray ramp in numbers (rules R80, R81) and the palette memory PALGRAY leaves; then what a step can do to PAL
and PAL_LEN (rule R82). -/

namespace Sys2Proof.Machine

/-! ### The stops of a gray ramp -/

theorem grayStop_zero {n : Nat} (h : 2 ≤ n) : grayStop 0 n = 0 := Nat.div_eq_of_lt (by omega)

/-- A stop below `n` is a byte, so an entry of the ramp holds it exactly. -/
theorem grayStop_le {i n : Nat} (h : 2 ≤ n) (hi : i < n) : grayStop i n ≤ 255 :=
  Nat.le_of_lt_succ (Nat.div_lt_of_lt_mul (by omega))

theorem grayStop_last {n : Nat} (h : 2 ≤ n) : grayStop (n - 1) n = 255 := by
  refine Nat.le_antisymm (grayStop_le h (by omega)) ((Nat.le_div_iff_mul_le (by omega)).mpr ?_)
  omega

/-- From one stop to the next the numerator grows by 510, and with at most 256 stops the denominator is at most 510. -/
theorem grayStop_lt {i j n : Nat} (hij : i < j) (hj : j < n) (hn : n ≤ 256) : grayStop i n < grayStop j n := by
  have hd : 0 < 2 * (n - 1) := by omega
  calc grayStop i n < grayStop i n + 1 := Nat.lt_succ_self _
    _ = (510 * i + (n - 1) + 2 * (n - 1)) / (2 * (n - 1)) := (Nat.add_div_right _ hd).symm
    _ ≤ grayStop j n := Nat.div_le_div_right (by omega)

/-- Settles O29, by the ends of the ramp and the growth from one stop to the next. -/
theorem grayRampRisesFromBlackToWhite : Obligations.GrayRampRisesFromBlackToWhite := by
  unfold Obligations.GrayRampRisesFromBlackToWhite
  exact fun n h2 h256 => ⟨grayStop_zero h2, grayStop_last h2, fun _ _ hij hj => grayStop_lt hij hj h256⟩

/-! ### PAL after PALGRAY -/

theorem grayColour_toNat {v : Nat} (h : v ≤ 255) :
    (grayColour v).r.toNat = v ∧ (grayColour v).g.toNat = v ∧ (grayColour v).b.toNat = v := by
  have hv : (BitVec.ofNat 8 v).toNat = v := Nat.mod_eq_of_lt (Nat.lt_succ_of_le h)
  exact ⟨hv, hv, hv⟩

theorem palRead_grayRamp {R : Config.Rounding} {i n : Nat} (m : Memory Colour) (hi : i < n) :
    palRead (Memory.writeBlock m 0 (grayRamp R n)) i = grayColour (R.grayStop i n) := by
  have hlen : i < (grayRamp R n).length := by rwa [grayRamp_length]
  rw [palRead, Memory.read_writeBlock_zero _ _ _ _ hlen]
  simp [grayRamp]

theorem palRead_beyond_grayRamp {R : Config.Rounding} {i n : Nat} (m : Memory Colour) (hi : n ≤ i) :
    palRead (Memory.writeBlock m 0 (grayRamp R n)) i = palRead m i :=
  Memory.read_writeBlock_outside _ _ _ _ _ (.inr (by rwa [grayRamp_length, Nat.zero_add]))

/-- Settles O28, by the two outcomes of the only check and the entries inside and beyond the ramp. -/
theorem palgrayBuildsTheRamp : Obligations.PalgrayBuildsTheRamp := by
  unfold Obligations.PalgrayBuildsTheRamp
  refine fun n s => ⟨fun h2 h256 => ?_, fun h => exec_error (palgrayChecks_some h)⟩
  refine ⟨_, exec_done ((palgrayChecks_none n.toNat).mpr ⟨h2, h256⟩), rfl,
    Nat.mod_eq_of_lt (h256.trans_lt (by decide)), fun i hi => ?_, fun i hi => palRead_beyond_grayRamp s.pal hi⟩
  have hentry := palRead_grayRamp (R := rounding) s.pal hi
  exact hentry ▸ grayColour_toNat (grayStop_le h2 hi)

/-! ### What changes the palette -/

/-- PAL and PAL_LEN are those of the state before. -/
def samePalette (s t : State) : Prop := t.pal = s.pal ∧ t.palLen = s.palLen

/-- The running command is a PALGRAY and completes without an error. -/
def completesPalgray (s t : State) : Prop :=
  ∃ w n, s.phase = .busy w ∧ decode w = .ok (.palgray n) ∧ t.phase = .done

theorem samePalette_refl (s : State) : samePalette s s := ⟨rfl, rfl⟩

theorem hostRegRead_samePalette (r : Nat) (s : State) : samePalette s (hostRegRead r s) := by
  obtain ⟨rs, n, h⟩ := hostRegRead_hostSide r s
  exact h ▸ samePalette_refl s

theorem hostMemRead_samePalette (sp : Space) (a : Nat) (s : State) : samePalette s (hostMemRead sp a s) := by
  obtain ⟨rs, n, h⟩ := hostMemRead_hostSide sp a s
  exact h ▸ samePalette_refl s

/-- Of the registers, only PAL_DATA and PAL_LEN write the palette. -/
theorem hostRegWrite_samePalette {r : Nat} (h8 : r ≠ 8) (h9 : r ≠ 9) (v : Word) (s : State) :
    samePalette s (hostRegWrite r v s) := by
  unfold hostRegWrite
  split
  · exact samePalette_refl s
  · split
    case h_8 => exact absurd rfl h8
    case h_9 => exact absurd rfl h9
    all_goals exact ⟨rfl, rfl⟩

/-- Of the commands, only PALGRAY writes the palette: no quantizer and no encoder command does. -/
theorem effectOf_samePalette {i : Instr} (h : ∀ n, i ≠ .palgray n) (s : State) : samePalette s (effectOf i s) := by
  cases i with
  | palgray n => exact absurd rfl (h n)
  | _ => exact ⟨rfl, rfl⟩

theorem exec_samePalette {i : Instr} {s t : State} (h : exec i s = .next t) :
    samePalette s t ∨ ((∃ n, i = .palgray n) ∧ t.phase = .done) := by
  rcases exec_cases h with ⟨x, -, rfl⟩ | ⟨-, rfl⟩
  · exact .inl (samePalette_refl s)
  · by_cases hi : ∃ n, i = .palgray n
    · exact .inr ⟨hi, rfl⟩
    · exact .inl (effectOf_samePalette (not_exists.mp hi) s)

theorem sequencerMove_samePalette {s t : State} (h : sequencerMove s = .next t) :
    samePalette s t ∨ completesPalgray s t := by
  rcases sequencerMove_cases h with ⟨-, rfl⟩ | ⟨w, x, -, -, rfl⟩ | ⟨w, i, hp, hd, he⟩
  · exact .inl (samePalette_refl t)
  · exact .inl (samePalette_refl s)
  · rcases exec_samePalette he with hsame | ⟨⟨n, rfl⟩, hdone⟩
    · exact .inl hsame
    · exact .inr ⟨w, n, hp, hd, hdone⟩

theorem runEvent_samePalette {e : Event} {s t : State} (h : runEvent e s = .next t) :
    samePalette s t ∨ (∃ v, e = .regWrite 8 v) ∨ (∃ v, e = .regWrite 9 v) ∨ e = .assertReset ∨ completesPalgray s t := by
  cases e with
  | regRead r =>
    injection h with h
    exact .inl (h ▸ hostRegRead_samePalette r s)
  | regWrite r v =>
    injection h with h
    by_cases h8 : r = 8
    · exact .inr (.inl ⟨v, by rw [h8]⟩)
    · by_cases h9 : r = 9
      · exact .inr (.inr (.inl ⟨v, by rw [h9]⟩))
      · exact .inl (h ▸ hostRegWrite_samePalette h8 h9 v s)
  | memRead sp a =>
    injection h with h
    exact .inl (h ▸ hostMemRead_samePalette sp a s)
  | completion => exact (sequencerMove_samePalette h).imp_right (fun hc => .inr (.inr (.inr hc)))
  | assertReset => exact .inr (.inr (.inr (.inl rfl)))
  | releaseReset =>
    injection h with h
    exact .inl (h ▸ samePalette_refl s)

/-- Settles O30, by the cases of a step: under the reset input, the sequencer's move, or one event. -/
theorem paletteChangesOnlyByItsOwnEvents : Obligations.PaletteChangesOnlyByItsOwnEvents := by
  unfold Obligations.PaletteChangesOnlyByItsOwnEvents
  intro s t h
  rcases step_cases h with ⟨hr, -⟩ | ⟨-, -, hmove⟩ | ⟨-, e, es, ha, hevent⟩
  · exact .inr (.inr (.inr (.inr (.inl hr))))
  · exact (sequencerMove_samePalette hmove).imp_right (fun hc => .inr (.inr (.inr (.inr hc))))
  · rcases runEvent_samePalette hevent with hsame | ⟨v, rfl⟩ | ⟨v, rfl⟩ | rfl | hc
    · exact .inl hsame
    · exact .inr (.inl ⟨v, es, ha⟩)
    · exact .inr (.inr (.inl ⟨v, es, ha⟩))
    · exact .inr (.inr (.inr (.inl ⟨es, ha⟩)))
    · exact .inr (.inr (.inr (.inr (.inr hc))))

end Sys2Proof.Machine

/-! ### Nearest colour, diffusion, kernels

`Nearest` in the squares of the statement (rules R92, R93), the cases of `Diffuse` around its clamp (rule R98), what the
Atkinson neighbours of a pixel gain (rule R108), and the two kernel tables (rule R97). -/

namespace Sys2Proof.Machine

open Sys2Proof.Claims

/-! ### The nearest colour -/

theorem colourDist_eq_colourDistance (p q : Colour) : colourDist p q = colourDistance p q := by
  unfold colourDist sqDiff colourDistance
  ring

/-- Channels lie in 0..255, so their squared difference is at most 255². -/
theorem sqDiff_le (a b : Byte) : sqDiff a b ≤ 65025 := by
  have ha := a.isLt
  have hb := b.isLt
  have habs : |(a.toNat : Int) - b.toNat| ≤ |255| := by
    rw [abs_of_pos (by decide : (0 : Int) < 255)]
    exact abs_le.mpr ⟨by omega, by omega⟩
  exact abs_le_iff_mul_self_le.mp habs

theorem colourDistance_nonneg (p q : Colour) : 0 ≤ colourDistance p q :=
  colourDist_eq_colourDistance p q ▸ colourDist_nonneg p q

theorem colourDistance_le (p q : Colour) : colourDistance p q ≤ 195075 := by
  have hr := sqDiff_le p.r q.r
  have hg := sqDiff_le p.g q.g
  have hb := sqDiff_le p.b q.b
  rw [← colourDist_eq_colourDistance, colourDist]
  omega

/-- Settles O31: `nearest_isNearest` gives the minimum and that it is the first, and the other clauses follow from the two. -/
theorem nearestIsTheFirstMinimum : Obligations.NearestIsTheFirstMinimum := by
  unfold Obligations.NearestIsTheFirstMinimum
  intro pal c hne
  obtain ⟨best, hbest, hmin, hfirst⟩ := nearest_isNearest hne c
  simp only [colourDist_eq_colourDistance] at hmin hfirst
  refine ⟨best, hbest, hmin, hfirst, colourDistance_nonneg c best, colourDistance_le c best, fun j k hjk hsame hk => ?_,
    fun hmem => ?_⟩
  · exact lt_irrefl _ (hfirst j best (hk ▸ hjk) (by rw [hsame, ← hk, hbest]))
  · exact (paletteAt_of_get hbest).symm.trans (paletteAt_nearest_of_mem hmem)

/-! ### The cases of `Diffuse` -/

theorem diffuse_of_neg {v num den : Nat} {e : Int} (h : (den : Int) * v + num * e < 0) : diffuse v e num den = 0 := if_pos h

theorem diffuse_of_nonneg {v num den : Nat} {e : Int} (h : 0 ≤ (den : Int) * v + num * e) :
    diffuse v e num den = min (((den : Int) * v + num * e) / den).toNat 255 := if_neg (not_lt.mpr h)

theorem diffuse_saturates {v num den : Nat} {e : Int} (hd : 0 < den) (h : 255 * (den : Int) ≤ (den : Int) * v + num * e) :
    diffuse v e num den = 255 := by
  have hfloor : 255 ≤ ((den : Int) * v + num * e) / den := Int.le_ediv_of_mul_le (by omega) h
  rw [diffuse_of_nonneg (by omega)]
  omega

/-- Where the clamp does nothing `Diffuse` is the floor of the exact sum. -/
theorem diffuse_eq_floor {v num den : Nat} {e : Int} (h0 : 0 ≤ (den : Int) * v + num * e)
    (h1 : (den : Int) * v + num * e < 256 * (den : Int)) :
    (diffuse v e num den : Int) = ((den : Int) * v + num * e) / den := by
  have hd : (0 : Int) < den := by omega
  have hlow : 0 ≤ ((den : Int) * v + num * e) / den := Int.ediv_nonneg h0 hd.le
  have hhigh : ((den : Int) * v + num * e) / den < 256 := Int.ediv_lt_of_lt_mul hd h1
  rw [diffuse_of_nonneg h0]
  omega

/-- A share of an error in -255..255 by a weight of at most `k`. -/
theorem share_bounds {num k : Nat} {e : Int} (hn : num ≤ k) (hlow : -255 ≤ e) (hhigh : e ≤ 255) :
    -(255 * (k : Int)) ≤ num * e ∧ (num : Int) * e ≤ 255 * k := by
  have habs : |(num : Int) * e| ≤ k * 255 := by
    rw [abs_mul, Nat.abs_cast]
    exact mul_le_mul (by omega) (abs_le.mpr ⟨hlow, hhigh⟩) (abs_nonneg e) (by omega)
  have := abs_le.mp habs
  omega

/-- Settles O32, by the three cases of the clamp and the bounds of a share. -/
theorem diffuseIsTheClampedFloor : Obligations.DiffuseIsTheClampedFloor := by
  unfold Obligations.DiffuseIsTheClampedFloor
  intro v e num den hv hlow hhigh hrow
  have hd : (0 : Int) < den := by omega
  refine ⟨diffuse_le v e num den, diffuse_of_neg, diffuse_saturates (by omega), fun h0 h1 => ?_, ?_, ?_⟩
  · rw [diffuse_eq_floor h0 h1]
    exact ⟨Int.mul_ediv_self_le hd.ne', Int.lt_mul_ediv_self_add hd |>.trans_eq (mul_add_one _ _).symm⟩
  · rintro rfl
    have := share_bounds (num := num) (k := 7) (by omega) hlow hhigh
    omega
  · rintro rfl
    have := share_bounds (num := num) (k := 3) (by omega) hlow hhigh
    omega

/-! ### What the Atkinson neighbours gain -/

/-- What a neighbour that does not clamp gains, in thirty-seconds: its share 3/32 of the error, short by the fraction the
floor drops. -/
theorem diffuse_atkinson_gain {v : Nat} {e : Int} (h : 0 ≤ 32 * (v : Int) + 3 * e ∧ 32 * (v : Int) + 3 * e < 32 * 256) :
    32 * ((diffuse v e 3 32 : Int) - v) = 3 * e - 3 * e % 32 := by
  have hfloor := diffuse_eq_floor (v := v) (num := 3) (den := 32) (e := e) h.1 (by omega)
  rw [hfloor]
  omega

/-- Settles O34: the six gains, each its share less a fraction below 32 thirty-seconds, added up. -/
theorem atkinsonHandsOnNineSixteenths : Obligations.AtkinsonHandsOnNineSixteenths := by
  unfold Obligations.AtkinsonHandsOnNineSixteenths
  refine ⟨rfl, by decide, rfl, fun e vs hlen hclamp => ?_⟩
  have hgain : ∀ v ∈ vs, 32 * ((diffuse v e 3 32 : Int) - v) = 3 * e - 3 * e % 32 :=
    fun v hv => diffuse_atkinson_gain (hclamp v hv)
  have hsum : 32 * (vs.map (fun v => (diffuse v e 3 32 : Int) - v)).sum = 6 * (3 * e - 3 * e % 32) := by
    rw [← List.sum_map_mul_left, List.map_congr_left hgain, List.map_const', List.sum_replicate, hlen]
    rfl
  refine ⟨fun hdvd => ⟨fun v hv => ?_, ?_⟩, ?_, ?_⟩
  · have := hgain v hv
    omega
  all_goals omega

/-! ### The kernel tables -/

/-- Settles O33: the two tables and the three commands as the model writes them out. -/
theorem kernelTables : Obligations.KernelTables := by
  unfold Obligations.KernelTables
  exact ⟨rfl, rfl, rfl, rfl, rfl, fun _ => ⟨rfl, rfl, rfl⟩⟩

end Sys2Proof.Machine

/-! ### Quantizer commands

A quantizer command whose checks pass, said once for the three commands: its next state is `quantized` with the command's
kernel, and every pixel of that state is given by the colour its pixel step finds, `passOld` (rules R94 to R107). -/

namespace Sys2Proof.Machine

open Sys2Proof.Claims

/-! ### The next state of a quantizer command -/

/-- The quantizer commands with their kernels (rules R101 to R103). -/
def usesKernel (i : Instr) (kernel : List Tap) : Prop :=
  (i = .qnone ∧ kernel = []) ∨ (i = .qfs ∧ kernel = floydSteinbergKernel) ∨ (i = .qatk ∧ kernel = atkinsonKernel)

/-- The next state of a quantizer command whose checks pass. -/
def quantized (kernel : List Tap) (s : State) : State := (quantizeEffect rounding kernel s).setPhase .done

theorem exists_usesKernel {i : Instr} (hi : isDiffuser i) : ∃ kernel, usesKernel i kernel := by
  rcases hi with rfl | rfl | rfl
  · exact ⟨_, .inl ⟨rfl, rfl⟩⟩
  · exact ⟨_, .inr (.inl ⟨rfl, rfl⟩)⟩
  · exact ⟨_, .inr (.inr ⟨rfl, rfl⟩)⟩

theorem usesKernel_forward {i : Instr} {kernel : List Tap} (h : usesKernel i kernel) : forwardKernel kernel :=
  forwardKernel_of_command (h.imp And.right (Or.imp And.right And.right))

theorem exec_quantized {i : Instr} {kernel : List Tap} (hi : usesKernel i kernel) {s : State} (hs : quantizerReady s) :
    exec i s = .next (quantized kernel s) := by
  have hc := (quantizerChecks_none_iff s).mpr hs
  rcases hi with ⟨rfl, rfl⟩ | ⟨rfl, rfl⟩ | ⟨rfl, rfl⟩ <;> exact exec_done hc

theorem quantizerChecks_some {s : State} (h : ¬ quantizerReady s) : ∃ e, firstFailure (quantizerChecks s) = some e
    ∧ (e = .parameterOutOfRange ∨ e = .invalidRasterSize ∨ e = .invalidPalette) := by
  rw [← quantizerChecks_none_iff, quantizerChecks_none] at h
  by_cases hrange : s.geometry.legal = true ∧ s.palCount ≤ 256
  · by_cases hsize : s.srcLen.toNat = s.geometry.rasterBytes
    · have hempty : s.palCount = 0 := Nat.eq_zero_of_not_pos (fun hn => h ⟨hrange, hsize, hn⟩)
      exact ⟨_, quantizerChecks_palette hrange hsize hempty, .inr (.inr rfl)⟩
    · exact ⟨_, quantizerChecks_size hrange hsize, .inr (.inl rfl)⟩
  · exact ⟨_, quantizerChecks_range hrange, .inl rfl⟩

/-! ### Reads of IDX, and pixels by number -/

theorem idxRead_congr {m m' : Memory Byte} {a : Nat} (h : Memory.lookup m a = Memory.lookup m' a) :
    idxRead m a = idxRead m' a := congrArg (Option.getD · (Config.unwrittenByte .idx a)) h

theorem pixel_lt {s : State} {x y : Nat} (hx : x < s.width.toNat) (hy : y < s.height.toNat) :
    s.geometry.idxAddr x y < s.geometry.pixels := pixels_eq s.geometry ▸ idxAddr_lt hx hy

/-- The SRC colour of pixel number `n`. -/
theorem srcColour_pixel (s : State) (n : Nat) :
    srcColour s (n % s.geometry.w) (n / s.geometry.w) = colourAt (srcRead s.src) (n * s.geometry.c) :=
  congrArg (fun k => colourAt (srcRead s.src) (k * s.geometry.c)) (idxAddr_mod_div s.geometry n)

/-! ### A quantized raster -/

section Quantized

variable {s : State} (hs : quantizerReady s)
include hs

theorem legal_of_ready : s.geometry.legal = true := (legal_iff_legalGeometry s).mpr hs.1

theorem palette_ne_nil_of_ready : s.palette ≠ [] := palette_ne_nil hs.2.2.2

theorem nearest_toNat_of_ready (c : Colour) : (BitVec.ofNat 8 (nearest s.palette c)).toNat = nearest s.palette c :=
  nearest_toNat (palette_ne_nil_of_ready hs) (palette_length s ▸ hs.2.1) c

theorem quantized_frame (kernel : List Tap) : quantizedFrame s (quantized kernel s) :=
  ⟨rfl, fun _ ha => quantizePass_outside (legal_of_ready hs) ha,
    fun _ ha => idxRead_congr (quantizePass_idx_outside (legal_of_ready hs) ha)⟩

variable {x y : Nat} (hx : x < s.width.toNat) (hy : y < s.height.toNat)
include hx hy

/-- The index of a pixel is the nearest to the colour its step finds (rule R95). -/
theorem pixelIndex_quantized (kernel : List Tap) : pixelIndex (quantized kernel s) x y
    = nearest s.palette (passOld rounding kernel s (s.geometry.idxAddr x y)) := by
  have hread := Memory.read_of_lookup (Config.unwrittenByte .idx)
    (quantizePass_index (R := rounding) (kernel := kernel) (legal_of_ready hs) (pixel_lt hx hy))
  exact (congrArg BitVec.toNat hread).trans (nearest_toNat_of_ready hs _)

theorem pixelIndex_quantized_lt (kernel : List Tap) : pixelIndex (quantized kernel s) x y < s.palLen.toNat :=
  pixelIndex_quantized hs hx hy kernel ▸ nearest_palette_lt hs.2.2.2 _

theorem workColour_quantized {kernel : List Tap} (hk : forwardKernel kernel) :
    workColour (quantized kernel s) x y = palRead s.pal (pixelIndex (quantized kernel s) x y) := by
  rw [← paletteAt_palette s (pixelIndex_quantized_lt hs hx hy kernel), pixelIndex_quantized hs hx hy kernel]
  exact quantizePass_colour hk (legal_of_ready hs) (pixel_lt hx hy)

theorem alpha_quantized (kernel : List Tap) (hc : s.channels.toNat = 4) :
    workRead (quantized kernel s).work (pixelAddress s x y 3) = srcRead s.src (pixelAddress s x y 3) :=
  quantizePass_alpha (legal_of_ready hs) (pixel_lt hx hy) (le_refl 3) (by have : s.geometry.c = 4 := hc; omega)

end Quantized

/-! ### Rasters that match their indices -/

/-- Settles O38, by the frame, the index, the colour and the alpha byte of a quantized raster. -/
theorem quantizedRasterMatchesItsIndices : Obligations.QuantizedRasterMatchesItsIndices := by
  unfold Obligations.QuantizedRasterMatchesItsIndices
  intro i s hi hs
  obtain ⟨kernel, hi⟩ := exists_usesKernel hi
  exact ⟨_, exec_quantized hi hs, quantized_frame hs kernel, fun x y hx hy => ⟨pixelIndex_quantized_lt hs hx hy kernel,
    workColour_quantized hs hx hy (usesKernel_forward hi), alpha_quantized hs hx hy kernel⟩⟩

/-- Settles O35: with the empty kernel a pixel step finds the SRC colour. -/
theorem qnoneTakesTheNearestColour : Obligations.QnoneTakesTheNearestColour := by
  unfold Obligations.QnoneTakesTheNearestColour
  refine fun s => ⟨fun hs => ⟨_, exec_quantized (.inl ⟨rfl, rfl⟩) hs, quantized_frame hs [], fun x y hx hy => ?_⟩,
    fun hs => ?_⟩
  · have hold : passOld rounding [] s (s.geometry.idxAddr x y) = srcColour s x y :=
      passOld_nil rounding (legal_of_ready hs) (pixel_lt hx hy)
    have hindex : pixelIndex (quantized [] s) x y = nearest s.palette (srcColour s x y) :=
      hold ▸ pixelIndex_quantized hs hx hy []
    exact ⟨hindex, hindex ▸ workColour_quantized hs hx hy forward_nil, alpha_quantized hs hx hy []⟩
  · obtain ⟨e, he, hcase⟩ := quantizerChecks_some hs
    exact ⟨e, exec_error he, hcase⟩

/-! ### Diffused errors -/

theorem chanOf_toNat (c : Colour) (ch : Nat) : (chanOf c ch).toNat = channel c ch := by
  unfold chanOf channel
  split_ifs <;> rfl

/-- A kernel that points forward gathers from earlier pixels only. -/
theorem source_lt_of_forward {t : Tap} {g : Geometry} {x y : Nat} (ht : 0 < t.dy ∨ (t.dy = 0 ∧ 0 < t.dx))
    (hx : x < g.w) (hy : y < g.h) (h : t.sourceInside g x y) : t.source g x y < g.idxAddr x y := by
  obtain ⟨hx0, hxw, hy0, hyh⟩ := h
  have hinside : t.inside g ((x : Int) - t.dx).toNat ((y : Int) - t.dy).toNat = true :=
    (Tap.inside_iff ..).mpr (by omega)
  have hlt := forward_target ht (by omega) hinside
  have hxt : ((((x : Int) - t.dx).toNat : Int) + t.dx).toNat = x := by omega
  have hyt : ((((y : Int) - t.dy).toNat : Int) + t.dy).toNat = y := by omega
  rwa [hxt, hyt] at hlt

/-- The value of a channel that the step of its pixel finds. -/
def oldChannel (kernel : List Tap) (s : State) (x y ch : Nat) : Nat :=
  channel (passOld rounding kernel s (s.geometry.idxAddr x y)) ch

/-- The error of a channel in a pass: its old value minus that of the palette entry of its index (rule R96). -/
theorem scanError_eq {kernel : List Tap} {s : State} (hs : quantizerReady s) {x y : Nat} (hx : x < s.width.toNat)
    (hy : y < s.height.toNat) (ch : Nat) :
    scanError kernel s.palette s.geometry { work := copySource s, idx := s.idx } ch (s.geometry.idxAddr x y)
      = (oldChannel kernel s x y ch : Int) - channel (palRead s.pal (pixelIndex (quantized kernel s) x y)) ch := by
  rw [← paletteAt_palette s (pixelIndex_quantized_lt hs hx hy kernel), pixelIndex_quantized hs hx hy kernel, oldChannel,
    ← chanOf_toNat, ← chanOf_toNat]
  rfl

/-- The old value of a channel is its SRC value with the errors of the earlier pixels gathered in scan order: every pixel a
forward kernel gathers from is earlier, so the bound in `receivedShares` excludes none (rules R94 to R99). -/
theorem oldChannel_gathered {kernel : List Tap} (hk : forwardKernel kernel) (ho : orderedKernel kernel) {s : State}
    (hs : quantizerReady s) {x y ch : Nat} (hx : x < s.width.toNat) (hy : y < s.height.toNat) (hch : ch < 3) :
    oldChannel kernel s x y ch = gathered kernel.reverse s
      (fun x' y' => (oldChannel kernel s x' y' ch : Int)
        - channel (palRead s.pal (pixelIndex (quantized kernel s) x' y')) ch)
      x y (srcRead s.src (pixelAddress s x y ch)).toNat := by
  have hc := legal_c (legal_of_ready hs)
  have hcopy : workRead (copySource s) (s.geometry.pixAddr x y ch) = srcRead s.src (pixelAddress s x y ch) :=
    copySource_inside s (byte_lt (pixel_lt hx hy) (by omega))
  rw [oldChannel, ← chanOf_toNat, passOld, chanOf_colourAt _ _ hch, ← pixAddr_eq,
    scanTo_received ho hc _ hx hy hch (le_refl _), hcopy, receivedShares, gathered]
  refine List.foldl_ext _ _ _ (fun v t ht => ?_)
  by_cases hin : t.sourceInside s.geometry x y
  · have hlt := source_lt_of_forward (hk t (List.mem_reverse.mp ht)) (g := s.geometry) hx hy hin
    have ⟨hx0, hxw, hy0, hyh⟩ := hin
    have hsx : ((x : Int) - t.dx).toNat < s.geometry.w := by omega
    have hsy : ((y : Int) - t.dy).toNat < s.geometry.h := by omega
    have hshare := congrArg (diffuse v · t.num t.den) (scanError_eq (kernel := kernel) hs hsx hsy ch)
    exact (if_pos ⟨hin, hlt⟩).trans (hshare.trans (if_pos hin).symm)
  · exact (if_neg (fun h => hin h.1)).trans (if_neg hin).symm

theorem quantized_diffusedBy {kernel : List Tap} (hk : forwardKernel kernel) (ho : orderedKernel kernel) {s : State}
    (hs : quantizerReady s) : diffusedBy kernel s (quantized kernel s) :=
  ⟨oldChannel kernel s, fun _ _ hx hy => ⟨⟨_, fun _ _ => rfl, pixelIndex_quantized hs hx hy kernel⟩,
    pixelIndex_quantized_lt hs hx hy kernel, workColour_quantized hs hx hy hk,
    fun _ hch => oldChannel_gathered hk ho hs hx hy hch⟩⟩

/-- Settles O36: the Floyd-Steinberg rows point forward and stand in scan order. -/
theorem qfsDiffusesByFloydSteinberg : Obligations.QfsDiffusesByFloydSteinberg := by
  unfold Obligations.QfsDiffusesByFloydSteinberg
  exact fun s hs => ⟨_, exec_quantized (.inr (.inl ⟨rfl, rfl⟩)) hs, quantized_frame hs _,
    quantized_diffusedBy forward_floydSteinberg ordered_floydSteinberg hs⟩

/-- Settles O37: the Atkinson rows point forward and stand in scan order. -/
theorem qatkDiffusesByAtkinson : Obligations.QatkDiffusesByAtkinson := by
  unfold Obligations.QatkDiffusesByAtkinson
  exact fun s hs => ⟨_, exec_quantized (.inr (.inr ⟨rfl, rfl⟩)) hs, quantized_frame hs _,
    quantized_diffusedBy forward_atkinson ordered_atkinson hs⟩

/-! ### Sources made of palette colours -/

/-- Every SRC pixel is a palette colour. -/
def sourceInPalette (s : State) : Prop :=
  ∀ n, n < s.geometry.pixels → colourAt (srcRead s.src) (n * s.geometry.c) ∈ s.palette

/-- `DIFFUSE_ROUND` leaves a value alone when there is no error, for the weights of a kernel (rule R107). -/
def keepsZeroError (R : Config.Rounding) (kernel : List Tap) : Prop :=
  ∀ t ∈ kernel, ∀ v, v ≤ 255 → R.diffuse v 0 t.num t.den = v

theorem keepsZeroError_nil (R : Config.Rounding) : keepsZeroError R [] := nofun

theorem keepsZeroError_rounding {kernel : List Tap} (hd : ∀ t ∈ kernel, 0 < t.den) : keepsZeroError rounding kernel :=
  fun t ht _ hv => diffuse_zero hv (hd t ht)

/-- A pass over palette colours leaves what the pass with the empty kernel leaves (rule R107). -/
theorem quantizePass_zeroError_eq_nil {R R' : Config.Rounding} {kernel : List Tap} {s : State}
    (hl : s.geometry.legal = true) (hR : keepsZeroError R kernel) (hp : sourceInPalette s) (a : Nat) :
    workRead (quantizePass R kernel s).work a = workRead (quantizePass R' [] s).work a
      ∧ idxRead (quantizePass R kernel s).idx a = idxRead (quantizePass R' [] s).idx a := by
  constructor
  · rw [quantizePass_zeroError hl hR hp, quantizePass_zeroError hl (keepsZeroError_nil R') hp]
  · apply idxRead_congr
    by_cases ha : a < s.geometry.pixels
    · rw [quantizePass_index hl ha, quantizePass_index hl ha, passOld_zeroError hl hR hp ha, passOld_nil R' hl ha]
    · rw [quantizePass_idx_outside hl (not_lt.mp ha), quantizePass_idx_outside hl (not_lt.mp ha)]

theorem sourceInPalette_of_srcColour {s : State} (h : ∀ x y, x < s.width.toNat → y < s.height.toNat →
    ∃ k, k < s.palLen.toNat ∧ palRead s.pal k = srcColour s x y) : sourceInPalette s := by
  intro n hn
  obtain ⟨k, hk, hcolour⟩ := h _ _ (pixel_mod_lt hn) (pixel_div_lt hn)
  rw [← srcColour_pixel, ← hcolour]
  exact mem_palette hk

/-- Settles O41: over palette colours every pass leaves the bytes of the pass with the empty kernel. -/
theorem zeroErrorGivesTheBytesOfQnone : Obligations.ZeroErrorGivesTheBytesOfQnone := by
  unfold Obligations.ZeroErrorGivesTheBytesOfQnone
  intro s hs hcolours
  have hl := legal_of_ready hs
  have hp := sourceInPalette_of_srcColour hcolours
  have hfs : keepsZeroError rounding floydSteinbergKernel := keepsZeroError_rounding (by decide)
  have hatk : keepsZeroError rounding atkinsonKernel := keepsZeroError_rounding (by decide)
  refine ⟨⟨_, _, _, exec_quantized (.inl ⟨rfl, rfl⟩) hs, exec_quantized (.inr (.inl ⟨rfl, rfl⟩)) hs,
    exec_quantized (.inr (.inr ⟨rfl, rfl⟩)) hs, fun a => ?_⟩, fun R kernel hR hd a => ?_⟩
  · obtain ⟨hworkF, hidxF⟩ := quantizePass_zeroError_eq_nil (R' := rounding) hl hfs hp a
    obtain ⟨hworkA, hidxA⟩ := quantizePass_zeroError_eq_nil (R' := rounding) hl hatk hp a
    exact ⟨hworkF, hworkA, hidxF, hidxA⟩
  · exact quantizePass_zeroError_eq_nil hl (fun t ht v hv => hR v t.num t.den hv (hd t ht)) hp a

/-! ### A raster quantized twice -/

/-- When the SRC raster holds the result of QNONE, every pixel is the palette colour chosen for it. -/
theorem srcPixel_of_quantized {s r : State} (hs : quantizerReady s) (hg : r.geometry = s.geometry)
    (hsrc : ∀ a, a < rasterSize s → srcRead r.src a = workRead (quantized [] s).work a) {n : Nat}
    (hn : n < s.geometry.pixels) : colourAt (srcRead r.src) (n * r.geometry.c)
      = paletteAt s.palette (nearest s.palette (passOld rounding [] s n)) := by
  have hl := legal_of_ready hs
  rw [hg, ← quantizePass_colour forward_nil hl hn]
  exact colourAt_congr (fun i hi => hsrc _ (byte_lt hn (by have := legal_c hl; omega)))

/-- Settles O40: the second source is made of palette colours, so the pass leaves its bytes, and the nearest entry to a
chosen colour is the entry it was chosen from. -/
theorem qnoneIsIdempotent : Obligations.QnoneIsIdempotent := by
  unfold Obligations.QnoneIsIdempotent
  intro s t r hs ht hr hsrc
  have hl := legal_of_ready hs
  obtain rfl : quantized [] s = t := Host.Outcome.next.inj ((exec_quantized (.inl ⟨rfl, rfl⟩) hs).symm.trans ht)
  have hg : r.geometry = s.geometry := hr ▸ rfl
  have hpal : r.palette = s.palette := hr ▸ rfl
  have hready : quantizerReady r := hr ▸ hs
  have hlr := legal_of_ready hready
  have hpixel {n : Nat} (hn : n < s.geometry.pixels) := srcPixel_of_quantized hs hg hsrc hn
  have hp : sourceInPalette r := by
    intro n hn
    rw [hg] at hn
    rw [hpixel hn, hpal, paletteAt_palette s (nearest_palette_lt hs.2.2.2 _)]
    exact mem_palette (nearest_palette_lt hs.2.2.2 _)
  refine ⟨_, exec_quantized (.inl ⟨rfl, rfl⟩) hready, fun a ha => ?_, fun n hn => idxRead_congr ?_⟩
  · have hcopy := copySource_inside r (a := a) (hg ▸ ha)
    exact (quantizePass_zeroError hlr (keepsZeroError_nil rounding) hp a).trans (hcopy.trans (hsrc a ha))
  · have hnr : n < r.geometry.pixels := hg ▸ hn
    refine (quantizePass_index hlr hnr).trans (Eq.trans ?_ (quantizePass_index hl hn).symm)
    rw [passOld_nil rounding hlr hnr, hpixel hn, hpal, nearest_paletteAt_nearest (palette_ne_nil_of_ready hs)]

/-! ### QPASS -/

theorem passChecks_none_iff (s : State) :
    firstFailure (passChecks s) = none ↔ legalGeometry s ∧ s.srcLen.toNat = rasterSize s := by
  rw [passChecks_none, legal_iff_legalGeometry]
  exact Iff.rfl

theorem passChecks_some {s : State} (h : ¬ (legalGeometry s ∧ s.srcLen.toNat = rasterSize s)) :
    ∃ e, firstFailure (passChecks s) = some e ∧ (e = .parameterOutOfRange ∨ e = .invalidRasterSize) := by
  by_cases hl : s.geometry.legal = true
  · exact ⟨_, passChecks_size hl (fun hsize => h ⟨(legal_iff_legalGeometry s).mp hl, hsize⟩), .inr rfl⟩
  · exact ⟨_, passChecks_range hl, .inl rfl⟩

theorem exec_qpass {s : State} (hl : legalGeometry s) (hsize : s.srcLen.toNat = rasterSize s) :
    exec .qpass s = .next ((s.setPassed (copySource s)).setPhase .done) :=
  exec_done ((passChecks_none_iff s).mpr ⟨hl, hsize⟩)

/-- Settles O39, by the bytes of the copy inside and above the raster. -/
theorem qpassCopiesTheSource : Obligations.QpassCopiesTheSource := by
  unfold Obligations.QpassCopiesTheSource
  refine fun s => ⟨fun hl hsize => ⟨_, exec_qpass hl hsize, rfl, fun _ ha => copySource_inside s ha,
    fun _ ha => copySource_outside s ha⟩, fun h => ?_⟩
  obtain ⟨e, he, hcase⟩ := passChecks_some h
  exact ⟨e, exec_error he, hcase⟩

end Sys2Proof.Machine

/-! ### Two sources with the same pixels

An encoder command reads its source in one check and in the pixels' indices or colours; two sources that pass the check and
have the same pixels are the same command (rules R104, R127). -/

namespace Sys2Proof.Machine

open Sys2Proof.Claims

section Sources

variable {bpp : Nat} {p q : PixelSource} {s : State}

theorem firstFailure_encoderChecks_congr (hp : ¬ (bpp = 24 ∧ p = .idx)) (hq : ¬ (bpp = 24 ∧ q = .idx))
    (hps : (sourceCheck p s).1 = true) (hqs : (sourceCheck q s).1 = true) :
    firstFailure (encoderChecks bpp p s) = firstFailure (encoderChecks bpp q s) := by
  simp only [encoderChecks, firstFailure, (legalEncoding_iff bpp p).mpr hp, (legalEncoding_iff bpp q).mpr hq, hps, hqs, if_true]

theorem encoderCommand_congr (hp : ¬ (bpp = 24 ∧ p = .idx)) (hq : ¬ (bpp = 24 ∧ q = .idx))
    (hps : (sourceCheck p s).1 = true) (hqs : (sourceCheck q s).1 = true)
    (hfile : bmpFile bpp p s = bmpFile bpp q s) : encoderCommand bpp p s = encoderCommand bpp q s := by
  unfold encoderCommand runCommand encodeEffect
  rw [firstFailure_encoderChecks_congr hp hq hps hqs, hfile]

theorem bmpFile_source_congr
    (hi : bpp < 24 → ∀ x y, x < s.geometry.w → y < s.geometry.h → indexOf p s x y = indexOf q s x y)
    (hc : 24 ≤ bpp → ∀ x y, x < s.geometry.w → y < s.geometry.h → rgbOf p s x y = rgbOf q s x y)
    (hb : bpp = 1 ∨ bpp = 2 ∨ bpp = 4 ∨ bpp = 8 ∨ bpp = 24) : bmpFile bpp p s = bmpFile bpp q s :=
  bmpFile_congr rfl rfl rfl (fun _ => ⟨rfl, fun _ _ => rfl⟩) hi hc hb

end Sources

/-! ### WORK and IDX -/

/-- An indexed pixel has the same index in WORK as in IDX: it is the nearest to the colour WORK holds (rules R93, R105). -/
theorem indexOf_work_eq_idx {s : State} {x y : Nat} (h : indexedPixel s (s.geometry.idxAddr x y)) :
    indexOf .work s x y = indexOf .idx s x y := by
  obtain ⟨k, hk, -, hcolour, hnearest⟩ := h
  calc indexOf .work s x y
      = nearest s.palette (colourAt (workRead s.work) (s.geometry.idxAddr x y * s.geometry.c)) := rfl
    _ = k.toNat := by rw [hcolour, hnearest]
    _ = indexOf .idx s x y := congrArg BitVec.toNat (Memory.read_of_lookup _ hk).symm

theorem encoderCommand_work_eq_idx {s : State} (h : Inv s) (hv : s.idxValid = true) {bpp : Nat}
    (hb : bpp = 1 ∨ bpp = 2 ∨ bpp = 4 ∨ bpp = 8) : encoderCommand bpp .work s = encoderCommand bpp .idx s := by
  obtain ⟨hwork, -, -, hpixels, -⟩ := h.idxWindow hv
  refine encoderCommand_congr (by omega) (by omega) hwork hv (bmpFile_source_congr (fun _ x y hx hy => ?_)
    (fun h24 => absurd h24 (by omega)) (by omega))
  exact indexOf_work_eq_idx (hpixels _ (pixel_lt hx hy))

/-- Settles O51, by the index of every pixel of a state that meets the invariant. -/
theorem encodingWorkEqualsEncodingIndices : Obligations.EncodingWorkEqualsEncodingIndices := by
  unfold Obligations.EncodingWorkEqualsEncodingIndices
  exact fun s h hv => ⟨encoderCommand_work_eq_idx h hv (.inl rfl), encoderCommand_work_eq_idx h hv (.inr (.inl rfl)),
    encoderCommand_work_eq_idx h hv (.inr (.inr (.inl rfl))), encoderCommand_work_eq_idx h hv (.inr (.inr (.inr rfl)))⟩

/-! ### WORK and SRC after QPASS -/

/-- Two rasters with the same bytes have the same colours. -/
theorem rgbOf_work_eq_src {s : State} (hl : s.geometry.legal = true)
    (hbytes : ∀ a, a < s.geometry.rasterBytes → workRead s.work a = srcRead s.src a) {x y : Nat} (hx : x < s.geometry.w)
    (hy : y < s.geometry.h) : rgbOf .work s x y = rgbOf .src s x y := by
  have hc := legal_c hl
  exact colourAt_congr (fun i hi => hbytes _ (byte_lt (pixel_lt hx hy) (by omega)))

theorem encoderCommand_work_eq_src {s : State} (hl : s.geometry.legal = true) (hsize : s.srcLen.toNat = s.geometry.rasterBytes)
    (hv : s.workValid = true) (hbytes : ∀ a, a < s.geometry.rasterBytes → workRead s.work a = srcRead s.src a) {bpp : Nat}
    (hb : bpp = 1 ∨ bpp = 2 ∨ bpp = 4 ∨ bpp = 8 ∨ bpp = 24) : encoderCommand bpp .work s = encoderCommand bpp .src s := by
  have hcolour {x y : Nat} (hx : x < s.geometry.w) (hy : y < s.geometry.h) := rgbOf_work_eq_src hl hbytes hx hy
  exact encoderCommand_congr nofun nofun hv (decide_eq_true hsize) (bmpFile_source_congr
    (fun _ _ _ hx hy => congrArg (nearest s.palette) (hcolour hx hy)) (fun _ _ _ hx hy => hcolour hx hy) hb)

/-- Settles O52: after QPASS the two rasters hold the same bytes and both pass the source check. -/
theorem passThroughEncodesTheSource : Obligations.PassThroughEncodesTheSource := by
  unfold Obligations.PassThroughEncodesTheSource
  intro s t hl hsize ht
  obtain rfl : (s.setPassed (copySource s)).setPhase .done = t := Host.Outcome.next.inj ((exec_qpass hl hsize).symm.trans ht)
  have hsame {bpp : Nat} := encoderCommand_work_eq_src (s := (s.setPassed (copySource s)).setPhase .done) (bpp := bpp)
    ((legal_iff_legalGeometry s).mpr hl) hsize rfl (fun _ ha => copySource_inside s ha)
  exact ⟨hsame (.inl rfl), hsame (.inr (.inl rfl)), hsame (.inr (.inr (.inl rfl))), hsame (.inr (.inr (.inr (.inl rfl)))),
    hsame (.inr (.inr (.inr (.inr rfl))))⟩

end Sys2Proof.Machine

/-! ### The file of an encoder command, as it stands in OUT

Every encoder command whose checks pass ends in one state: the whole file in OUT, its size in OUT_LEN. What the statements
say of that file is read off it here, the frame and the header fields first, then a stored row for each packing (rules R122 to
R137). -/

namespace Sys2Proof.Machine

open Sys2Proof.Claims

/-- The state in which an encoder command whose checks pass ends (`exec_encoder`). -/
def encoded (bpp : Nat) (p : PixelSource) (s : State) : State := (encodeEffect bpp p s).setPhase .done

/-! ### The numbers of rule R122 -/

theorem pixelOffset_eq_offOf (bpp : Nat) : pixelOffset bpp = offOf bpp := by
  unfold pixelOffset tableBytes offOf
  split <;> rfl

theorem fileBytes_eq_fileSize (s : State) (bpp : Nat) : fileBytes s.geometry bpp = fileSize s bpp :=
  congrArg (· + imgOf s bpp) (pixelOffset_eq_offOf bpp)

theorem depth_of_encoderReady {bpp : Nat} {p : PixelSource} {s : State} (hs : encoderReady bpp p s) :
    bpp = 1 ∨ bpp = 2 ∨ bpp = 4 ∨ bpp = 8 ∨ bpp = 24 :=
  depth_cases ((State.depthEnabled_iff s bpp).mpr hs.2.1)

theorem legal_of_encoderReady {bpp : Nat} {p : PixelSource} {s : State} (hs : encoderReady bpp p s) :
    s.geometry.legal = true := by
  obtain ⟨-, -, -, hlegal, -⟩ := hs
  exact (legal_iff_legalGeometry s).mpr hlegal

theorem fileSize_lt {bpp : Nat} {p : PixelSource} {s : State} (hs : encoderReady bpp p s) : fileSize s bpp < 2 ^ 32 := by
  rw [← fileBytes_eq_fileSize]
  exact (fileBytes_le (legal_of_encoderReady hs) (depth_of_encoderReady hs)).trans_lt (by decide)

/-! ### The frame -/

theorem encodedFrame_encoded {bpp : Nat} {p : PixelSource} {s : State} (hs : encoderReady bpp p s) :
    encodedFrame bpp s (encoded bpp p s) := by
  refine ⟨rfl, ?_, fun a ha => outRead_beyond ?_⟩
  · show (BitVec.ofNat 32 (fileBytes s.geometry bpp)).toNat = _
    rw [fileBytes_eq_fileSize, BitVec.toNat_ofNat, Nat.mod_eq_of_lt (fileSize_lt hs)]
  · rwa [bmpFile_length, fileBytes_eq_fileSize]

/-! ### The header fields -/

theorem heightField_toNat {s : State} (h : s.geometry.legal = true) :
    (heightField s).toNat = if s.cfg.getLsbD 0 = true then 2 ^ 32 - s.height.toNat else s.height.toNat := by
  obtain ⟨-, -, hpos, hle, -⟩ := (legal_iff_legalGeometry s).mp h
  have hword : BitVec.ofNat 32 s.geometry.h = s.height := (BitVec.ofNat_toNat 32 s.height).trans (BitVec.setWidth_eq _)
  unfold heightField State.topDown
  rw [hword]
  split
  · rw [BitVec.toNat_neg]
    omega
  · rfl

section HeaderFields

variable {bpp : Nat} (p : PixelSource) {s : State} {a : Nat}

theorem outLong_encoded {v : Word} (ha : a + 3 < 54) (h : headerField bpp s a 4 = le32 v) :
    outLong (encoded bpp p s) a = v.toNat := outRead_header32 (m := s.out) (p := p) ha h

theorem outHalf_encoded {v : BitVec 16} (ha : a + 1 < 54) (h : headerField bpp s a 2 = le16 v) :
    outHalf (encoded bpp p s) a = v.toNat := outRead_header16 (m := s.out) (p := p) ha h

/-- A 32-bit header field given as a number. -/
theorem outLong_encoded_ofNat {n : Nat} (ha : a + 3 < 54) (h : headerField bpp s a 4 = le32 (BitVec.ofNat 32 n))
    (hn : n < 2 ^ 32) : outLong (encoded bpp p s) a = n := by
  rw [outLong_encoded p ha h, BitVec.toNat_ofNat, Nat.mod_eq_of_lt hn]

/-- Byte `i` of a header field. -/
theorem outNumber_encoded {n i : Nat} {v : Byte} (ha : a + i < 54) (h : (headerField bpp s a n)[i]? = some v) :
    outNumber (encoded bpp p s) (a + i) = v.toNat := congrArg BitVec.toNat (outRead_header (m := s.out) (p := p) ha h)

theorem outNumber_magic : outNumber (encoded bpp p s) 0 = 0x42 ∧ outNumber (encoded bpp p s) 1 = 0x4D :=
  ⟨outNumber_encoded p (a := 0) (i := 0) (v := 0x42) (by decide) (congrArg (·[0]?) (header_magic bpp s)),
    outNumber_encoded p (a := 0) (i := 1) (v := 0x4D) (by decide) (congrArg (·[1]?) (header_magic bpp s))⟩

end HeaderFields

theorem coloursUsed_lt (bpp : Nat) (s : State) : coloursUsed bpp s < 2 ^ 32 := by
  unfold coloursUsed
  split
  · exact s.palLen.isLt
  · decide

/-- Settles O43, field by field from the layout of the two headers. -/
theorem encoderWritesTheHeaders : Obligations.EncoderWritesTheHeaders := by
  unfold Obligations.EncoderWritesTheHeaders
  intro i bpp p s hi hs
  have hsize := fileSize_lt hs
  have hoff : offOf bpp < 2 ^ 32 := (Nat.le_add_right _ _).trans_lt hsize
  have himg : imgOf s bpp < 2 ^ 32 := (Nat.le_add_left _ _).trans_lt hsize
  have hdepth : bpp < 2 ^ 16 := by rcases depth_of_encoderReady hs with rfl | rfl | rfl | rfl | rfl <;> decide
  obtain ⟨hB, hM⟩ := outNumber_magic (bpp := bpp) p (s := s)
  refine ⟨encoded bpp p s, exec_encoder hi hs, encodedFrame_encoded hs, hB, hM, ?_, ?_, ?_, ?_, ?_, ?_, ?_, ?_, ?_, ?_, ?_, ?_,
    ?_, ?_⟩
  · exact outLong_encoded_ofNat p (by decide) (fileBytes_eq_fileSize s bpp ▸ header_fileSize bpp s) hsize
  · exact outLong_encoded p (by decide) (header_reserved bpp s)
  · exact outLong_encoded_ofNat p (by decide) (pixelOffset_eq_offOf bpp ▸ header_offset bpp s) hoff
  · exact outLong_encoded p (by decide) (header_infoSize bpp s)
  · exact outLong_encoded_ofNat p (by decide) (header_width bpp s) s.width.isLt
  · exact (outLong_encoded p (by decide) (header_height bpp s)).trans (heightField_toNat (legal_of_encoderReady hs))
  · exact outHalf_encoded p (by decide) (header_planes bpp s)
  · rw [outHalf_encoded p (by decide) (header_depth bpp s), BitVec.toNat_ofNat, Nat.mod_eq_of_lt hdepth]
  · exact outLong_encoded p (by decide) (header_compression bpp s)
  · exact outLong_encoded_ofNat p (by decide) (header_imageSize bpp s) himg
  · exact outLong_encoded p (by decide) (header_xResolution bpp s)
  · exact outLong_encoded p (by decide) (header_yResolution bpp s)
  · exact outLong_encoded_ofNat p (by decide) (header_coloursUsed bpp s) (coloursUsed_lt bpp s)
  · exact outLong_encoded_ofNat p (by decide) (header_coloursImportant bpp s) (coloursUsed_lt bpp s)

/-! ### The pixels -/

theorem indexOf_eq_indexAt (p : PixelSource) (s : State) (x y : Nat) : indexOf p s x y = indexAt p s x y := by
  cases p <;> rfl

theorem rgbOf_eq_rgbAt {p : PixelSource} (hp : p ≠ .idx) (s : State) (x y : Nat) : rgbOf p s x y = rgbAt p s x y := by
  cases p with
  | src => rfl
  | work => rfl
  | idx => exact absurd rfl hp

theorem rowOf_eq_imageRow (s : State) (r : Nat) : rowOf s r = imageRow s r := rfl

/-- Every index an encoder command packs is below N (rules R93, R127). -/
theorem indexOf_lt_palLen {p : PixelSource} {s : State} (hpal : 1 ≤ s.palLen.toNat) (hidx : indicesInRange p s) {x y : Nat}
    (hx : x < s.width.toNat) (hy : y < s.height.toNat) : indexOf p s x y < s.palLen.toNat := by
  cases p with
  | src => exact nearest_palette_lt hpal _
  | work => exact nearest_palette_lt hpal _
  | idx => exact hidx rfl _ (pixel_lt hx hy)

/-! ### The rows of the indexed depths -/

section IndexedRows

variable {bpp : Nat} {p : PixelSource} {s : State} {r : Nat}

theorem indexOf_lt_two_pow (hs : encoderReady bpp p s) (hidx : indicesInRange p s) (hb : bpp < 24)
    (hr : r < s.height.toNat) {x : Nat} (hx : x < s.width.toNat) : indexOf p s x (rowOf s r) < 2 ^ bpp := by
  obtain ⟨-, -, hpal, -, -⟩ := hs
  obtain ⟨hpos, hle⟩ := hpal hb
  exact (indexOf_lt_palLen hpos hidx hx (rowOf_lt hr)).trans_le hle

theorem outNumber_row {j : Nat} (hr : r < s.height.toNat) (hj : j < strideOf s bpp) :
    outNumber (encoded bpp p s) (offOf bpp + r * strideOf s bpp + j) = rowByte (storedRow bpp p s r) j := by
  rw [← pixelOffset_eq_offOf]
  exact outRead_row hr hj

/-- A stored row has room for its pixels, `per` to a byte (rule R122). -/
theorem width_le_stride {per : Nat} (hb : bpp * per = 8) : s.width.toNat ≤ per * strideOf s bpp := by
  have hbits : bpp * s.width.toNat ≤ bpp * (per * strideOf s bpp) := by
    rw [← Nat.mul_assoc, hb, Nat.mul_comm bpp]
    exact stride_covers _ _
  exact Nat.le_of_mul_le_mul_left hbits (Nat.pos_of_ne_zero (by rintro rfl; omega))

/-- The fields of a stored row whose packing is `b = bpp` bits for each of `per` pixels to a byte, the first pixel in the
highest bits (rules R129 to R131). -/
theorem packed_row {per : Nat} {sh : Nat → Nat} (hs : encoderReady bpp p s) (hidx : indicesInRange p s) (hb : bpp * per = 8)
    (hbpp : bpp < 24) (hsh : ∀ x, sh x = 8 - bpp - bpp * (x % per))
    (hrow : storedRow bpp p s r = forRange s.width.toNat
      (fun x row => orInto (x / per) (indexOf p s x (rowOf s r) <<< sh x) row) (List.replicate (strideOf s bpp) 0))
    (hr : r < s.height.toNat) {x : Nat} (hx : x < per * strideOf s bpp) :
    outNumber (encoded bpp p s) (offOf bpp + r * strideOf s bpp + x / per) / 2 ^ sh x % 2 ^ bpp
      = if x < s.width.toNat then indexAt p s x (imageRow s r) else 0 := by
  rw [outNumber_row hr (Nat.div_lt_of_lt_mul hx), hrow,
    packed_fields hb hsh (fun x hx => indexOf_lt_two_pow hs hidx hbpp hr hx)
      (by rw [List.length_replicate]; exact width_le_stride hb)
      (rowByte_zeros _), indexOf_eq_indexAt, rowOf_eq_imageRow]

end IndexedRows

/-- Settles O45: eight fields of one bit to a byte. -/
theorem enc1PacksEightPixelsPerByte : Obligations.Enc1PacksEightPixelsPerByte := by
  unfold Obligations.Enc1PacksEightPixelsPerByte
  intro p s hs hidx
  refine ⟨encoded 1 p s, exec_encoder (.inl ⟨rfl, rfl⟩) hs, encodedFrame_encoded hs, fun r x hr hx => ?_⟩
  exact packed_row (per := 8) (sh := fun x => 7 - x % 8) hs hidx rfl (by decide) (by omega) rfl hr hx

/-- Settles O46: four fields of two bits to a byte. -/
theorem enc2PacksFourPixelsPerByte : Obligations.Enc2PacksFourPixelsPerByte := by
  unfold Obligations.Enc2PacksFourPixelsPerByte
  intro p s hs hidx
  refine ⟨encoded 2 p s, exec_encoder (.inr (.inl ⟨rfl, rfl⟩)) hs, encodedFrame_encoded hs, fun r x hr hx => ?_⟩
  exact packed_row (per := 4) (sh := fun x => 6 - 2 * (x % 4)) hs hidx rfl (by decide) (fun _ => rfl) rfl hr hx

/-- Settles O47: two fields of four bits to a byte. -/
theorem enc4PacksTwoPixelsPerByte : Obligations.Enc4PacksTwoPixelsPerByte := by
  unfold Obligations.Enc4PacksTwoPixelsPerByte
  intro p s hs hidx
  refine ⟨encoded 4 p s, exec_encoder (.inr (.inr (.inl ⟨rfl, rfl⟩))) hs, encodedFrame_encoded hs, fun r x hr hx => ?_⟩
  exact packed_row (per := 2) (sh := fun x => 4 - 4 * (x % 2)) hs hidx rfl (by decide) (fun _ => rfl) rfl hr hx

/-- Settles O48: a field of eight bits is a whole byte. -/
theorem enc8StoresOneIndexPerByte : Obligations.Enc8StoresOneIndexPerByte := by
  unfold Obligations.Enc8StoresOneIndexPerByte
  intro p s hs hidx
  refine ⟨encoded 8 p s, exec_encoder (.inr (.inr (.inr (.inl ⟨rfl, rfl⟩)))) hs, encodedFrame_encoded hs,
    fun r x hr hx => ?_⟩
  have hcover : s.width.toNat ≤ (List.replicate (strideOf s 8) (0 : Byte)).length := by
    rw [List.length_replicate, ← Nat.one_mul (strideOf s 8)]
    exact width_le_stride rfl
  calc outNumber (encoded 8 p s) (offOf 8 + r * strideOf s 8 + x)
      = rowByte (storedRow 8 p s r) x := outNumber_row hr hx
    _ = if x < s.width.toNat then indexOf p s x (rowOf s r) else 0 :=
        packed_bytes hcover (fun _ hx => indexOf_lt_two_pow hs hidx (by decide) hr hx) (rowByte_zeros _) x
    _ = if x < s.width.toNat then indexAt p s x (imageRow s r) else 0 := by rw [indexOf_eq_indexAt, rowOf_eq_imageRow]

/-! ### The rows of true colour -/

theorem outRead_storedRow {bpp : Nat} {p : PixelSource} {s : State} {r j : Nat} {v : Byte} (hr : r < s.height.toNat)
    (hj : j < strideOf s bpp) (h : (storedRow bpp p s r)[j]? = some v) :
    outRead (encoded bpp p s).out (offOf bpp + r * strideOf s bpp + j) = v := by
  rw [← pixelOffset_eq_offOf]
  exact outRead_file ((bmpFile_row hr hj).trans h)

/-- Settles O49, by the triples of a stored row and the zeros they leave. -/
theorem enc24StoresBlueGreenRed : Obligations.Enc24StoresBlueGreenRed := by
  unfold Obligations.Enc24StoresBlueGreenRed
  intro p s hs
  have hp : p ≠ .idx := fun hp => hs.1 ⟨rfl, hp⟩
  have hcover : 3 * s.width.toNat ≤ strideOf s 24 := by
    have := stride_covers s.width.toNat 24
    show _ ≤ strideBytes s.width.toNat 24
    omega
  refine ⟨encoded 24 p s, exec_encoder (.inr (.inr (.inr (.inr ⟨rfl, rfl⟩)))) hs, encodedFrame_encoded hs, fun r hr => ?_⟩
  obtain ⟨htriples, hpadding⟩ := packed_triples (n := s.width.toNat) (f := fun x => rgbOf p s x (rowOf s r))
    (row := List.replicate (strideOf s 24) 0) (by rwa [List.length_replicate])
  refine ⟨fun x hx => ?_, fun j hj hlt => ?_⟩
  · obtain ⟨hblue, hgreen, hred⟩ := htriples x hx
    rw [← rowOf_eq_imageRow, ← rgbOf_eq_rgbAt hp]
    exact ⟨outRead_storedRow (bpp := 24) (j := 3 * x) hr (by omega) hblue,
      outRead_storedRow (bpp := 24) (j := 3 * x + 1) hr (by omega) hgreen,
      outRead_storedRow (bpp := 24) (j := 3 * x + 2) hr (by omega) hred⟩
  · exact outRead_storedRow (bpp := 24) hr hlt ((hpadding j hj).trans (by rw [List.getElem?_replicate, if_pos hlt]))

/-! ### Unsupported depths -/

/-- Settles O50: the depth is the first check that can fail. -/
theorem unsupportedDepthIsRefusedFirst : Obligations.UnsupportedDepthIsRefusedFirst := by
  unfold Obligations.UnsupportedDepthIsRefusedFirst
  constructor
  · intro bpp p s h1 h2 h4 h8 h24
    have hd : ¬ s.depthEnabled bpp.toNat = true := fun h => by
      rcases depth_cases h with h | h | h | h | h <;> contradiction
    exact exec_error (i := .enc bpp p) (encoderChecks_depth (fun h => h24 h.1) hd)
  · intro i bpp p s hi hidx hd
    exact exec_error ((congrArg _ (isEncoder_checks hi s)).trans
      (encoderChecks_depth hidx (fun h => hd ((State.depthEnabled_iff s bpp).mp h))))

/-! ### What a file depends on -/

section SameInputs

variable {bpp : Nat} {p : PixelSource} {s s' : State}

/-- A colour is read from three bytes of the raster. -/
theorem rgbOf_congr (hg : s.geometry = s'.geometry) (hl : s.geometry.legal = true)
    (hbytes : ∀ a, a < s.geometry.rasterBytes → sourceRead p s a = sourceRead p s' a) {x y : Nat}
    (hx : x < s.width.toNat) (hy : y < s.height.toNat) : rgbOf p s x y = rgbOf p s' x y := by
  have hc := legal_c hl
  unfold rgbOf
  rw [← hg]
  exact colourAt_congr (fun i hi => hbytes _ (byte_lt (pixel_lt hx hy) (by omega)))

theorem indexOf_eq_nearest (hp : p ≠ .idx) (x y : Nat) : indexOf p s x y = nearest s.palette (rgbOf p s x y) := by
  cases p with
  | src => rfl
  | work => rfl
  | idx => exact absurd rfl hp

end SameInputs

/-- Settles O53: the pixels' colours or indices agree, so the two files are one. -/
theorem fileDependsOnItsInputsOnly : Obligations.FileDependsOnItsInputsOnly := by
  unfold Obligations.FileDependsOnItsInputsOnly
  intro i bpp p s s' hi hs hs' ho hw hh hraster hindices hpal
  have hgw : s.geometry.w = s'.geometry.w := congrArg BitVec.toNat hw
  have hgh : s.geometry.h = s'.geometry.h := congrArg BitVec.toNat hh
  have hcolour (hp : p ≠ .idx) {x y : Nat} (hx : x < s.width.toNat) (hy : y < s.height.toNat) :
      rgbOf p s x y = rgbOf p s' x y := by
    obtain ⟨hc, hbytes⟩ := hraster hp
    refine rgbOf_congr ?_ (legal_of_encoderReady hs) hbytes hx hy
    simp only [State.geometry, hw, hh, hc]
  have hindex (hb : bpp < 24) {x y : Nat} (hx : x < s.width.toNat) (hy : y < s.height.toNat) :
      indexOf p s x y = indexOf p s' x y := by
    by_cases hp : p = .idx
    · subst hp
      have hread := hindices rfl _ (pixel_lt hx hy)
      show (idxRead s.idx (y * s.geometry.w + x)).toNat = (idxRead s'.idx (y * s'.geometry.w + x)).toNat
      rw [← hgw]
      exact congrArg BitVec.toNat hread
    · obtain ⟨hn, hentries⟩ := hpal hb
      rw [indexOf_eq_nearest hp, indexOf_eq_nearest hp, hcolour hp hx hy, palette_congr hn hentries]
  have hfile : bmpFile bpp p s = bmpFile bpp p s' := by
    refine bmpFile_congr hgw hgh ho (fun hb => ?_) (fun hb _ _ => hindex hb) (fun hb _ _ => hcolour ?_) (depth_of_encoderReady hs)
    · obtain ⟨hn, hentries⟩ := hpal hb
      exact ⟨congrArg BitVec.toNat hn, hentries⟩
    · rintro rfl
      exact hs.1 ⟨by have := depth_of_encoderReady hs; omega, rfl⟩
  refine ⟨encoded bpp p s, encoded bpp p s', exec_encoder hi hs, exec_encoder hi hs', ?_, fun a ha => ?_⟩
  · show BitVec.ofNat 32 (fileBytes s.geometry bpp) = BitVec.ofNat 32 (fileBytes s'.geometry bpp)
    rw [← bmpFile_length bpp p s, ← bmpFile_length bpp p s', hfile]
  · rw [← fileBytes_eq_fileSize] at ha
    exact (outRead_file (hfile ▸ file_bytes s.out ha)).symm

end Sys2Proof.Machine

/-! ### Errors

A command that ends in an error has done one thing: it has put the error of its first failing check into STATUS (rules R170 to
R172). -/

namespace Sys2Proof.Machine

open Sys2Proof.Claims

/-! ### Error entry -/

theorem outcomeIs_error {i : Instr} {s : State} {e : CmdError} (h : firstFailure (checksOf i s) = some e) :
    outcomeIs i s (.error e) :=
  ⟨_, exec_error h, rfl⟩

/-- A command that ends in ERROR: the error is that of its first failing check, and only the phase changes (rule R171). -/
theorem exec_error_cases {i : Instr} {s t : State} {e : CmdError} (h : exec i s = .next t) (ht : t.phase = .error e) :
    firstFailure (checksOf i s) = some e ∧ t = s.setPhase (.error e) := by
  rcases exec_cases h with ⟨e', hfail, rfl⟩ | ⟨-, rfl⟩
  · cases ht
    exact ⟨hfail, rfl⟩
  · cases ht

/-- STATE and ERR in the STATUS word of a block in ERROR (rules R13, R161). -/
theorem statusWord_fields_of_error {t : State} {e : CmdError} (h : t.phase = .error e) :
    (statusWord t).toNat % 4 = 3 ∧ (statusWord t).toNat / 16 % 16 = errorNumber e := by
  have hphase : phaseNumber t.phase = 3 + 16 * errorNumber e := by rw [h]; rfl
  have hcode : errorNumber e < 16 := errorCode_toNat e ▸ (errorCode e).isLt
  rw [statusWord_toNat, statusNumber]
  omega

/-- Settles O25, by the error case of a command and the fields of STATUS. -/
theorem errorEntryChangesStatusOnly : Obligations.ErrorEntryChangesStatusOnly := by
  unfold Obligations.ErrorEntryChangesStatusOnly
  intro i s t e h ht
  exact ⟨(exec_error_cases h ht).2, statusWord_fields_of_error ht⟩

/-- Settles O27: the failed command has changed the phase only, and no command looks at the phase. -/
theorem failedCommandLeavesNoTrace : Obligations.FailedCommandLeavesNoTrace := by
  unfold Obligations.FailedCommandLeavesNoTrace
  intro i j s t e h ht
  obtain ⟨-, rfl⟩ := exec_error_cases h ht
  exact ⟨(exec_setPhase i _ s).trans h, exec_setPhase j _ s⟩

/-! ### The first failing check, in the numbers of the statements -/

theorem completeCommand_illegalWord {w : Word} (h : illegalWord w) (s : State) :
    completeCommand w s = .next (s.setPhase (.error .illegalCommand)) := by
  obtain ⟨x, hx⟩ := (decode_error_iff w).mpr h
  exact completeCommand_error hx s

theorem outcomeIs_error_of_isDiffuser {i : Instr} {s : State} {e : CmdError} (hi : isDiffuser i)
    (h : firstFailure (quantizerChecks s) = some e) : outcomeIs i s (.error e) := by
  rcases hi with rfl | rfl | rfl <;> exact outcomeIs_error h

theorem outcomeIs_error_of_isEncoder {i : Instr} {bpp : Nat} {p : PixelSource} {s : State} {e : CmdError}
    (hi : isEncoder i bpp p) (h : firstFailure (encoderChecks bpp p s) = some e) : outcomeIs i s (.error e) :=
  outcomeIs_error ((congrArg _ (isEncoder_checks hi s)).trans h)

theorem depthEnabled_iff_depthOn (bpp : Nat) (s : State) : s.depthEnabled bpp = true ↔ depthOn bpp s :=
  State.depthEnabled_iff s bpp

theorem sourceCheck_iff_sourceReady (p : PixelSource) (s : State) : (sourceCheck p s).1 = true ↔ sourceReady p s :=
  sourceCheck_iff p s

/-- A well-formed `ENC` carries none of the five depths, so no enable bit is its own (rules R68, R135). -/
theorem outcomeIs_unsupported_of_wf {bpp : BitVec 24} {p : PixelSource} (hwf : Instr.wf (.enc bpp p) = true) (s : State) :
    outcomeIs (.enc bpp p) s (.error .unsupportedBitDepth) := by
  have hnamed : isNamedDepth bpp.toNat = false := (Bool.not_eq_true' _).mp hwf
  simp only [isNamedDepth, Bool.or_eq_false_iff, beq_eq_false_iff_ne] at hnamed
  obtain ⟨⟨⟨⟨h1, h2⟩, h4⟩, h8⟩, h24⟩ := hnamed
  exact ⟨_, unsupportedDepthIsRefusedFirst.1 bpp p s h1 h2 h4 h8 h24, rfl⟩

/-- Settles O26: each clause is the first failing check of its command's list. -/
theorem firstFailingCheckIsReported : Obligations.FirstFailingCheckIsReported := by
  unfold Obligations.FirstFailingCheckIsReported
  intro s
  rw [← legal_iff_legalGeometry]
  refine ⟨fun w hw => ⟨_, completeCommand_illegalWord hw s, rfl⟩,
    fun n hn => outcomeIs_error (palgrayChecks_some hn),
    fun i hi => ⟨fun hrange => ?_, fun hrange hsize => ?_, fun hl hsize hempty => ?_⟩,
    fun hl => outcomeIs_error (passChecks_range hl),
    fun hl hsize => outcomeIs_error (passChecks_size hl hsize),
    fun i bpp p hi => ?_,
    fun bpp p hwf => outcomeIs_unsupported_of_wf hwf s⟩
  · exact outcomeIs_error_of_isDiffuser hi (quantizerChecks_range hrange)
  · exact outcomeIs_error_of_isDiffuser hi (quantizerChecks_size hrange hsize)
  · have hcount : s.palCount ≤ 256 := hempty.trans_le (Nat.zero_le _)
    exact outcomeIs_error_of_isDiffuser hi (quantizerChecks_palette ⟨hl, hcount⟩ hsize hempty)
  · rw [← depthEnabled_iff_depthOn, ← sourceCheck_iff_sourceReady]
    refine ⟨fun hidx => outcomeIs_error_of_isEncoder hi (encoderChecks_illegal hidx),
      fun hidx => ⟨fun hd => ?_, fun hd hb hp => ?_, fun hd hp => ⟨fun hl => ?_, fun hl hs => ?_⟩⟩⟩
    · exact outcomeIs_error_of_isEncoder hi (encoderChecks_depth hidx hd)
    · exact outcomeIs_error_of_isEncoder hi (encoderChecks_palette hidx hd (fun h => hp (h hb)))
    · exact outcomeIs_error_of_isEncoder hi (encoderChecks_range hidx hd hp hl)
    · exact outcomeIs_error_of_isEncoder hi (encoderChecks_source hidx hd hp hl hs)

end Sys2Proof.Machine
